-- ==== Sys2Proof/Word.lean ====
section
/-! DEFINITION. The 32-bit word of the core and its plainest readings (00_scope.md R7). -/

namespace Sys2Proof

/-- A register, pool word or line-buffer word: a bit pattern of 32 bits (R6 W_WORD, R7, R43). -/
abbrev Word := BitVec 32

/-- One byte lane of a word (R43). -/
abbrev Byte := BitVec 8

/-- `s32(w)`: the word read as a two's-complement integer (R7). -/
abbrev s32 (w : Word) : Int := w.toInt

/-- `u32(w)`: the word read as an unsigned integer (R7). -/
abbrev u32 (w : Word) : Nat := w.toNat

/-- `w32(n)`: the integer `n` modulo 2^32, as a word (R7). -/
abbrev w32 (n : Int) : Word := BitVec.ofInt 32 n

end Sys2Proof
end

