-- ==== Sys2Proof/Config.lean ====
section
/-! DEFINITION. What an implementation fixes (00_scope.md R6) and the one free value of the model. -/

namespace Sys2Proof

/-- The build arguments of R6. A machine is built with one value of each and never changes them;
`State.build` carries them, so that a statement about every state covers every build. -/
structure Build where
  /-- POOL_REQ, the requested pool size in words (R6, R77; 93 I14). -/
  poolReq : Nat
  /-- CAP_PD, the capacity of the pre-delay buffer in words (R6, 93 I11). -/
  capPd : Nat
  /-- CAP_ER, the capacity of each early-reflection line buffer in words (R6, 93 I11). -/
  capEr : Nat
  /-- CAP_COMB, the capacity of each comb line buffer in words (R6, 93 I11). -/
  capComb : Nat
  /-- CAP_AP, the capacity of each allpass line buffer in words (R6, 93 I11). -/
  capAp : Nat
deriving DecidableEq, Repr

/-- The build of the reference model: POOL_REQ at its default and the capacities R6 quotes
(D45). DESIGN CHOICE (assumption 2): only `State.reset` uses it; no statement rests on it unless its
title says so. Unsafe. -/
def Build.reference : Build :=
  { poolReq := 131072, capPd := 9600, capEr := 989, capComb := 3008, capAp := 424 }

/-- FREE VALUE (assumption 3): a pattern for the NaN that a binary32 operation on the two operand patterns
gives. R10 says the result is a NaN and names no sign and no payload. No body: nothing can be proved of it. -/
opaque Config.nanPattern : Word → Word → Word

/-- WINDOW_BASE, the platform's base address of the window (R46, 93 I15). No rule depends on it. -/
opaque Config.windowBase : Nat

/-- CMD_LATENCY, the time a command takes (R156, 93 I13). No rule depends on it. -/
opaque Config.cmdLatency : Nat

end Sys2Proof
end

