-- ==== Sys2Proof/Syntax.lean ====
section
/-! DEFINITION. The whole syntax: the fourteen commands (30_encoding.md R58), the registers of the window
(10_state.md R12), and what the platform can do at the core's port (20_memory.md, 70_reset_and_hazards.md). -/

namespace Sys2Proof

/-- The commands: one constructor for each row of spec/opcode_table.json (R58). The ID field of PWRITE and PREADC
is the number `zext_16(w[15:0])` (R56); `Instr.WellFormed` bounds it. Every other operand is a register. -/
inductive Instr where
  | nop
  | tofix
  | toflt
  | mul
  | mac
  | add
  | dcblk
  /-- `id` is the producerId (R55, R79). -/
  | pwrite (id : Nat)
  /-- `id` is the consumerId (R55, R81). -/
  | preadc (id : Nat)
  | preset
  | prepare
  | rreset
  | proc
  | updmod
deriving DecidableEq, Repr

/-- The 49 registers of the window, under the names of R12. -/
inductive Reg where
  | cmd | opa | opb | opc | res0 | res1 | status | poolCursor | lfoPhase | tailLevel | dcs | rAtten
  | param (i : Fin 7)
  | erGain (k : Fin 8)
  | combFb | apCoef | dampA | dampB | mixWet | mixDry | pdOffset | pdLen
  | erLen (k : Fin 8)
  | combLen (k : Fin 4)
  | apLen (k : Fin 2)
deriving DecidableEq, Repr

/-- The access codes of R12. -/
inductive AccessCode where
  | rw
  | ro
  | wo
  | rc
deriving DecidableEq, Repr

/-- One thing the platform does at the core's port. The port takes them one whole access at a time, in order
(R48, R49), so a list of them is a command stream, and an interleaving of several masters is one such list. -/
inductive PortEvent where
  /-- A bus read of `size` bytes at byte offset `off` of the window (R37). -/
  | read (off : BitVec 8) (size : Nat)
  /-- A bus write of `data` with `size` bytes at byte offset `off`; `inj` is the level of the pin `inj` that a PWRITE
  run by this write samples (R80: every PWRITE takes its own draw, and both levels are admitted). -/
  | write (off : BitVec 8) (size : Nat) (data : Word) (inj : Bool)
  /-- The platform asserts (`true`) or deasserts (`false`) the reset input `rst` (R145). -/
  | rst (level : Bool)
deriving DecidableEq, Repr

end Sys2Proof
end

