-- ==== Sys2Proof/WellFormed.lean ====
section
/-! DEFINITION. The checks on syntax: an instruction's operands (30_encoding.md R55) and a bus access's form
(20_memory.md R37). -/

namespace Sys2Proof

/-- A well-formed instruction's ID fits its 16-bit field (R55); every other command has no operand. -/
abbrev Instr.WellFormed : Instr → Prop
  | .pwrite id => id < 2 ^ 16
  | .preadc id => id < 2 ^ 16
  | .nop | .tofix | .toflt | .mul | .mac | .add | .dcblk | .preset | .prepare | .rreset | .proc | .updmod => True

/-- The same check as a Bool, for tests. -/
def Instr.wellFormed : Instr → Bool
  | .pwrite id => decide (id < 2 ^ 16)
  | .preadc id => decide (id < 2 ^ 16)
  | .nop | .tofix | .toflt | .mul | .mac | .add | .dcblk | .preset | .prepare | .rreset | .proc | .updmod => true

/-- "An access is well formed when its size is 4 and off mod 4 = 0" (R37). -/
abbrev AccessWellFormed (off : BitVec 8) (size : Nat) : Prop :=
  size = 4 ∧ off.toNat % 4 = 0

end Sys2Proof
end

