-- ==== Sys2Proof/Decode.lean ====
section
/-! DEFINITION. Decoding and encoding of command words (30_encoding.md R54 to R60), and the byte lanes of a word
(20_memory.md R43). -/

namespace Sys2Proof

/-- Why a word encodes no command (R60). The core records none of this: every one raises IllegalCommand (R130). -/
inductive DecodeError where
  /-- OP is not a value of R58. -/
  | unassignedOp (op : BitVec 8)
  /-- RSV is not 0. -/
  | reservedNotZero (rsv : BitVec 8)
  /-- ID is not 0 in a command other than PWRITE and PREADC. -/
  | idNotZero (id : BitVec 16)
  /-- Fewer than the four bytes of a command word (R54: no command is shorter than 32 bits). -/
  | shortWord
deriving DecidableEq, Repr

/-- What a word decodes to: a command, or a named rejection. -/
inductive Decoded where
  | command (i : Instr)
  | illegal (e : DecodeError)
deriving DecidableEq, Repr

/-- OP, bits 31:24 (R55). -/
def opField (w : Word) : BitVec 8 := w.extractLsb' 24 8

/-- RSV, bits 23:16 (R55). -/
def rsvField (w : Word) : BitVec 8 := w.extractLsb' 16 8

/-- ID, bits 15:0 (R55). -/
def idField (w : Word) : BitVec 16 := w.extractLsb' 0 16

/-- The command of an OP value (R58); the ID is zero-extended (R56) and only PWRITE and PREADC take it. -/
def commandOf (op : BitVec 8) (id : Nat) : Option Instr :=
  match op.toNat with
  | 0x00 => some .nop
  | 0x01 => some .tofix
  | 0x02 => some .toflt
  | 0x03 => some .mul
  | 0x04 => some .mac
  | 0x05 => some .add
  | 0x06 => some .dcblk
  | 0x10 => some (.pwrite id)
  | 0x11 => some (.preadc id)
  | 0x12 => some .preset
  | 0x20 => some .prepare
  | 0x21 => some .rreset
  | 0x22 => some .proc
  | 0x23 => some .updmod
  | _ => none

/-- Whether the ID field of this OP is an operand (R55, R59). -/
def takesId (op : BitVec 8) : Bool := op == 0x10#8 || op == 0x11#8

/-- Decode one command word, with the checks in the order of R59. -/
def decode (w : Word) : Decoded :=
  match commandOf (opField w) (idField w).toNat with
  | none => .illegal (.unassignedOp (opField w))
  | some i =>
    if rsvField w ≠ 0 then .illegal (.reservedNotZero (rsvField w))
    else if takesId (opField w) = false ∧ idField w ≠ 0 then .illegal (.idNotZero (idField w))
    else .command i

/-- The OP value of a command (R58). -/
def Instr.op : Instr → BitVec 8
  | .nop => 0x00#8
  | .tofix => 0x01#8
  | .toflt => 0x02#8
  | .mul => 0x03#8
  | .mac => 0x04#8
  | .add => 0x05#8
  | .dcblk => 0x06#8
  | .pwrite _ => 0x10#8
  | .preadc _ => 0x11#8
  | .preset => 0x12#8
  | .prepare => 0x20#8
  | .rreset => 0x21#8
  | .proc => 0x22#8
  | .updmod => 0x23#8

/-- The ID field of a command (R55): the unit identifier of PWRITE and PREADC, 0 in every other command. -/
def Instr.idBits : Instr → BitVec 16
  | .pwrite id => BitVec.ofNat 16 id
  | .preadc id => BitVec.ofNat 16 id
  | .nop | .tofix | .toflt | .mul | .mac | .add | .dcblk | .preset | .prepare | .rreset | .proc | .updmod => 0#16

/-- The word of a well-formed instruction: OP, then RSV = 0, then ID (R55). -/
def encode (i : Instr) : Word := i.op ++ (0#8 ++ i.idBits : BitVec 24)

/-- One row of the opcode map of R58: the words `w` with `w AND mask = pattern`. -/
structure OpcodeRow where
  mnemonic : String
  pattern : Word
  mask : Word
deriving DecidableEq, Repr

/-- The opcode map of R58, row by row. -/
def opcodeMap : List OpcodeRow :=
  [ ⟨"NOP", 0x00000000#32, 0xFFFFFFFF#32⟩,
    ⟨"TOFIX", 0x01000000#32, 0xFFFFFFFF#32⟩,
    ⟨"TOFLT", 0x02000000#32, 0xFFFFFFFF#32⟩,
    ⟨"MUL", 0x03000000#32, 0xFFFFFFFF#32⟩,
    ⟨"MAC", 0x04000000#32, 0xFFFFFFFF#32⟩,
    ⟨"ADD", 0x05000000#32, 0xFFFFFFFF#32⟩,
    ⟨"DCBLK", 0x06000000#32, 0xFFFFFFFF#32⟩,
    ⟨"PWRITE", 0x10000000#32, 0xFFFF0000#32⟩,
    ⟨"PREADC", 0x11000000#32, 0xFFFF0000#32⟩,
    ⟨"PRESET", 0x12000000#32, 0xFFFFFFFF#32⟩,
    ⟨"PREPARE", 0x20000000#32, 0xFFFFFFFF#32⟩,
    ⟨"RRESET", 0x21000000#32, 0xFFFFFFFF#32⟩,
    ⟨"PROC", 0x22000000#32, 0xFFFFFFFF#32⟩,
    ⟨"UPDMOD", 0x23000000#32, 0xFFFFFFFF#32⟩ ]

/-- The mnemonic of a command (R58). -/
def Instr.mnemonic : Instr → String
  | .nop => "NOP"
  | .tofix => "TOFIX"
  | .toflt => "TOFLT"
  | .mul => "MUL"
  | .mac => "MAC"
  | .add => "ADD"
  | .dcblk => "DCBLK"
  | .pwrite _ => "PWRITE"
  | .preadc _ => "PREADC"
  | .preset => "PRESET"
  | .prepare => "PREPARE"
  | .rreset => "RRESET"
  | .proc => "PROC"
  | .updmod => "UPDMOD"

/-- The rows of R58 that a word matches. -/
def matchingRows (w : Word) : List OpcodeRow :=
  opcodeMap.filter fun r => w &&& r.mask == r.pattern

/-- The word on four byte lanes: bits 7:0 at the lowest address (R43). -/
def lanesOf (w : Word) : List Byte :=
  [w.extractLsb' 0 8, w.extractLsb' 8 8, w.extractLsb' 16 8, w.extractLsb' 24 8]

/-- The word that four byte lanes hold (R43). -/
def wordOfLanes (b0 b1 b2 b3 : Byte) : Word := b3 ++ (b2 ++ (b1 ++ b0 : BitVec 16) : BitVec 24)

/-- Decode the command word at the head of a list of bytes; total on any bytes. -/
def decodeBytes : List Byte → Decoded
  | b0 :: b1 :: b2 :: b3 :: _ => decode (wordOfLanes b0 b1 b2 b3)
  | _ => .illegal .shortWord

/-- The word of an instruction given as the opcode table numbers its bits: bits from `nbits` up are 0. -/
def tableWord (nbits w : Nat) : Word := BitVec.ofNat 32 (w % 2 ^ nbits)

/-- The instruction the decoder reads from an instruction whose bits are `w`. -/
def decodeTableWord (nbits w : Nat) : Option Instr :=
  match decodeBytes (lanesOf (tableWord nbits w)) with
  | .command i => some i
  | .illegal _ => none

end Sys2Proof
end

