-- ==== Sys2Proof/Machine/State.lean ====
section
/-! DEFINITION. The state of the core (10_state.md), all of it, as plain data, and its value after reset (R34, R145). -/

namespace Sys2Proof.Machine

/-- Words by word index, in one canonical form: indexes strictly rising, no entry equal to what an unlisted index
reads as (`blankWord`). The pool and the line buffers are "indexed by word, with no byte addresses" (R35), so a cell is
a pair of index and word (assumption 4). -/
abbrev Memory := List (Nat × Word)

/-- What an unlisted word reads as: 0, the reset contents of the pool and of every line buffer (R34, R82, R86). -/
def blankWord : Word := 0#32

/-- The canonical form: indexes strictly rising, and no entry equal to `blankWord`. -/
abbrev Memory.wf (m : Memory) : Prop :=
  m.Pairwise (fun c d => c.1 < d.1) ∧ ∀ c ∈ m, c.2 ≠ blankWord

/-- The lifecycle state STATUS.STATE (R20). The value 3 is never produced, and is left out (93 I16). -/
inductive Lifecycle where
  | uninitialized
  | prepared
  | processing
deriving DecidableEq, Repr

/-- The error code STATUS.ERR (R21, R128). -/
inductive ErrCode where
  | none
  | allocFail
  | illegalCommand
  | busError
deriving DecidableEq, Repr

/-- One line: its active length (A_PD, A_ER[k], A_COMB[k], A_AP[k]), its write index (W_PD, W_ER[k], W_CB[k], W_AP[k])
and its buffer (PDBUF, ERBUF[k], CBBUF[k], APBUF[k]) (R28, R29). -/
structure Line where
  active : Word
  widx : Word
  buf : Memory
deriving DecidableEq, Repr

/-- The hidden state of the pipeline (R28, R29). -/
structure Pipe where
  /-- The pre-delay line: `active` is A_PD, the buffer's length in words. -/
  pd : Line
  /-- The early-reflection lines: `active` is the delay length L of a buffer of L + 1 words. -/
  er : Vector Line 8
  /-- The comb lines, as `er`. -/
  comb : Vector Line 4
  /-- The allpass lines, as `er`. -/
  ap : Vector Line 2
  /-- RV_DCS, the binary32 DC-block state of the pipeline. -/
  rvDcs : Word
  /-- DMP_L, the left damping accumulator. -/
  dmpL : Word
  /-- DMP_R, the right damping accumulator. -/
  dmpR : Word
deriving DecidableEq, Repr

/-- The coefficient registers that PROC reads (R12, R27). -/
structure Coeffs where
  erGain : Vector Word 8
  combFb : Word
  apCoef : Word
  dampA : Word
  dampB : Word
  mixWet : Word
  mixDry : Word
  pdOffset : Word
deriving DecidableEq, Repr

/-- The staged length registers (R12, R27, R41). -/
structure Lengths where
  pd : Word
  er : Vector Word 8
  comb : Vector Word 4
  ap : Vector Word 2
deriving DecidableEq, Repr

/-- The delay pool: POOL and its write cursor CUR (R31). -/
structure Pool where
  mem : Memory
  cur : Nat
deriving DecidableEq, Repr

/-- The core's port. Every field is the MODEL's own (assumption 1): the pins and the access streams are the platform's,
not state of the core. -/
structure Port where
  /-- What the platform does next, first event first. -/
  queue : List PortEvent
  /-- The words the bus reads have returned, oldest first. -/
  replies : List Word
  /-- The level of the pin `inj` that the access in progress samples (R80). -/
  inj : Bool
  /-- The level of the reset input `rst` (R145). -/
  rst : Bool
deriving DecidableEq, Repr

/-- The state of the machine: every register of R12 with storage, every field of STATUS (R16), the hidden state of R28 to
R31; and the model's own `port` and `build`. CMD has no storage (R15), R_ATTEN is hardwired (R26), and the core has no
program counter (R33). -/
structure State where
  /-- OPA, OPB, OPC, the operand registers (R13). -/
  opa : Word
  opb : Word
  opc : Word
  /-- RES0, RES1, the result registers (R14). -/
  res0 : Word
  res1 : Word
  /-- STATUS.OVF (R17). -/
  ovf : Bool
  /-- STATUS.CONT (R18). -/
  cont : Bool
  /-- STATUS.POVF (R19). -/
  povf : Bool
  /-- STATUS.STATE (R20). -/
  life : Lifecycle
  /-- STATUS.ERR (R21). -/
  err : ErrCode
  /-- LFO_PHASE (R23). -/
  lfoPhase : Word
  /-- TAIL_LEVEL (R24). -/
  tailLevel : Word
  /-- DCS (R25). -/
  dcs : Word
  /-- PARAM[0..6] (R111). -/
  param : Vector Word 7
  /-- The coefficient registers and PD_OFFSET (R27). -/
  coef : Coeffs
  /-- The staged lengths PD_LEN, ER_LEN, COMB_LEN, AP_LEN (R27). -/
  staged : Lengths
  /-- The hidden state of the pipeline (R28, R29). -/
  pipe : Pipe
  /-- POOL and CUR (R31). -/
  pool : Pool
  /-- The model's own: the port (assumption 1). -/
  port : Port
  /-- The model's own: the build arguments of R6, which no step changes (assumption 2). -/
  build : Build
deriving DecidableEq, Repr

/-- Why the machine would stop with a fault: nothing makes it stop. The core has no traps (R135), every error is recorded
in STATUS.ERR and "does not stop later accesses or commands" (R21, R127), and every command is total (R68, R108), so
the type has no constructor. Safe. -/
inductive Fault where
deriving DecidableEq, Repr

/-- Why the machine would refuse an instruction. -/
inductive Refusal where
  /-- Raised by `exec` for an instruction without a meaning; no arm of `exec` raises it. Safe: the machine stops. -/
  | notModelled (mnemonic : String)
deriving DecidableEq, Repr

/-- What an access or a command answers. -/
abbrev Result := Host.Outcome State Fault Refusal

/-- An inactive line: active length 0, write index 0, no word (R34, R94). -/
def Line.empty : Line := { active := 0#32, widx := 0#32, buf := [] }

/-- The pipeline at power-on (R34): every hidden item 0, RV_DCS +0.0, every line buffer empty. -/
def Pipe.reset : Pipe :=
  { pd := Line.empty, er := Vector.replicate 8 Line.empty, comb := Vector.replicate 4 Line.empty,
    ap := Vector.replicate 2 Line.empty, rvDcs := 0#32, dmpL := 0#32, dmpR := 0#32 }

/-- The coefficient registers at power-on (R12, R34). -/
def Coeffs.reset : Coeffs :=
  { erGain := Vector.replicate 8 0#32, combFb := 0#32, apCoef := 0#32, dampA := 0#32, dampB := 0#32,
    mixWet := 0#32, mixDry := 0#32, pdOffset := 0#32 }

/-- The staged lengths at power-on (R12, R34). -/
def Lengths.reset : Lengths :=
  { pd := 0#32, er := Vector.replicate 8 0#32, comb := Vector.replicate 4 0#32, ap := Vector.replicate 2 0#32 }

/-- The power-on values of R34 and R145 for a machine of the build `b` whose port is `p`. -/
def State.powerOn (b : Build) (p : Port) : State :=
  { opa := 0#32, opb := 0#32, opc := 0#32, res0 := 0#32, res1 := 0#32,
    ovf := false, cont := false, povf := false, life := .uninitialized, err := .none,
    lfoPhase := 0#32, tailLevel := 0#32, dcs := 0#32, param := Vector.replicate 7 0#32,
    coef := Coeffs.reset, staged := Lengths.reset, pipe := Pipe.reset, pool := { mem := [], cur := 0 },
    port := p, build := b }

/-- The port right after reset: no access waits and none has answered (assumption 1). -/
def Port.idle : Port := { queue := [], replies := [], inj := false, rst := false }

/-- The machine right after reset: every value is R34's; the build is the reference build (assumption 2), the port is idle. -/
def State.reset : State := State.powerOn Build.reference Port.idle

end Sys2Proof.Machine
end

