-- ==== Sys2Proof/Machine/Float.lean ====
section
/-! DEFINITION. Floating point (00_scope.md R10, R11): the binary32 operations with round-to-nearest, ties to even,
subnormals kept, no exception flag; and the binary64 format of the host's derivation (44_parameter_mapping.md R114).
A value is exact data; a pattern is a word. IEEE 754 itself is general knowledge (93 I3). -/

namespace Sys2Proof.Machine

/-- A binary floating-point format. A finite value is a whole number of units of `2^(-unitExp)`, the smallest subnormal. -/
structure FFmt where
  /-- Significant bits of a normal number. -/
  prec : Nat
  /-- The unit is `2^(-unitExp)`. -/
  unitExp : Nat
  /-- A magnitude of `2^topExp` units or more overflows to infinity. -/
  topExp : Nat
deriving DecidableEq, Repr

/-- binary32: 24 significant bits, unit 2^-149, overflow from 2^128 = 2^277 units. -/
def binary32 : FFmt := { prec := 24, unitExp := 149, topExp := 277 }

/-- binary64: 53 significant bits, unit 2^-1074, overflow from 2^1024 = 2^2098 units. -/
def binary64 : FFmt := { prec := 53, unitExp := 1074, topExp := 2098 }

/-- `F(w)`, the real or special value of a pattern (R10): a finite value is a sign and a magnitude in units of its
format, so that +0 and -0 differ. -/
inductive FVal where
  | nan
  | inf (neg : Bool)
  | fin (neg : Bool) (mag : Nat)
deriving DecidableEq, Repr

/-- The magnitude `m / 2^j` units rounded to the format, ties to even, with no bound above: a whole number of units
with at most `prec` significant bits. -/
def roundMag (f : FFmt) (m j : Nat) : Nat :=
  let q := max j (Nat.log2 m + 1 - f.prec)
  let r := m / 2 ^ q
  let rest := m % 2 ^ q
  let up := 2 ^ q < 2 * rest ∨ (2 ^ q = 2 * rest ∧ r % 2 = 1)
  (if up then r + 1 else r) * 2 ^ (q - j)

/-- `fround` of the exact real of sign `neg` and magnitude `m / 2^j` units, "overflowing to ±infinity" (R10). -/
def froundMag (f : FFmt) (neg : Bool) (m j : Nat) : FVal :=
  let r := roundMag f m j
  if 2 ^ f.topExp ≤ r then .inf neg else .fin neg r

/-- The signed integer of a sign and a magnitude. -/
def signed (neg : Bool) (m : Nat) : Int := if neg then -(m : Int) else m

/-- The negated value; a NaN stays a NaN. -/
def fneg : FVal → FVal
  | .nan => .nan
  | .inf s => .inf (!s)
  | .fin s m => .fin (!s) m

/-- The sum, rounded once (R10). A zero sum of unlike signs is +0, infinities of unlike signs give NaN (IEEE 754). -/
def faddV (f : FFmt) : FVal → FVal → FVal
  | .nan, _ => .nan
  | _, .nan => .nan
  | .inf s, .inf t => if s = t then .inf s else .nan
  | .inf s, .fin _ _ => .inf s
  | .fin _ _, .inf t => .inf t
  | .fin s m, .fin t n =>
    let z := signed s m + signed t n
    if z = 0 then .fin (s && t) 0 else froundMag f (decide (z < 0)) z.natAbs 0

/-- The difference, rounded once (R10). -/
def fsubV (f : FFmt) (a b : FVal) : FVal := faddV f a (fneg b)

/-- The product, rounded once (R10). Zero times infinity is NaN (IEEE 754). -/
def fmulV (f : FFmt) : FVal → FVal → FVal
  | .nan, _ => .nan
  | _, .nan => .nan
  | .inf s, .inf t => .inf (s != t)
  | .inf s, .fin t n => if n = 0 then .nan else .inf (s != t)
  | .fin s m, .inf t => if m = 0 then .nan else .inf (s != t)
  | .fin s m, .fin t n => froundMag f (s != t) (m * n) f.unitExp

/-- The real `num / den`, as a sign and a ratio, rounded once: two guard bits and a sticky bit stand for the rest. -/
def froundRatio (f : FFmt) (neg : Bool) (num den : Nat) : FVal :=
  let n := num * 2 ^ (f.unitExp + 2)
  froundMag f neg (2 * (n / den) + (if n % den = 0 then 0 else 1)) 3

/-- The quotient, rounded once; only the host's derivation divides (R114). -/
def fdivV (f : FFmt) : FVal → FVal → FVal
  | .nan, _ => .nan
  | _, .nan => .nan
  | .inf _, .inf _ => .nan
  | .inf s, .fin t _ => .inf (s != t)
  | .fin s _, .inf t => .fin (s != t) 0
  | .fin s m, .fin t n =>
    if n = 0 then (if m = 0 then .nan else .inf (s != t)) else froundRatio f (s != t) m n

/-- `fabs` clears the sign (R10). -/
def fabsV : FVal → FVal
  | .nan => .nan
  | .inf _ => .inf false
  | .fin _ m => .fin false m

/-- `a < b` on values of one format; false when either is NaN. -/
def fltV : FVal → FVal → Bool
  | .nan, _ => false
  | _, .nan => false
  | .inf s, .inf t => s && !t
  | .inf s, .fin _ _ => s
  | .fin _ _, .inf t => !t
  | .fin s m, .fin t n => decide (signed s m < signed t n)

/-- `a >= b` on values of one format; false when either is NaN. -/
def fgeV : FVal → FVal → Bool
  | .nan, _ => false
  | _, .nan => false
  | a, b => !fltV a b

/-- `F(w)`: the value of a binary32 pattern (R10). -/
def unpack32 (w : Word) : FVal :=
  let neg := w.getMsbD 0
  let e := (w.extractLsb' 23 8).toNat
  let frac := (w.extractLsb' 0 23).toNat
  if e = 255 then (if frac = 0 then .inf neg else .nan)
  else if e = 0 then .fin neg frac
  else .fin neg ((2 ^ 23 + frac) * 2 ^ (e - 1))

/-- The sign bit of a pattern. -/
def signBit (neg : Bool) : Word := if neg then 0x80000000#32 else 0#32

/-- The binary32 pattern of a value of the format; `nanWord` is the pattern to use for a NaN. -/
def pack32 (nanWord : Word) : FVal → Word
  | .nan => nanWord
  | .inf neg => signBit neg ||| 0x7F800000#32
  | .fin neg m =>
    if m < 2 ^ 23 then signBit neg ||| BitVec.ofNat 32 m
    else
      let e := Nat.log2 m - 23
      signBit neg ||| BitVec.ofNat 32 ((e + 1) * 2 ^ 23 + (m / 2 ^ e - 2 ^ 23))

/-- Whether a pattern is a NaN. -/
def isNanWord (w : Word) : Bool := unpack32 w == .nan

/-- The NaN pattern an operation on the patterns `a` and `b` gives: any NaN pattern, whichever the implementation
produces (R10 names none; assumption 3). -/
def nanWordOf (a b : Word) : Word :=
  let p := Config.nanPattern a b
  if isNanWord p then p else p ||| 0x7FC00000#32

/-- `fadd` on patterns (R10). -/
def fadd (a b : Word) : Word := pack32 (nanWordOf a b) (faddV binary32 (unpack32 a) (unpack32 b))

/-- `fsub` on patterns (R10). -/
def fsub (a b : Word) : Word := pack32 (nanWordOf a b) (fsubV binary32 (unpack32 a) (unpack32 b))

/-- `fmul` on patterns (R10). -/
def fmul (a b : Word) : Word := pack32 (nanWordOf a b) (fmulV binary32 (unpack32 a) (unpack32 b))

/-- `fabs` clears bit 31 (R10). -/
def fabs (a : Word) : Word := a &&& 0x7FFFFFFF#32

/-- K999, nearest 0.999 (R11). -/
def k999 : Word := 0x3F7FBE77#32

/-- K001, nearest 0.001 (R11). -/
def k001 : Word := 0x3A83126F#32

/-- K005, nearest 0.05 (R11). -/
def k005 : Word := 0x3D4CCCCD#32

/-- KTWOPI, nearest 2π (R11). -/
def kTwoPi : Word := 0x40C90FDB#32

/-- `f32(x)` for the decimal x of sign `neg` and magnitude `num / den`: the nearest binary32 pattern (R61). -/
def f32 (neg : Bool) (num den : Nat) : Word := pack32 (nanWordOf 0 0) (froundRatio binary32 neg num den)

end Sys2Proof.Machine
end

