-- ==== Sys2Proof/Machine/Ops.lean ====
section
/-! DEFINITION. The named operations over memory, lines and the pool, raising an error (60_exceptions.md R127), and the
state clears (42_reverb_control.md R86). -/

namespace Sys2Proof.Machine

/-- Read one word of a memory; a word not listed reads as `blankWord`. -/
def readWord : Memory → Nat → Word
  | [], _ => blankWord
  | (b, v) :: m, a => if a = b then v else readWord m a

/-- Put a cell in front, unless its word is what an unlisted index reads as. -/
def consCell (a : Nat) (v : Word) (m : Memory) : Memory := if v = blankWord then m else (a, v) :: m

/-- Write one word of a memory, keeping the canonical form. -/
def writeWord : Memory → Nat → Word → Memory
  | [], a, v => consCell a v []
  | (b, w) :: m, a, v =>
    if a < b then consCell a v ((b, w) :: m)
    else if a = b then consCell a v m
    else (b, w) :: writeWord m a v

/-- Apply a function to each of a fixed number of like things. -/
def vecMap {α β : Type} {n : Nat} (f : α → β) (v : Vector α n) : Vector β n :=
  ⟨⟨v.toList.map f⟩, by simp⟩

/-- Combine two rows of a fixed number of like things, index by index. -/
def vecZip {α β γ : Type} {n : Nat} (f : α → β → γ) (v : Vector α n) (w : Vector β n) : Vector γ n :=
  ⟨⟨List.zipWith f v.toList w.toList⟩, by simp⟩

/-- `raise E(code)`: STATUS.ERR <- code and nothing else; the access or command ends there (R127). The core has no other
exception: no saved state, no handler, no mode change and no return (R135). -/
def raise (code : ErrCode) (s : State) : State := { s with err := code }

/-- What a write to STATUS does: ERR <- 0, whatever the word written (R16, R42). It is the one thing that ends an error. -/
def clearErr (s : State) : State := { s with err := .none }

/-- POOL_LEN, "the smallest power of two that is at least max(1, POOL_REQ)" (R77). -/
def poolLen (b : Build) : Nat :=
  if b.poolReq ≤ 1 then 1 else 2 ^ (Nat.log2 (b.poolReq - 1) + 1)

/-- Clear one line's buffer and write index; its active length stays (R86). -/
def clearLine (l : Line) : Line := { l with widx := 0#32, buf := [] }

/-- Clear the hidden state of the pipeline; the active lengths stay (R86). -/
def clearPipe (p : Pipe) : Pipe :=
  { pd := clearLine p.pd, er := vecMap clearLine p.er, comb := vecMap clearLine p.comb,
    ap := vecMap clearLine p.ap, rvDcs := 0#32, dmpL := 0#32, dmpR := 0#32 }

/-- `clear_pipeline()`, shared by PREPARE and RRESET (R86). -/
def clearPipeline (s : State) : State :=
  { s with pipe := clearPipe s.pipe, lfoPhase := 0#32, tailLevel := 0#32 }

/-- A line with a newly latched active length (R88); its buffer and index are about to be cleared. -/
def latchLine (len : Word) (l : Line) : Line := { l with active := len }

/-- Latch the staged lengths into the active lengths (R88). -/
def latchLengths (n : Lengths) (p : Pipe) : Pipe :=
  { p with pd := latchLine n.pd p.pd, er := vecZip latchLine n.er p.er,
           comb := vecZip latchLine n.comb p.comb, ap := vecZip latchLine n.ap p.ap }

/-- The words a line buffer of delay length L needs: none for L = 0, else L + 1 (R29, R88). -/
def lineWords (len : Word) : Nat := if u32 len = 0 then 0 else u32 len + 1

/-- Whether every staged buffer fits its capacity (R88: the negation of `fail`). -/
def lengthsFit (b : Build) (n : Lengths) : Bool :=
  decide (u32 n.pd ≤ b.capPd) &&
  n.er.toList.all (fun len => decide (lineWords len ≤ b.capEr)) &&
  n.comb.toList.all (fun len => decide (lineWords len ≤ b.capComb)) &&
  n.ap.toList.all (fun len => decide (lineWords len ≤ b.capAp))

/-- `line_read`: the word at `(w + 1) mod N`, written L ticks ago, N = L + 1 (R95). -/
def lineRead (l : Line) : Int := s32 (readWord l.buf ((u32 l.widx + 1) % (u32 l.active + 1)))

/-- `line_write`: store at the write index, then advance it (R95). -/
def lineWrite (l : Line) (v : Int) : Line :=
  { l with buf := writeWord l.buf (u32 l.widx) (w32 v),
           widx := BitVec.ofNat 32 ((u32 l.widx + 1) % (u32 l.active + 1)) }

/-- The cursor after one write: `(CUR + 1) mod POOL_LEN` (R79). -/
def nextCursor (b : Build) (p : Pool) : Nat := (p.cur + 1) % poolLen b

/-- The write port of the pool (R79): store the word unclamped, advance the cursor, and when the draw is 1 flip bit 0 of
the word at the NEW cursor (90 C1). -/
def poolWrite (b : Build) (inj : Bool) (v : Word) (p : Pool) : Pool :=
  let cur := nextCursor b p
  let mem := writeWord p.mem p.cur v
  { mem := if inj then writeWord mem cur (readWord mem cur ^^^ 0x00000001#32) else mem, cur := cur }

/-- The arbitration of the pool's read port: the slot `CUR mod 4` is not the consumer's (R81). -/
def contended (id : Nat) (p : Pool) : Bool := decide (p.cur % 4 ≠ id % 4)

/-- The effective offset: a contended read is one sample nearer, "minimum 1" (R81, D25: integers, no wrap). -/
def effectiveOffset (isContended : Bool) (off : Nat) : Int :=
  if isContended then max 1 ((off : Int) - 1) else off

/-- The pool index a read uses: `(CUR - eff) mod POOL_LEN` (R81). -/
def poolIndex (b : Build) (p : Pool) (eff : Int) : Nat := (((p.cur : Int) - eff) % (poolLen b : Int)).toNat

/-- The read port of the pool (R81): the word read and the contention output. -/
def poolRead (b : Build) (id off : Nat) (p : Pool) : Word × Bool :=
  let c := contended id p
  (readWord p.mem (poolIndex b p (effectiveOffset c off)), c)

/-- The pool after a reset: zero-filled, cursor 0 (R82). -/
def poolReset : Pool := { mem := [], cur := 0 }

end Sys2Proof.Machine
end

