-- ==== Sys2Proof/Machine/Flags.lean ====
section
/-! DEFINITION. Saturation and the overflow output (00_scope.md R9, 40_fixed_point.md R64 to R67), how a command writes
its result and its flag, and the STATUS word (10_state.md R16). -/

namespace Sys2Proof.Machine

/-- `clamp20(v) = min(max(v, -524288), 524287)` (R9). -/
def clamp20 (v : Int) : Int := min (max v (-524288)) 524287

/-- `out20(v)`: v lies outside the 20-bit domain (R9). -/
def out20 (v : Int) : Bool := decide (v < -524288) || decide (524287 < v)

/-- A clamped value and its overflow output. -/
structure Sat where
  value : Int
  ov : Bool
deriving DecidableEq, Repr

/-- `sat(v)`, the pair of clamp20 and out20 (R9). -/
def sat (v : Int) : Sat := { value := clamp20 v, ov := out20 v }

/-- `p >>a 12`, the floor of `p / 4096` (R8, R66). -/
def sra12 (p : Int) : Int := p / 4096

/-- The multiply of the FixedPointUnit on integers: exact product, floor shift, saturation (R65, R72, R93 `mulq`). -/
def mulq (a b : Int) : Sat := sat (sra12 (a * b))

/-- The multiply-accumulate: the shift is on the product alone, the addend is not clamped (R73, R93 `macq`). -/
def macq (a b c : Int) : Sat := sat (sra12 (a * b) + c)

/-- The saturating add (R74). -/
def addq (a b : Int) : Sat := sat (a + b)

/-- Write a saturated result to RES0 and its overflow output to OVF (R17, R72 to R74). -/
def setResult (r : Sat) (s : State) : State := { s with res0 := w32 r.value, ovf := r.ov }

/-- Write a result to RES0 and no flag (R70, R71). -/
def setRes0 (w : Word) (s : State) : State := { s with res0 := w }

/-- Write the word read to RES0 and the contention output to CONT (R18, R81). -/
def setRead (r : Word × Bool) (s : State) : State := { s with res0 := r.1, cont := r.2 }

/-- The code of the field STATE (R20). -/
def lifeCode : Lifecycle → BitVec 2
  | .uninitialized => 0#2
  | .prepared => 1#2
  | .processing => 2#2

/-- The code of the field ERR (R21, R128). -/
def errCode : ErrCode → BitVec 2
  | .none => 0#2
  | .allocFail => 1#2
  | .illegalCommand => 2#2
  | .busError => 3#2

/-- The STATUS word: OVF at 0, CONT at 1, POVF at 2, STATE at 5:4, ERR at 9:8; every other bit reads 0 (R16). -/
def statusWord (s : State) : Word :=
  (0#22 ++ (errCode s.err ++ (0#2 ++ (lifeCode s.life ++ (0#1 ++ (BitVec.ofBool s.povf ++
    (BitVec.ofBool s.cont ++ BitVec.ofBool s.ovf : BitVec 2) : BitVec 3) : BitVec 4) : BitVec 6) : BitVec 8) : BitVec 10))

/-- STATE after a PROC: 2 when it is not 0 (R20, R108). -/
def lifeAfterProc : Lifecycle → Lifecycle
  | .uninitialized => .uninitialized
  | .prepared => .processing
  | .processing => .processing

/-- STATE after an RRESET: 1 when it is 2 (R20, R89). -/
def lifeAfterRreset : Lifecycle → Lifecycle
  | .uninitialized => .uninitialized
  | .prepared => .prepared
  | .processing => .prepared

end Sys2Proof.Machine
end

