-- ==== Sys2Proof/Machine/Operands.lean ====
section
/-! DEFINITION. How commands read their operands (30_encoding.md R57), and the conversions between fixed point and
binary32 (40_fixed_point.md R70, R71). -/

namespace Sys2Proof.Machine

/-- OPA as s32 (R57). -/
def opaInt (s : State) : Int := s32 s.opa

/-- OPB as s32 (R57). -/
def opbInt (s : State) : Int := s32 s.opb

/-- OPC as s32 (R57). -/
def opcInt (s : State) : Int := s32 s.opc

/-- OPA as u32, the offset of PREADC (R57, R81). -/
def opaNat (s : State) : Nat := u32 s.opa

/-- OPA as binary32 (R57). -/
def opaFloat (s : State) : FVal := unpack32 s.opa

/-- OPB as binary32 (R57). -/
def opbFloat (s : State) : FVal := unpack32 s.opb

/-- `toFixed` on a binary32 value (R70): NaN gives 0, an infinity saturates, and a finite value is scaled by 4096
exactly, truncated toward zero and clamped. A magnitude is in units of 2^-149, so 4096 times it is a whole number of
units of 2^-137. -/
def toFixed : FVal → Int
  | .nan => 0
  | .inf false => 524287
  | .inf true => -524288
  | .fin neg m => clamp20 (signed neg (m / 2 ^ 137))

/-- `toFixedF`: `toFixed` of a pattern (R70, R93). -/
def toFixedF (w : Word) : Int := toFixed (unpack32 w)

/-- `toFloat` as a value: `fround(n / 4096)` (R71). -/
def toFloatV (n : Int) : FVal := froundMag binary32 (decide (n < 0)) (n.natAbs * 2 ^ 137) 0

/-- `toFloat`: the pattern of `fround(n / 4096)` (R71). No NaN is ever produced. -/
def toFloat (n : Int) : Word := pack32 (nanWordOf 0 0) (toFloatV n)

/-- The output of the DC block, `fadd(fsub(xf, s), fmul(K999, s))` with `xf = toFloat(x)`, each step rounded, before its
re-quantization (R75, R98; 90 C4: the formula as written). -/
def dcBlockV (x : Int) (st : FVal) : FVal :=
  faddV binary32 (fsubV binary32 (toFloatV x) st) (fmulV binary32 (unpack32 k999) st)

/-- The DC block's result, re-quantized (R75). -/
def dcBlock (x : Int) (st : Word) : Int := toFixed (dcBlockV x (unpack32 st))

/-- `R_ATTEN`, the hardwired right-channel attenuation, "the Q12 value 3686" (R26). -/
def rAtten : Word := 0x00000E66#32

end Sys2Proof.Machine
end

