-- ==== Sys2Proof/Machine/Bus.lean ====
section
/-! DEFINITION. The register window and the host's bus accesses (10_state.md R12, 20_memory.md R35 to R45). -/

namespace Sys2Proof.Machine

/-- The byte offset of a register (R12). -/
def regOffset : Reg → Nat
  | .cmd => 0x00
  | .opa => 0x04
  | .opb => 0x08
  | .opc => 0x0C
  | .res0 => 0x10
  | .res1 => 0x14
  | .status => 0x18
  | .poolCursor => 0x1C
  | .lfoPhase => 0x20
  | .tailLevel => 0x24
  | .dcs => 0x28
  | .rAtten => 0x2C
  | .param i => 0x30 + 4 * i.val
  | .erGain k => 0x80 + 4 * k.val
  | .combFb => 0xA0
  | .apCoef => 0xA4
  | .dampA => 0xA8
  | .dampB => 0xAC
  | .mixWet => 0xB0
  | .mixDry => 0xB4
  | .pdOffset => 0xB8
  | .pdLen => 0xC0
  | .erLen k => 0xC4 + 4 * k.val
  | .combLen k => 0xE4 + 4 * k.val
  | .apLen k => 0xF4 + 4 * k.val

/-- The registers of the window, in the order of R12. -/
def windowRegs : List Reg :=
  [.cmd, .opa, .opb, .opc, .res0, .res1, .status, .poolCursor, .lfoPhase, .tailLevel, .dcs, .rAtten] ++
  [.param 0, .param 1, .param 2, .param 3, .param 4, .param 5, .param 6] ++
  [.erGain 0, .erGain 1, .erGain 2, .erGain 3, .erGain 4, .erGain 5, .erGain 6, .erGain 7] ++
  [.combFb, .apCoef, .dampA, .dampB, .mixWet, .mixDry, .pdOffset, .pdLen] ++
  [.erLen 0, .erLen 1, .erLen 2, .erLen 3, .erLen 4, .erLen 5, .erLen 6, .erLen 7] ++
  [.combLen 0, .combLen 1, .combLen 2, .combLen 3, .apLen 0, .apLen 1]

/-- The register at a byte offset; `none` is an unmapped offset (R12, R38). -/
def regAt (off : BitVec 8) : Option Reg := windowRegs.find? fun r => regOffset r == off.toNat

/-- The access code of a register (R12, R39). -/
def accessCode : Reg → AccessCode
  | .cmd => .wo
  | .status => .rc
  | .res0 | .res1 | .poolCursor | .lfoPhase | .tailLevel | .rAtten => .ro
  | .opa | .opb | .opc | .dcs | .param _ | .erGain _ | .combFb | .apCoef | .dampA | .dampB | .mixWet | .mixDry
  | .pdOffset | .pdLen | .erLen _ | .combLen _ | .apLen _ => .rw

/-- `pclamp`: the word a PARAM register stores (R111). The bounds are tested on the value; -0.0 is kept as written. -/
def pclamp (v : Word) : Word :=
  let f := unpack32 v
  if f = .nan then 0x00000000#32
  else if fltV f (unpack32 0x00000000#32) then 0x00000000#32
  else if fltV (unpack32 0x3F800000#32) f then 0x3F800000#32
  else v

/-- `x[NAME]`: the word a read of a mapped register returns (R40): CMD reads 0 (R15), STATUS its fields (R16), R_ATTEN its
constant (R26), POOL_CURSOR the cursor (R22). -/
def readReg (s : State) : Reg → Word
  | .cmd => 0x00000000#32
  | .opa => s.opa
  | .opb => s.opb
  | .opc => s.opc
  | .res0 => s.res0
  | .res1 => s.res1
  | .status => statusWord s
  | .poolCursor => BitVec.ofNat 32 s.pool.cur
  | .lfoPhase => s.lfoPhase
  | .tailLevel => s.tailLevel
  | .dcs => s.dcs
  | .rAtten => rAtten
  | .param i => s.param[i]
  | .erGain k => s.coef.erGain[k]
  | .combFb => s.coef.combFb
  | .apCoef => s.coef.apCoef
  | .dampA => s.coef.dampA
  | .dampB => s.coef.dampB
  | .mixWet => s.coef.mixWet
  | .mixDry => s.coef.mixDry
  | .pdOffset => s.coef.pdOffset
  | .pdLen => s.staged.pd
  | .erLen k => s.staged.er[k]
  | .combLen k => s.staged.comb[k]
  | .apLen k => s.staged.ap[k]

/-- What a well-formed write does: the next state, or a command word to run. -/
inductive WriteEffect where
  | done (s : State)
  | command (w : Word)
deriving DecidableEq, Repr

/-- A well-formed write of `v` to a mapped register (R42): a read-only one raises BusError (R39), CMD runs the word (R15),
STATUS clears ERR (R16), PARAM stores `pclamp v` (R111), and every other one stores `v` unchanged (R41). -/
def writeReg (v : Word) (s : State) : Reg → WriteEffect
  | .cmd => .command v
  | .status => .done (clearErr s)
  | .res0 | .res1 | .poolCursor | .lfoPhase | .tailLevel | .rAtten => .done (raise .busError s)
  | .opa => .done { s with opa := v }
  | .opb => .done { s with opb := v }
  | .opc => .done { s with opc := v }
  | .dcs => .done { s with dcs := v }
  | .param i => .done { s with param := s.param.set i (pclamp v) }
  | .erGain k => .done { s with coef := { s.coef with erGain := s.coef.erGain.set k v } }
  | .combFb => .done { s with coef := { s.coef with combFb := v } }
  | .apCoef => .done { s with coef := { s.coef with apCoef := v } }
  | .dampA => .done { s with coef := { s.coef with dampA := v } }
  | .dampB => .done { s with coef := { s.coef with dampB := v } }
  | .mixWet => .done { s with coef := { s.coef with mixWet := v } }
  | .mixDry => .done { s with coef := { s.coef with mixDry := v } }
  | .pdOffset => .done { s with coef := { s.coef with pdOffset := v } }
  | .pdLen => .done { s with staged := { s.staged with pd := v } }
  | .erLen k => .done { s with staged := { s.staged with er := s.staged.er.set k v } }
  | .combLen k => .done { s with staged := { s.staged with comb := s.staged.comb.set k v } }
  | .apLen k => .done { s with staged := { s.staged with ap := s.staged.ap.set k v } }

/-- `MemWrite` (R42), the checks in the order of R134: malformed, unmapped, read-only, then the register's own effect. -/
def busWrite (off : BitVec 8) (size : Nat) (v : Word) (s : State) : WriteEffect :=
  if AccessWellFormed off size then
    match regAt off with
    | none => .done (raise .busError s)
    | some r => writeReg v s r
  else .done (raise .busError s)

/-- `MemRead` (R40): the state after it and the word it returns. A malformed or unmapped read raises BusError and returns
0 (R37, R38); every other read changes no state. -/
def busRead (off : BitVec 8) (size : Nat) (s : State) : State × Word :=
  if AccessWellFormed off size then
    match regAt off with
    | none => (raise .busError s, 0x00000000#32)
    | some r => (s, readReg s r)
  else (raise .busError s, 0x00000000#32)

end Sys2Proof.Machine
end

