-- ==== Sys2Proof/Machine/DelayPool.lean ====
section
/-! DEFINITION. The DelayPool commands (41_delay_pool.md). -/

namespace Sys2Proof.Machine

/-- PWRITE: the word of OPA through the pool's write port, with the draw INJ of this step (R79, R80). "The producerId has
no effect on the write." -/
def execPwrite (_id : Nat) (s : State) : Result :=
  .next { s with pool := poolWrite s.build s.port.inj s.opa s.pool }

/-- PREADC: RES0, CONT <- the pool's read port at the offset of OPA for the consumer `id` (R81). -/
def execPreadc (id : Nat) (s : State) : Result :=
  .next (setRead (poolRead s.build id (opaNat s) s.pool) s)

/-- PRESET: zero-fill the pool, cursor 0 (R82). -/
def execPreset (s : State) : Result := .next { s with pool := poolReset }

end Sys2Proof.Machine
end

