-- ==== Sys2Proof/Machine/FixedPoint.lean ====
section
/-! DEFINITION. The FixedPointUnit commands (40_fixed_point.md). None of them raises an error (R68). -/

namespace Sys2Proof.Machine

/-- TOFIX: RES0 <- toFixed(OPA as binary32) (R70). -/
def execTofix (s : State) : Result := .next (setRes0 (w32 (toFixed (opaFloat s))) s)

/-- TOFLT: RES0 <- fround(s32(OPA) / 4096) (R71). -/
def execToflt (s : State) : Result := .next (setRes0 (toFloat (opaInt s)) s)

/-- MUL: RES0, OVF <- sat((OPA * OPB) >>a 12) (R72). -/
def execMul (s : State) : Result := .next (setResult (mulq (opaInt s) (opbInt s)) s)

/-- MAC: RES0, OVF <- sat(((OPA * OPB) >>a 12) + OPC) (R73). -/
def execMac (s : State) : Result := .next (setResult (macq (opaInt s) (opbInt s) (opcInt s)) s)

/-- ADD: RES0, OVF <- sat(OPA + OPB) (R74). -/
def execAdd (s : State) : Result := .next (setResult (addq (opaInt s) (opbInt s)) s)

/-- DCBLK: RES0 <- the DC block of OPA with the state DCS, and DCS <- toFloat(OPA) (R75). -/
def execDcblk (s : State) : Result :=
  .next { s with res0 := w32 (dcBlock (opaInt s) s.dcs), dcs := toFloat (opaInt s) }

end Sys2Proof.Machine
end

