-- ==== Sys2Proof/Machine/ReverbControl.lean ====
section
/-! DEFINITION. The control commands of the ReverbEngine (42_reverb_control.md). -/

namespace Sys2Proof.Machine

/-- NOP: no effect (R87). -/
def execNop (s : State) : Result := .next s

/-- PREPARE: AllocFail when a staged buffer is larger than its capacity and nothing else changes; else latch the staged
lengths, clear the pipeline and set STATE to 1 (R88). -/
def execPrepare (s : State) : Result :=
  if lengthsFit s.build s.staged then
    .next { clearPipeline { s with pipe := latchLengths s.staged s.pipe } with life := .prepared }
  else .next (raise .allocFail s)

/-- RRESET: clear the pipeline; STATE 2 becomes 1 (R89). -/
def execRreset (s : State) : Result :=
  .next { clearPipeline s with life := lifeAfterRreset s.life }

/-- The phase of the LFO one update later, as a value: add K005, and subtract KTWOPI once when the sum reaches it (R90). -/
def lfoStepV (p : FVal) : FVal :=
  let q := faddV binary32 p (unpack32 k005)
  if fgeV q (unpack32 kTwoPi) then fsubV binary32 q (unpack32 kTwoPi) else q

/-- The phase one update later, as a pattern (R90). -/
def lfoStep (w : Word) : Word := pack32 (nanWordOf w k005) (lfoStepV (unpack32 w))

/-- UPDMOD: advance LFO_PHASE; the counter in OPA is not used (R90). -/
def execUpdmod (s : State) : Result := .next { s with lfoPhase := lfoStep s.lfoPhase }

end Sys2Proof.Machine
end

