-- ==== Sys2Proof/Machine/ReverbProcess.lean ====
section
/-! DEFINITION. The per-sample pipeline, PROC (43_reverb_process.md). Each of the steps 1 to 10 is one definition over
the coefficient registers and the hidden state; `tick` puts steps 1 to 9 together. -/

namespace Sys2Proof.Machine

/-- What one early-reflection or comb line does in a tick: the line after it, its output if it is active, and its
overflow output. -/
structure TapOut where
  line : Line
  out : Option Int
  ov : Bool
deriving DecidableEq, Repr

/-- What a bank of lines does in a tick. -/
structure BankOut (n : Nat) where
  lines : Vector Line n
  value : Int
  ov : Bool
deriving DecidableEq, Repr

/-- One line of a bank: an inactive line is skipped and leaves everything as it is (R94); an active one reads its delayed
word, computes `macq(d, gain, xin)` and writes that back (R95, R96). -/
def tapStep (xin : Int) (l : Line) (gain : Int) : TapOut :=
  if u32 l.active = 0 then { line := l, out := none, ov := false }
  else
    let y := macq (lineRead l) gain xin
    { line := lineWrite l y.value, out := some y.value, ov := y.ov }

/-- The average of the outputs of the active lines, truncated toward zero; with none active the input passes through (R96). -/
def average (xin : Int) (ys : List Int) : Int :=
  if ys = [] then xin else ys.sum.tdiv ys.length

/-- A bank of lines with one gain each (R96). -/
def bank {n : Nat} (lines : Vector Line n) (gains : Vector Word n) (xin : Int) : BankOut n :=
  let outs := vecZip (fun l g => tapStep xin l (s32 g)) lines gains
  { lines := vecMap TapOut.line outs,
    value := average xin (outs.toList.filterMap TapOut.out),
    ov := outs.toList.any TapOut.ov }

/-- Step 1, input: the truncated mean of the two converted inputs (R97). -/
def monoMean (lq rq : Int) : Int := (lq + rq).tdiv 2

/-- Step 3, pre-delay (R99): with A_PD = 0 the line is bypassed; else push `dc` at the write position, read `off mod N`
words behind it, and advance. -/
def preDelay (offset : Word) (l : Line) (dc : Int) : Line × Int :=
  let n := u32 l.active
  if n = 0 then (l, dc)
  else
    let buf := writeWord l.buf (u32 l.widx) (w32 dc)
    let off := u32 offset % n
    ({ l with buf := buf, widx := BitVec.ofNat 32 ((u32 l.widx + 1) % n) },
      s32 (readWord buf ((u32 l.widx + n - off) % n)))

/-- What one allpass stage does in a tick. -/
structure StageOut where
  line : Line
  run : Int
  ov : Bool
deriving DecidableEq, Repr

/-- One allpass stage with the coefficient `c` (R102): both MACs use the same old `run` and the same `d`; `-c` is formed
exactly (D61). An inactive stage passes `run` through. -/
def allpassStage (c : Int) (l : Line) (run : Int) : StageOut :=
  if u32 l.active = 0 then { line := l, run := run, ov := false }
  else
    let d := lineRead l
    let out := macq run (-c) d
    let fb := macq d c run
    { line := lineWrite l fb.value, run := out.value, ov := out.ov || fb.ov }

/-- What the allpass stages do in a tick. -/
structure AllpassOut where
  lines : Vector Line 2
  value : Int
  ov : Bool
deriving DecidableEq, Repr

/-- Step 6, the two allpass stages in series, stage 0 first (R102). -/
def allpass (c : Int) (ap : Vector Line 2) (cb : Int) : AllpassOut :=
  let s0 := allpassStage c ap[0] cb
  let s1 := allpassStage c ap[1] s0.run
  { lines := #v[s0.line, s1.line], value := s1.run, ov := s0.ov || s1.ov }

/-- Step 7, one damping accumulator: `macq(ap, DAMP_B, mulq(DMP, DAMP_A))` and the overflow outputs of both (R103). -/
def damp (a b dmp ap : Int) : Sat :=
  let t := mulq dmp a
  let r := macq ap b t.value
  { value := r.value, ov := t.ov || r.ov }

/-- Step 9, one channel of the mix: `macq(dry, MIX_DRY, mulq(wet, MIX_WET))` (R105). -/
def mix (wetGain dryGain dry wet : Int) : Sat :=
  let u := mulq wet wetGain
  let r := macq dry dryGain u.value
  { value := r.value, ov := u.ov || r.ov }

/-- What a tick computes: the hidden state after it, the two outputs in fixed point, the allpass output that feeds the
tail level, and the summary `ov` of the overflow outputs. -/
structure TickOut where
  pipe : Pipe
  outL : Int
  outR : Int
  ap : Int
  ov : Bool
deriving DecidableEq, Repr

/-- Steps 1 to 9 of R108, in the source's order. -/
def tick (c : Coeffs) (p : Pipe) (inL inR : FVal) : TickOut :=
  let lq := toFixed inL
  let rq := toFixed inR
  let mono := monoMean lq rq
  let dc := dcBlock mono p.rvDcs
  let pd := preDelay c.pdOffset p.pd dc
  let er := bank p.er c.erGain pd.2
  let cb := bank p.comb (Vector.replicate 4 c.combFb) er.value
  let ap := allpass (s32 c.apCoef) p.ap cb.value
  let dl := damp (s32 c.dampA) (s32 c.dampB) (s32 p.dmpL) ap.value
  let dr := damp (s32 c.dampA) (s32 c.dampB) (s32 p.dmpR) ap.value
  let wr := mulq dr.value (s32 rAtten)
  let ml := mix (s32 c.mixWet) (s32 c.mixDry) lq dl.value
  let mr := mix (s32 c.mixWet) (s32 c.mixDry) rq wr.value
  { pipe := { pd := pd.1, er := er.lines, comb := cb.lines, ap := ap.lines,
              rvDcs := toFloat mono, dmpL := w32 dl.value, dmpR := w32 dr.value },
    outL := ml.value, outR := mr.value, ap := ap.value,
    ov := er.ov || cb.ov || ap.ov || dl.ov || dr.ov || wr.ov || ml.ov || mr.ov }

/-- Step 10 as a value: `fadd(fmul(level, K999), fmul(fabs(toFloat(ap)), K001))`, each step rounded (R106). -/
def tailStepV (level : FVal) (ap : Int) : FVal :=
  faddV binary32 (fmulV binary32 level (unpack32 k999)) (fmulV binary32 (fabsV (toFloatV ap)) (unpack32 k001))

/-- Step 10, the tail level one tick later, as a pattern (R106). -/
def tailStep (level : Word) (ap : Int) : Word :=
  pack32 (nanWordOf level (fabs (toFloat ap))) (tailStepV (unpack32 level) ap)

/-- PROC: one stereo sample (R108). It never fails, writes no OVF and no CONT, and reads neither LFO_PHASE nor the pool. -/
def execProc (s : State) : Result :=
  let t := tick s.coef s.pipe (opaFloat s) (opbFloat s)
  .next { s with pipe := t.pipe, res0 := toFloat t.outL, res1 := toFloat t.outR,
                 tailLevel := tailStep s.tailLevel t.ap, povf := t.ov, life := lifeAfterProc s.life }

end Sys2Proof.Machine
end

