-- ==== Sys2Proof/Machine/Dispatch.lean ====
section
/-! DEFINITION. One arm for each command (30_encoding.md R59: "perform the rule of op"). -/

namespace Sys2Proof.Machine

def exec (i : Instr) (s : State) : Host.Outcome State Fault Refusal :=
  match i with
  | .nop => Sys2Proof.Machine.execNop s
  | .tofix => Sys2Proof.Machine.execTofix s
  | .toflt => Sys2Proof.Machine.execToflt s
  | .mul => Sys2Proof.Machine.execMul s
  | .mac => Sys2Proof.Machine.execMac s
  | .add => Sys2Proof.Machine.execAdd s
  | .dcblk => Sys2Proof.Machine.execDcblk s
  | .pwrite id => Sys2Proof.Machine.execPwrite id s
  | .preadc id => Sys2Proof.Machine.execPreadc id s
  | .preset => Sys2Proof.Machine.execPreset s
  | .prepare => Sys2Proof.Machine.execPrepare s
  | .rreset => Sys2Proof.Machine.execRreset s
  | .proc => Sys2Proof.Machine.execProc s
  | .updmod => Sys2Proof.Machine.execUpdmod s

end Sys2Proof.Machine
end

