-- ==== Sys2Proof/Machine/Command.lean ====
section
/-! DEFINITION. Running a command word (30_encoding.md R59), and what each event at the port does (20_memory.md R44, R48;
70_reset_and_hazards.md R145). -/

namespace Sys2Proof.Machine

/-- `execute(w)` (R59): the command `w` encodes; a word that encodes none raises IllegalCommand and changes nothing else
(R130). -/
def execute (w : Word) (s : State) : Result :=
  match decode w with
  | .command i => exec i s
  | .illegal _ => .next (raise .illegalCommand s)

/-- The port answers a read with the word `w` (the model's own record, assumption 1). -/
def reply (w : Word) (s : State) : State := { s with port := { s.port with replies := s.port.replies ++ [w] } }

/-- The pin `inj` has the level `b` while the access in progress runs (R80). -/
def sampleInj (b : Bool) (s : State) : State := { s with port := { s.port with inj := b } }

/-- The events that wait at the port become `q`. -/
def withQueue (q : List PortEvent) (s : State) : State := { s with port := { s.port with queue := q } }

/-- The level of the pin `rst` becomes `b`. -/
def driveRst (b : Bool) (s : State) : State := { s with port := { s.port with rst := b } }

/-- One event at the port (R44: a whole access, or a whole command, at once). While `rst` is asserted "the core ignores
bus accesses"; "When it is deasserted, every piece of state has its power-on value" (R145), the platform's port and the
build apart. -/
def perform (e : PortEvent) (s : State) : Result :=
  match e with
  | .rst true => .next (driveRst true s)
  | .rst false =>
    if s.port.rst then .next (driveRst false (State.powerOn s.build s.port)) else .next s
  | .read off size =>
    if s.port.rst then .next s
    else
      let r := busRead off size s
      .next (reply r.2 r.1)
  | .write off size v inj =>
    if s.port.rst then .next s
    else
      match busWrite off size v (sampleInj inj s) with
      | .done t => .next t
      | .command w => execute w (sampleInj inj s)

end Sys2Proof.Machine
end

