-- ==== Sys2Proof/Machine/Step.lean ====
section
/-! DEFINITION. One step of the core: the next event of its port (20_memory.md R48). -/

namespace Sys2Proof.Machine

/-- One step: take the first event of the port and perform it. With no event the core "holds all its state unchanged and
does nothing" (R144). -/
def step (s : State) : Host.Outcome State Fault Refusal :=
  match s.port.queue with
  | [] => .next s
  | e :: rest => perform e (withQueue rest s)

/-- The state whose very next step writes the instruction's word to CMD, which is how the core gets an instruction
(R33, R52): that write is put before everything the port has queued, with the pin `inj` as it stands, and `rst` not
asserted. A program is loaded from outside the machine (assumption 5). -/
def State.withFetchWord (s : State) (nbits w : Nat) : State :=
  { s with port := { s.port with
      queue := .write 0x00#8 4 (tableWord nbits w) s.port.inj :: s.port.queue, rst := false } }

end Sys2Proof.Machine
end

