-- ==== Sys2Proof/Machine/PowerOfTen.lean ====
section
/-! DEFINITION. The reference `pow10` of the host's derivation (44_parameter_mapping.md R114, 93_implementation_defined.md I10):
"the correctly rounded binary64 value" of 10^y. The result is settled from the exact floor of `2^1076 * 10^y`, quarter
units of binary64; the floor is found between two integer bounds, and by exact integer comparison should they differ. -/

namespace Sys2Proof.Machine

/-- Newton's step for the square root of `n`, from above, as long as it falls. -/
def isqrtFrom (n : Nat) : Nat → Nat → Nat
  | 0, x => x
  | fuel + 1, x => if (x + n / x) / 2 < x then isqrtFrom n fuel ((x + n / x) / 2) else x

/-- The square root of `n` rounded down, or up, from a start that is not below it. -/
def isqrtTo (up : Bool) (start n : Nat) : Nat :=
  if up = true ∧ isqrtFrom n start start * isqrtFrom n start start < n then isqrtFrom n start start + 1
  else isqrtFrom n start start

/-- A bound, from below or from above, of `2^p * 10^(m / 2^k)`, for `m < 2^k`: one square root for each of the `k`
binary digits of the exponent, the last digit first. -/
def tenRoot (p : Nat) (up : Bool) : Nat → Nat → Nat
  | 0, _ => 2 ^ p
  | k + 1, m =>
    isqrtTo up (2 ^ (p + 4))
      (10 ^ (m / 2 ^ k) * (if m % 2 ^ k = 0 then 2 ^ p else tenRoot p up k (m % 2 ^ k)) * 2 ^ p)

/-- A bound, from below or from above, of the floor of `2^u * 10^(t / 2^k)`. -/
def tenBound (p : Nat) (up : Bool) (u k : Nat) (t : Int) : Nat :=
  tenRoot p up k (t % 2 ^ k).toNat * 10 ^ (t / 2 ^ k).toNat * 2 ^ u / (2 ^ p * 10 ^ (-(t / 2 ^ k)).toNat)

/-- Whether `q ≤ 2^u * 10^(t / 2^k)`, with both sides raised to the power `2^k`: exact, and never run on the way to a value
when the two bounds agree. -/
@[noinline] def tenReaches (u k : Nat) (t : Int) (q : Nat) : Bool :=
  decide (q ^ 2 ^ k * 10 ^ (-t).toNat ≤ (2 ^ u) ^ 2 ^ k * 10 ^ t.toNat)

/-- The greatest number from `lo` to `lo + gap` that the test accepts; `lo` when it accepts no other. -/
def settle (ok : Nat → Bool) (lo : Nat) : Nat → Nat
  | 0 => lo
  | gap + 1 => if ok (lo + gap + 1) then lo + gap + 1 else settle ok lo gap

/-- The floor of `2^u * 10^(t / 2^k)`; `p` is how many bits the bounds are computed with. -/
def tenFloor (p u k : Nat) (t : Int) : Nat :=
  settle (tenReaches u k t) (tenBound p false u k t) (tenBound p true u k t - tenBound p false u k t)

/-- The reference `pow10(y)`: 10^y rounded once to binary64. `2^1076 * 10^y` is a whole number only for a whole y of at
least 0, and otherwise a sticky bit stands for the rest. From 330 on the power overflows, and up to -330 it rounds to +0;
the results at an infinity and at a NaN are those of IEEE 754 (assumption 9). -/
def pow10Ref : FVal → FVal
  | .nan => .nan
  | .inf false => .inf false
  | .inf true => .fin false 0
  | .fin s m =>
    let t := signed s m
    if 330 * 2 ^ 1074 ≤ t then .inf false
    else if t ≤ -330 * 2 ^ 1074 then .fin false 0
    else
      froundMag binary64 false
        (2 * tenFloor 2304 1076 1074 t + (if 0 ≤ t ∧ t % 2 ^ 1074 = 0 then 0 else 1)) 3

end Sys2Proof.Machine
end

