-- ==== Sys2Proof/Machine/Derivation.lean ====
section
/-! DEFINITION. The host's reference derivation (44_parameter_mapping.md R114 to R124): a function the HOST evaluates,
in binary64, from the seven PARAM words and the sample rate, and whose results it writes into the coefficient and length
registers. The core derives nothing itself (R112), so no command calls this file. -/

namespace Sys2Proof.Machine

/-- A binary64 value. -/
abbrev F64 := FVal

/-- binary64 sum (R114). -/
def add64 (a b : F64) : F64 := faddV binary64 a b

/-- binary64 difference (R114). -/
def sub64 (a b : F64) : F64 := fsubV binary64 a b

/-- binary64 product (R114). -/
def mul64 (a b : F64) : F64 := fmulV binary64 a b

/-- binary64 quotient (R114). -/
def div64 (a b : F64) : F64 := fdivV binary64 a b

/-- The binary64 value nearest `num / den`: the literals of R115 to R124 (93 I9). -/
def dec64 (num den : Nat) : F64 := froundRatio binary64 false num den

/-- `max(a, b)` (R114). -/
def max64 (a b : F64) : F64 := if fltV a b then b else a

/-- `min(a, b)` (R114). -/
def min64 (a b : F64) : F64 := if fltV b a then b else a

/-- `clamp(v, lo, hi) = min(max(v, lo), hi)` (R114). -/
def clamp64 (v lo hi : F64) : F64 := min64 (max64 v lo) hi

/-- `p_i`: a binary32 value "converted exactly to binary64" (R114); 925 = 1074 - 149. -/
def widen : FVal → F64
  | .nan => .nan
  | .inf s => .inf s
  | .fin s m => .fin s (m * 2 ^ 925)

/-- `f32(v)`: a binary64 value rounded to binary32 (R114). -/
def narrow : F64 → FVal
  | .nan => .nan
  | .inf s => .inf s
  | .fin s m => froundMag binary32 s m 925

/-- `q(v) = toFixedF(f32(v))`, the quantization to Q12 (R114). -/
def quantize (v : F64) : Word := w32 (toFixed (narrow v))

/-- `round(v)`, half away from zero (R114, 93 I5), of a finite value. -/
def round64 : F64 → Option Int
  | .fin s m => some (signed s ((2 * m + 2 ^ 1074) / 2 ^ 1075))
  | .inf _ => none
  | .nan => none

/-- `trunc(v)`, toward zero (R114), of a finite value. -/
def trunc64 : F64 → Option Int
  | .fin s m => some (signed s (m / 2 ^ 1074))
  | .inf _ => none
  | .nan => none

/-- "written as a u32": the word of an integer that is one; the rules give no word for any other (assumption 8). -/
def asU32 (n : Int) : Option Word := if 0 ≤ n ∧ n < 2 ^ 32 then some (w32 n) else none

/-- `max(lo, ·)` of an integer, written as a u32. -/
def atLeast (lo : Int) (n : Option Int) : Option Word := n.bind fun k => asU32 (max lo k)

/-- `PD_OFFSET = max(1, round(p_0 * 100.0 * sr / 1000.0))` (R115). -/
def derivePdOffset (p0 sr : F64) : Option Word :=
  atLeast 1 (round64 (div64 (mul64 (mul64 p0 (dec64 100 1)) sr) (dec64 1000 1)))

/-- `rt60 = 0.1 * pow10(p_1 * 2.0)`, in seconds (R116). `pow10` is the host's 10^y (93 I10). -/
def deriveRt60 (pow10 : F64 → F64) (p1 : F64) : F64 := mul64 (dec64 1 10) (pow10 (mul64 p1 (dec64 2 1)))

/-- `avgCombDelay = max(10.0, 2165.0 * p_5 * sr / 44100.0)`, in samples (R117). -/
def deriveAvgCombDelay (p5 sr : F64) : F64 :=
  max64 (dec64 10 1) (div64 (mul64 (mul64 (dec64 2165 1) p5) sr) (dec64 44100 1))

/-- `COMB_FB = q(clamp(pow10(-3.0 * rt60 / avgCombDelay), 0.0, 0.95))` (R118, as written: 90 C7). -/
def deriveCombFb (pow10 : F64 → F64) (p1 p5 sr : F64) : Word :=
  quantize (clamp64
    (pow10 (div64 (mul64 (fneg (dec64 3 1)) (deriveRt60 pow10 p1)) (deriveAvgCombDelay p5 sr)))
    (dec64 0 1) (dec64 95 100))

/-- `alpha = 1.0 - p_3 * 0.99` (R119). -/
def deriveAlpha (p3 : F64) : F64 := sub64 (dec64 1 1) (mul64 p3 (dec64 99 100))

/-- `ER_GAIN[i] = q(clamp(p_4 * (0.9 - i * 0.1), 0.0, 1.0))` (R120). -/
def deriveErGain (p4 : F64) (i : Nat) : Word :=
  quantize (clamp64 (mul64 p4 (sub64 (dec64 9 10) (mul64 (dec64 i 1) (dec64 1 10)))) (dec64 0 1) (dec64 1 1))

/-- `AP_COEF = q(clamp(p_2 * 0.7, 0.1, 0.9))` (R121). -/
def deriveApCoef (p2 : F64) : Word := quantize (clamp64 (mul64 p2 (dec64 7 10)) (dec64 1 10) (dec64 9 10))

/-- The coefficient registers and PD_OFFSET for the seven PARAM words and the sample rate `sr` (R115 to R122). -/
def deriveCoeffs (pow10 : F64 → F64) (sr : F64) (param : Vector Word 7) : Option Coeffs :=
  let p : Fin 7 → F64 := fun i => widen (unpack32 param[i])
  (derivePdOffset (p 0) sr).map fun off =>
    { erGain := vecMap (deriveErGain (p 4)) #v[0, 1, 2, 3, 4, 5, 6, 7],
      combFb := deriveCombFb pow10 (p 1) (p 5) sr,
      apCoef := deriveApCoef (p 2),
      dampA := quantize (deriveAlpha (p 3)),
      dampB := quantize (sub64 (dec64 1 1) (deriveAlpha (p 3))),
      mixWet := quantize (p 6),
      mixDry := quantize (sub64 (dec64 1 1) (p 6)),
      pdOffset := off }

/-- The coefficients of the reference: `pow10` is "the correctly rounded binary64 value" (R114, R126, 93 I10). -/
def referenceCoeffs (sr : F64) (param : Vector Word 7) : Option Coeffs := deriveCoeffs pow10Ref sr param

/-- `len(b) = max(10, trunc(b * scale))` with `scale = sr / 44100.0 * p_5` (R123). -/
def deriveLen (p5 sr : F64) (base : Nat) : Option Word :=
  atLeast 10 (trunc64 (mul64 (dec64 base 1) (mul64 (div64 sr (dec64 44100 1)) p5)))

/-- `PD_LEN = max(10, round(sr * 0.2))` (R124). -/
def derivePdLen (sr : F64) : Option Word := atLeast 10 (round64 (mul64 sr (dec64 2 10)))

/-- Every word of a row, or none if one has none. -/
def vecAll {n : Nat} (v : Vector (Option Word) n) : Option (Vector Word n) :=
  if v.toList.all Option.isSome then some (vecMap (fun o => o.getD 0#32) v) else none

/-- The staged lengths, from the base tunings of R123 and the pre-delay length of R124. -/
def deriveLengths (sr : F64) (param : Vector Word 7) : Option Lengths :=
  let len := deriveLen (widen (unpack32 param[5])) sr
  (derivePdLen sr).bind fun pd =>
  (vecAll (vecMap len #v[142, 107, 379, 277, 672, 908, 445, 500])).bind fun er =>
  (vecAll (vecMap len #v[1687, 1923, 2287, 2763])).bind fun comb =>
  (vecAll (vecMap len #v[389, 127])).map fun ap =>
    { pd := pd, er := er, comb := comb, ap := ap }

/-- One row of the table of R126: what the reference derivation gives for the PARAM words at `hz` samples a second. -/
def referenceOutputs (param : Vector Word 7) (hz : Nat) : Option Coeffs × Option Lengths :=
  (referenceCoeffs (dec64 hz 1) param, deriveLengths (dec64 hz 1) param)

end Sys2Proof.Machine
end

