-- ==== Sys2Proof/Machine/Listing.lean ====
section
/-! DEFINITION. The command-stream listings of 30_encoding.md (R61, R62) as the port events they stand for, and the
host's bring-up order of 70_reset_and_hazards.md (R148). A host writes these; the core sees the events alone. -/

namespace Sys2Proof.Machine

/-- One item of a listing (R61, R62). An item that issues a command takes the level of the pin `inj` at that write. -/
inductive ListItem where
  /-- `SET R, v`, for any register of R12, CMD included (DESIGN CHOICE, assumption 17: R62 lets R be any name of R12, while
  R61 calls `CMD w` the only way to spell an illegal encoding). -/
  | set (r : Reg) (v : Word)
  /-- `GET R`. -/
  | get (r : Reg)
  /-- `CLRERR`. -/
  | clrerr
  /-- A bare mnemonic, or PWRITE or PREADC with its ID alone: one CMD write of its encoding. -/
  | bare (i : Instr) (inj : Bool)
  /-- `CMD w`, a raw word, "the only way to spell an illegal encoding". -/
  | cmd (w : Word) (inj : Bool)
  /-- `TOFIX a`, `TOFLT a`, `DCBLK a`, `UPDMOD n`, `PWRITE id, s`, `PREADC id, off`: SET OPA, then the command. -/
  | one (i : Instr) (a : Word) (inj : Bool)
  /-- `MUL a, b`, `ADD a, b`, `PROC l, r`: SET OPA, SET OPB, then the command. -/
  | two (i : Instr) (a b : Word) (inj : Bool)
  /-- `MAC a, b, c`: SET OPA, SET OPB, SET OPC, then the command. -/
  | three (i : Instr) (a b c : Word) (inj : Bool)
deriving DecidableEq, Repr

/-- `MemWrite(off(R), 4, v)` (R8, R62). -/
def setReg (r : Reg) (v : Word) (inj : Bool) : PortEvent := .write (BitVec.ofNat 8 (regOffset r)) 4 v inj

/-- `MemRead(off(R), 4)` (R8, R62). -/
def getReg (r : Reg) : PortEvent := .read (BitVec.ofNat 8 (regOffset r)) 4

/-- "A pseudo-instruction's expansion is exactly the listed accesses, in order" (R62). DESIGN CHOICE (assumption 17): a `SET`
writes with `inj` at 0. No command reads that level, but for the PWRITE that `SET CMD, v` can spell, whose draw is then 0; `CMD w`
and a bare PWRITE carry either level. -/
def expand : ListItem → List PortEvent
  | .set r v => [setReg r v false]
  | .get r => [getReg r]
  | .clrerr => [setReg .status 0#32 false]
  | .bare i inj => [setReg .cmd (encode i) inj]
  | .cmd w inj => [setReg .cmd w inj]
  | .one i a inj => [setReg .opa a false, setReg .cmd (encode i) inj]
  | .two i a b inj => [setReg .opa a false, setReg .opb b false, setReg .cmd (encode i) inj]
  | .three i a b c inj =>
    [setReg .opa a false, setReg .opb b false, setReg .opc c false, setReg .cmd (encode i) inj]

/-- The port events of a listing, in order. -/
def expandAll (items : List ListItem) : List PortEvent := items.flatMap expand

/-- Step 2 of R148: the seven PARAM writes, which also load a preset (R113). -/
def setParams (v : Vector Word 7) : List ListItem :=
  [.set (.param 0) v[0], .set (.param 1) v[1], .set (.param 2) v[2], .set (.param 3) v[3],
   .set (.param 4) v[4], .set (.param 5) v[5], .set (.param 6) v[6]]

/-- Capturing a preset: reading PARAM[0..6] back (R113). -/
def getParams : List ListItem :=
  [.get (.param 0), .get (.param 1), .get (.param 2), .get (.param 3), .get (.param 4), .get (.param 5), .get (.param 6)]

/-- Step 3 of R148, the coefficient registers and PD_OFFSET. -/
def setCoeffs (c : Coeffs) : List ListItem :=
  [.set (.erGain 0) c.erGain[0], .set (.erGain 1) c.erGain[1], .set (.erGain 2) c.erGain[2],
   .set (.erGain 3) c.erGain[3], .set (.erGain 4) c.erGain[4], .set (.erGain 5) c.erGain[5],
   .set (.erGain 6) c.erGain[6], .set (.erGain 7) c.erGain[7], .set .combFb c.combFb, .set .apCoef c.apCoef,
   .set .dampA c.dampA, .set .dampB c.dampB, .set .mixWet c.mixWet, .set .mixDry c.mixDry,
   .set .pdOffset c.pdOffset]

/-- Step 3 of R148, the staged lengths. -/
def setLengths (n : Lengths) : List ListItem :=
  [.set .pdLen n.pd, .set (.erLen 0) n.er[0], .set (.erLen 1) n.er[1], .set (.erLen 2) n.er[2],
   .set (.erLen 3) n.er[3], .set (.erLen 4) n.er[4], .set (.erLen 5) n.er[5], .set (.erLen 6) n.er[6],
   .set (.erLen 7) n.er[7], .set (.combLen 0) n.comb[0], .set (.combLen 1) n.comb[1],
   .set (.combLen 2) n.comb[2], .set (.combLen 3) n.comb[3], .set (.apLen 0) n.ap[0], .set (.apLen 1) n.ap[1]]

/-- Steps 1 to 4 of R148: PRESET, the parameters, what is derived from them, PREPARE, and the read of STATUS. -/
def bringUp (v : Vector Word 7) (c : Coeffs) (n : Lengths) : List ListItem :=
  [.bare .preset false] ++ setParams v ++ setCoeffs c ++ setLengths n ++ [.bare .prepare false, .get .status]

/-- Step 5 of R148, one sample tick: write OPA and OPB, issue PROC, read RES0 and RES1. -/
def sampleTick (l r : Word) : List ListItem := [.two .proc l r false, .get .res0, .get .res1]

/-- 64 sample ticks of step 5 of R148 and the UPDMOD that follows them, with the host's counter `n` in OPA (R90, R91). -/
def sampleBlock (n : Word) (inputs : Vector (Word × Word) 64) : List ListItem :=
  (inputs.toList.flatMap fun p => sampleTick p.1 p.2) ++ [.one .updmod n false]

end Sys2Proof.Machine
end

