-- ==== Sys2Proof/Safety.lean ====
section
/-! DEFINITION. What a good state is, in the terms the statements use: the invariants the spec states about storage
(10_state.md R22, R23, R29, R30, R31; 44_parameter_mapping.md R111), what "rounded to nearest, ties to even" and the reference
10^y mean (00_scope.md R10, 44_parameter_mapping.md R114), and the observations that the properties of R92 and R109 to R113 speak of. -/

namespace Sys2Proof.Machine

/-- A clamped FixedPointSample: its s32 lies in [-524288, 524287] (R9, R63). -/
abbrev Clamped (w : Word) : Prop := -524288 ≤ s32 w ∧ s32 w ≤ 524287

/-- A line whose buffer has `n` words: the buffer is in canonical form, every word listed is one of the `n` and a
clamped sample (R29), and the write index is in the buffer, or 0 if there is none (R30). -/
structure LineOk (n : Nat) (l : Line) : Prop where
  canonical : Memory.wf l.buf
  inBuffer : ∀ c ∈ l.buf, c.1 < n ∧ Clamped c.2
  index : if n = 0 then u32 l.widx = 0 else u32 l.widx < n

/-- The invariant of the machine. Every step keeps it, and reset has it; both are obligations. -/
structure Inv (s : State) : Prop where
  /-- The pool is in canonical form, and lists words of the pool only (R31). -/
  poolCanonical : Memory.wf s.pool.mem
  poolInside : ∀ c ∈ s.pool.mem, c.1 < poolLen s.build
  /-- CUR is in [0, POOL_LEN-1] (R22, R31). -/
  cursor : s.pool.cur < poolLen s.build
  /-- The pre-delay buffer has A_PD words, and they fit (R29, R30, R88). -/
  pd : LineOk (u32 s.pipe.pd.active) s.pipe.pd ∧ u32 s.pipe.pd.active ≤ s.build.capPd
  /-- An early-reflection buffer has L + 1 words, none when L = 0, and they fit (R29, R30, R88). -/
  er : ∀ k : Fin 8, LineOk (lineWords s.pipe.er[k].active) s.pipe.er[k] ∧ lineWords s.pipe.er[k].active ≤ s.build.capEr
  comb : ∀ k : Fin 4, LineOk (lineWords s.pipe.comb[k].active) s.pipe.comb[k] ∧
    lineWords s.pipe.comb[k].active ≤ s.build.capComb
  ap : ∀ k : Fin 2, LineOk (lineWords s.pipe.ap[k].active) s.pipe.ap[k] ∧ lineWords s.pipe.ap[k].active ≤ s.build.capAp
  /-- RV_DCS is the float of a sample (R98: `RV_DCS <- xf`; +0.0 after a clear). -/
  rvDcs : ∃ n : Int, -524288 ≤ n ∧ n ≤ 524287 ∧ s.pipe.rvDcs = toFloat n
  /-- The damping accumulators are clamped samples (R28, R64). -/
  dmpL : Clamped s.pipe.dmpL
  dmpR : Clamped s.pipe.dmpR
  /-- LFO_PHASE is "always a non-negative binary32 below KTWOPI" (R23): as patterns, from +0.0 up to KTWOPI. -/
  lfo : s.lfoPhase.toNat < kTwoPi.toNat
  /-- Every PARAM register holds a word that `pclamp` leaves alone (R111). -/
  param : ∀ i : Fin 7, pclamp s.param[i] = s.param[i]

/-- `x` units are the magnitude of a number of the format, were its exponent unbounded above. -/
def IsMag (f : FFmt) (x : Nat) : Prop := ∃ c e, x = c * 2 ^ e ∧ c < 2 ^ f.prec

/-- `r` units are the exact magnitude `m / 2^j` units rounded to nearest, ties to even (R10): no other magnitude of the
format is nearer, and one as near stands `d` units away from an `r` that is an even multiple of `d`. -/
def NearestEven (f : FFmt) (m j r : Nat) : Prop :=
  IsMag f r ∧ ∀ x, IsMag f x → x ≠ r →
    ((r : Int) * 2 ^ j - m).natAbs < ((x : Int) * 2 ^ j - m).natAbs ∨
    (((r : Int) * 2 ^ j - m).natAbs = ((x : Int) * 2 ^ j - m).natAbs ∧ 2 * ((x : Int) - r).natAbs ∣ r)

/-- `r` units are the real magnitude `v` rounded to nearest, ties to even (R10, R114): `NearestEven` for any real. -/
def NearestEvenReal (f : FFmt) (v : ℝ) (r : Nat) : Prop :=
  IsMag f r ∧ ∀ x, IsMag f x → x ≠ r →
    |(r : ℝ) - v| < |(x : ℝ) - v| ∨ (|(r : ℝ) - v| = |(x : ℝ) - v| ∧ 2 * ((x : Int) - r).natAbs ∣ r)

/-- The reference of R114 and 93 I10: on every finite binary64 y the function gives the real number 10^y, correctly rounded to
binary64, with an infinity from 2^1024 = 2^2098 units on. -/
def IsReferencePow10 (pow10 : F64 → F64) : Prop :=
  ∀ (s : Bool) (m : Nat), ∃ r, NearestEvenReal binary64 ((10 : ℝ) ^ ((signed s m : ℝ) / 2 ^ 1074) * 2 ^ 1074) r ∧
    pow10 (.fin s m) = if 2 ^ 2098 ≤ r then .inf false else .fin false r

/-- The pattern `w` is finite and its value is `z` units of 2^-149. -/
def HasUnits (w : Word) (z : Int) : Prop := ∃ neg m, unpack32 w = .fin neg m ∧ signed neg m = z

/-- `v` brought into the 20-bit domain, by cases (R9). -/
def toDomain (v : Int) : Int := if v < -524288 then -524288 else if 524287 < v then 524287 else v

/-- `v` lies outside the 20-bit domain (R9). -/
def outsideDomain (v : Int) : Bool := decide (v < -524288 ∨ 524287 < v)

/-- The state as the port's first event leaves it to the access: the event taken, the pin `inj` at the level `j`. -/
def popped (s : State) (rest : List PortEvent) (j : Bool) : State := sampleInj j (withQueue rest s)

/-- The state as the port's first event leaves it, when that event is a read answered with `w`. -/
def answered (s : State) (rest : List PortEvent) (w : Word) : State := reply w (withQueue rest s)

/-- `n` steps, one after the other (R48). -/
def stepMany : Nat → State → Result
  | 0, s => .next s
  | n + 1, s =>
    match step s with
    | .next t => stepMany n t
    | .fault r => .fault r
    | .refused r => .refused r

/-- The stereo outputs of successive PROC commands for a list of stereo inputs (R92). -/
def procOutputs : State → List (Word × Word) → List (Word × Word)
  | _, [] => []
  | s, (l, r) :: rest =>
    match exec .proc { s with opa := l, opb := r } with
    | .next t => (t.res0, t.res1) :: procOutputs t rest
    | .fault _ => []
    | .refused _ => []

/-- The delayed words a line gives while the values of a list are written to it, one a tick (R95). -/
def writeAll : Line → List Int → Line := List.foldl lineWrite

/-- The pre-delay line after the values of a list are pushed to it, one a tick, with the offset register `off` (R99). -/
def pushAll (off : Word) : Line → List Int → Line := List.foldl fun l v => (preDelay off l v).1

end Sys2Proof.Machine
end

