-- ==== Sys2Proof/Certificates/Slice0/Obligations.lean ====
section
/-! DEFINITION. The statements for the provers. Each docstring names the rule of spec/ it formalises. A next state is
written as a record update of the state before, so that every field not named is unchanged: that is the frame. -/

open Sys2Proof Sys2Proof.Machine

/-! ### Encoding (30_encoding.md) -/

/-- R54 to R58: `encode` and `decode` are inverse to each other, on words and on byte lanes (R43). -/
def Obligations.EncodeAndDecodeAreInverse : Prop :=
  (∀ i : Instr, i.WellFormed → decode (encode i) = .command i) ∧
  (∀ (i : Instr) (rest : List Byte), i.WellFormed → decodeBytes (lanesOf (encode i) ++ rest) = .command i) ∧
  (∀ (w : Word) (i : Instr), decode w = .command i → i.WellFormed ∧ encode i = w)

/-- R58: a word encodes a command exactly when it matches one row of the opcode map, no word matches two rows, and the
row it matches is the command's. -/
def Obligations.DecodeMatchesOneOpcodeRow : Prop :=
  (∀ w : Word, (∃ i, decode w = .command i) ↔ ∃ r, matchingRows w = [r]) ∧
  (∀ w : Word, (matchingRows w).length ≤ 1) ∧
  (∀ (w : Word) (i : Instr), decode w = .command i → (matchingRows w).map OpcodeRow.mnemonic = [i.mnemonic])

/-- R59, R60, R130: an illegal word raises IllegalCommand (2) and changes only ERR; a step whose event writes it to CMD does
just that, and takes the event. -/
def Obligations.IllegalWordRaisesOnlyErr : Prop :=
  ∀ (w : Word) (s : State),
    let op := w.toNat / 2 ^ 24
    let rsv := w.toNat / 2 ^ 16 % 2 ^ 8
    let id := w.toNat % 2 ^ 16
    ¬ (op ≤ 0x06 ∨ (0x10 ≤ op ∧ op ≤ 0x12) ∨ (0x20 ≤ op ∧ op ≤ 0x23)) ∨ rsv ≠ 0 ∨
      (op ≠ 0x10 ∧ op ≠ 0x11 ∧ id ≠ 0) →
    execute w s = .next { s with err := .illegalCommand } ∧
      ∀ (j : Bool) (rest : List PortEvent), s.port.rst = false → s.port.queue = .write 0x00#8 4 w j :: rest →
        step s = .next { popped s rest j with err := .illegalCommand }

/-- Sanity: words written out from the encodings of R58 decode to the commands they stand for. -/
def Obligations.WrittenWordsDecode : Prop :=
  decode 0x00000000#32 = .command .nop ∧ decode 0x03000000#32 = .command .mul ∧
  decode 0x1000FFFF#32 = .command (.pwrite 65535) ∧ decode 0x11000005#32 = .command (.preadc 5) ∧
  decode 0x22000000#32 = .command .proc

/-! ### The port, one step at a time (20_memory.md, 70_reset_and_hazards.md) -/

/-- R15, R42, R44: a step whose event writes to CMD a word that encodes the command `i` is `exec i`, on the state with
the event taken and the pin `inj` sampled. -/
def Obligations.StepRunsDecodedCommand : Prop :=
  ∀ (s : State) (w : Word) (j : Bool) (rest : List PortEvent) (i : Instr),
    s.port.rst = false → s.port.queue = .write 0x00#8 4 w j :: rest → decode w = .command i →
    step s = exec i (popped s rest j)

/-- R40, R42, R59: what a step does when its event is a bus access, through the meaning of one: every write, with the
command it runs if it is one of 4 bytes to CMD, which no other write is; every read, with the word it answers; and with no event
"it holds all its state unchanged and does nothing" (R144). -/
def Obligations.StepPerformsOneAccess : Prop :=
  (∀ (s : State) (off : BitVec 8) (size : Nat) (v : Word) (j : Bool) (rest : List PortEvent) (t : State),
    s.port.rst = false → s.port.queue = .write off size v j :: rest →
    busWrite off size v (popped s rest j) = .done t → step s = .next t) ∧
  (∀ (s : State) (off : BitVec 8) (size : Nat) (v w : Word) (j : Bool) (rest : List PortEvent),
    s.port.rst = false → s.port.queue = .write off size v j :: rest →
    busWrite off size v (popped s rest j) = .command w → step s = execute w (popped s rest j)) ∧
  (∀ (s : State) (off : BitVec 8) (size : Nat) (v w : Word),
    busWrite off size v s = .command w ↔ off = 0x00#8 ∧ size = 4 ∧ w = v) ∧
  (∀ (s : State) (off : BitVec 8) (size : Nat) (rest : List PortEvent),
    s.port.rst = false → s.port.queue = .read off size :: rest →
    step s = .next (reply (busRead off size (withQueue rest s)).2 (busRead off size (withQueue rest s)).1)) ∧
  (∀ (s : State) (off : BitVec 8) (size : Nat) (rest : List PortEvent) (r : Reg),
    s.port.rst = false → s.port.queue = .read off size :: rest → AccessWellFormed off size → regAt off = some r →
    step s = .next (answered s rest (readReg s r))) ∧
  (∀ s : State, s.port.queue = [] → step s = .next s)

/-- R21, R68, R127, R135: nothing stops the core. Every step from every state answers a next state. -/
def Obligations.EveryStepAnswersNext : Prop := ∀ s : State, ∃ t : State, step s = .next t

/-- R145: while `rst` is asserted a bus access changes nothing but that it is taken from the port; deasserting it gives
every piece of state its power-on value (the values R12, R16 and R34 list). That asserting `rst` changes only the pin is
the model's choice (assumption 7). -/
def Obligations.ResetInputRestoresPowerOnState : Prop :=
  (∀ (s : State) (e : PortEvent) (rest : List PortEvent), s.port.rst = true → s.port.queue = e :: rest →
    (∀ b, e ≠ .rst b) → step s = .next (withQueue rest s)) ∧
  (∀ (s : State) (rest : List PortEvent), s.port.queue = .rst true :: rest →
    step s = .next { s with port := { s.port with queue := rest, rst := true } }) ∧
  (∀ (s : State) (rest : List PortEvent), s.port.rst = true → s.port.queue = .rst false :: rest →
    ∃ t, step s = .next t ∧ t.port = { s.port with queue := rest, rst := false } ∧ t.build = s.build ∧
      (∀ r : Reg, readReg t r = if r = .rAtten then 0x00000E66#32 else 0#32) ∧
      t.life = .uninitialized ∧ t.err = .none ∧ (∀ k, readWord t.pool.mem k = 0#32) ∧ t.pool.cur = 0 ∧
      t.pipe.rvDcs = 0#32 ∧ t.pipe.dmpL = 0#32 ∧ t.pipe.dmpR = 0#32 ∧
      t.pipe.pd = { active := 0#32, widx := 0#32, buf := [] } ∧
      (∀ k : Fin 8, t.pipe.er[k] = { active := 0#32, widx := 0#32, buf := [] }) ∧
      (∀ k : Fin 4, t.pipe.comb[k] = { active := 0#32, widx := 0#32, buf := [] }) ∧
      (∀ k : Fin 2, t.pipe.ap[k] = { active := 0#32, widx := 0#32, buf := [] }))

/-- R48: a step takes exactly the port's first event, and answers at most one word; the build never changes (R6). -/
def Obligations.StepTakesOneEvent : Prop :=
  ∀ s t : State, step s = .next t →
    t.build = s.build ∧ t.port.queue = s.port.queue.tail ∧
    (t.port.replies = s.port.replies ∨
      ∃ (off : BitVec 8) (size : Nat) (w : Word), s.port.queue.head? = some (.read off size) ∧
        t.port.replies = s.port.replies ++ [w])

/-! ### Bus accesses (20_memory.md, 10_state.md, 60_exceptions.md) -/

/-- R37, R128: a malformed access raises BusError; a write changes nothing else, a read returns 0. That every size but 4 is
malformed, and not the sizes 1 and 2 alone that R37 names, is read from R128's "size ≠ 4" (assumption 11, DEDUCED). -/
def Obligations.MalformedAccessRaisesBusError : Prop :=
  ∀ (s : State) (off : BitVec 8) (size : Nat) (v : Word) (j : Bool) (rest : List PortEvent),
    s.port.rst = false → (size ≠ 4 ∨ off.toNat % 4 ≠ 0) →
    (s.port.queue = .write off size v j :: rest → step s = .next { popped s rest j with err := .busError }) ∧
    (s.port.queue = .read off size :: rest → step s = .next { answered s rest 0#32 with err := .busError })

/-- R38: a well-formed access to one of the unmapped offsets 0x4C to 0x7C, 0xBC and 0xFC raises BusError. -/
def Obligations.UnmappedAccessRaisesBusError : Prop :=
  ∀ (s : State) (off : BitVec 8) (v : Word) (j : Bool) (rest : List PortEvent),
    s.port.rst = false → off.toNat % 4 = 0 →
    ((0x4C ≤ off.toNat ∧ off.toNat ≤ 0x7C) ∨ off.toNat = 0xBC ∨ off.toNat = 0xFC) →
    (s.port.queue = .write off 4 v j :: rest → step s = .next { popped s rest j with err := .busError }) ∧
    (s.port.queue = .read off 4 :: rest → step s = .next { answered s rest 0#32 with err := .busError })

/-- R39: a well-formed write to RES0, RES1, POOL_CURSOR, LFO_PHASE, TAIL_LEVEL or R_ATTEN raises BusError and changes
nothing else. -/
def Obligations.ReadOnlyWriteRaisesBusError : Prop :=
  ∀ (s : State) (off : BitVec 8) (v : Word) (j : Bool) (rest : List PortEvent),
    s.port.rst = false → s.port.queue = .write off 4 v j :: rest →
    off.toNat ∈ [0x10, 0x14, 0x1C, 0x20, 0x24, 0x2C] →
    step s = .next { popped s rest j with err := .busError }

/-- R12: the offset map, with the offset of every register; an offset holds a register exactly when it is that register's
offset, and no two registers share one. -/
def Obligations.WindowHoldsEachRegisterOnce : Prop :=
  (regAt 0x00#8 = some .cmd ∧ regAt 0x04#8 = some .opa ∧ regAt 0x08#8 = some .opb ∧ regAt 0x0C#8 = some .opc ∧
    regAt 0x10#8 = some .res0 ∧ regAt 0x14#8 = some .res1 ∧ regAt 0x18#8 = some .status ∧
    regAt 0x1C#8 = some .poolCursor ∧ regAt 0x20#8 = some .lfoPhase ∧ regAt 0x24#8 = some .tailLevel ∧
    regAt 0x28#8 = some .dcs ∧ regAt 0x2C#8 = some .rAtten) ∧
  (∀ i : Fin 7, regAt (BitVec.ofNat 8 (0x30 + 4 * i.val)) = some (.param i)) ∧
  (∀ k : Fin 8, regAt (BitVec.ofNat 8 (0x80 + 4 * k.val)) = some (.erGain k)) ∧
  (regAt 0xA0#8 = some .combFb ∧ regAt 0xA4#8 = some .apCoef ∧ regAt 0xA8#8 = some .dampA ∧
    regAt 0xAC#8 = some .dampB ∧ regAt 0xB0#8 = some .mixWet ∧ regAt 0xB4#8 = some .mixDry ∧
    regAt 0xB8#8 = some .pdOffset ∧ regAt 0xC0#8 = some .pdLen) ∧
  (∀ k : Fin 8, regAt (BitVec.ofNat 8 (0xC4 + 4 * k.val)) = some (.erLen k)) ∧
  (∀ k : Fin 4, regAt (BitVec.ofNat 8 (0xE4 + 4 * k.val)) = some (.combLen k)) ∧
  (∀ k : Fin 2, regAt (BitVec.ofNat 8 (0xF4 + 4 * k.val)) = some (.apLen k)) ∧
  (∀ (off : BitVec 8) (r : Reg), regAt off = some r ↔ off.toNat = regOffset r) ∧
  (∀ r r' : Reg, regOffset r = regOffset r' → r = r')

/-- R12, R41: a write to a read-write register other than PARAM stores the word unchanged in the register of that offset, the
one the commands read, and has no other effect: every other register reads as before, and the hidden state is unchanged. -/
def Obligations.RegisterWriteStoresWordUnchanged : Prop :=
  (∀ (s : State) (r : Reg) (v : Word), accessCode r = .rw → (∀ i, r ≠ .param i) →
    ∃ t, busWrite (BitVec.ofNat 8 (regOffset r)) 4 v s = .done t ∧ readReg t r = v ∧
      (∀ r' : Reg, r' ≠ r → readReg t r' = readReg s r') ∧
      t.pipe = s.pipe ∧ t.pool = s.pool ∧ t.port = s.port ∧ t.build = s.build) ∧
  (∀ (s : State) (v : Word),
    busWrite 0x04#8 4 v s = .done { s with opa := v } ∧ busWrite 0x08#8 4 v s = .done { s with opb := v } ∧
    busWrite 0x0C#8 4 v s = .done { s with opc := v } ∧ busWrite 0x28#8 4 v s = .done { s with dcs := v } ∧
    (∀ k : Fin 8, busWrite (BitVec.ofNat 8 (0x80 + 4 * k.val)) 4 v s =
      .done { s with coef := { s.coef with erGain := s.coef.erGain.set k v } }) ∧
    busWrite 0xA0#8 4 v s = .done { s with coef := { s.coef with combFb := v } } ∧
    busWrite 0xA4#8 4 v s = .done { s with coef := { s.coef with apCoef := v } } ∧
    busWrite 0xA8#8 4 v s = .done { s with coef := { s.coef with dampA := v } } ∧
    busWrite 0xAC#8 4 v s = .done { s with coef := { s.coef with dampB := v } } ∧
    busWrite 0xB0#8 4 v s = .done { s with coef := { s.coef with mixWet := v } } ∧
    busWrite 0xB4#8 4 v s = .done { s with coef := { s.coef with mixDry := v } } ∧
    busWrite 0xB8#8 4 v s = .done { s with coef := { s.coef with pdOffset := v } } ∧
    busWrite 0xC0#8 4 v s = .done { s with staged := { s.staged with pd := v } } ∧
    (∀ k : Fin 8, busWrite (BitVec.ofNat 8 (0xC4 + 4 * k.val)) 4 v s =
      .done { s with staged := { s.staged with er := s.staged.er.set k v } }) ∧
    (∀ k : Fin 4, busWrite (BitVec.ofNat 8 (0xE4 + 4 * k.val)) 4 v s =
      .done { s with staged := { s.staged with comb := s.staged.comb.set k v } }) ∧
    (∀ k : Fin 2, busWrite (BitVec.ofNat 8 (0xF4 + 4 * k.val)) 4 v s =
      .done { s with staged := { s.staged with ap := s.staged.ap.set k v } }))

/-- R111: a write to PARAM[i] is never refused and stores the clamped word: a NaN and everything below 0 gives +0.0,
everything above 1.0 gives 1.0, and a word in [0, 1], and -0.0, is kept; every other register is unchanged. -/
def Obligations.ParamWriteClampsToUnitInterval : Prop :=
  ∀ (s : State) (i : Fin 7) (v : Word),
    let kept := v.toNat ≤ 0x3F800000 ∨ v = 0x80000000#32
    let above := 0x3F800000 < v.toNat ∧ v.toNat ≤ 0x7F800000
    let w : Word := if kept then v else if above then 0x3F800000#32 else 0x00000000#32
    busWrite (BitVec.ofNat 8 (0x30 + 4 * i.val)) 4 v s = .done { s with param := s.param.set i w } ∧
      readReg { s with param := s.param.set i w } (.param i) = w

/-- R16: the fields of STATUS, and a write to STATUS: it sets ERR to 0 whatever the word, and changes no other field. -/
def Obligations.StatusFieldsAndClear : Prop :=
  (∀ s : State, (readReg s .status).toNat =
    s.ovf.toNat + 2 * s.cont.toNat + 4 * s.povf.toNat +
      16 * (match s.life with | .uninitialized => 0 | .prepared => 1 | .processing => 2) +
      256 * (match s.err with | .none => 0 | .allocFail => 1 | .illegalCommand => 2 | .busError => 3)) ∧
  (∀ (s : State) (v : Word), busWrite 0x18#8 4 v s = .done { s with err := .none })

/-- R12, R22, R26, R40: a read of a mapped offset returns the register of that offset, the one the commands read and write (CMD
reads 0, R_ATTEN 0xE66, POOL_CURSOR the cursor; STATUS has a statement of its own), and changes no state of the core: only the
port's queue and record of answers differ, and a second read returns the same word. That POOL_CURSOR reads the cursor modulo
2^32 in a state whose cursor does not fit 32 bits is the model's choice, not R22's words (assumption 13, DESIGN CHOICE). -/
def Obligations.MappedReadChangesNoState : Prop :=
  (∀ (s : State) (off : BitVec 8) (rest : List PortEvent) (r : Reg),
    s.port.rst = false → s.port.queue = .read off 4 :: .read off 4 :: rest → off.toNat = regOffset r →
    ∃ w, stepMany 2 s =
        .next { s with port := { s.port with queue := rest, replies := s.port.replies ++ [w, w] } } ∧
      w = readReg s r ∧
      (r = .cmd → w = 0#32) ∧ (r = .poolCursor → poolLen s.build ≤ 2 ^ 32 → Inv s → w.toNat = s.pool.cur)) ∧
  (∀ s : State,
    busRead 0x00#8 4 s = (s, 0#32) ∧ busRead 0x04#8 4 s = (s, s.opa) ∧ busRead 0x08#8 4 s = (s, s.opb) ∧
    busRead 0x0C#8 4 s = (s, s.opc) ∧ busRead 0x10#8 4 s = (s, s.res0) ∧ busRead 0x14#8 4 s = (s, s.res1) ∧
    busRead 0x18#8 4 s = (s, readReg s .status) ∧ busRead 0x1C#8 4 s = (s, BitVec.ofNat 32 s.pool.cur) ∧
    busRead 0x20#8 4 s = (s, s.lfoPhase) ∧ busRead 0x24#8 4 s = (s, s.tailLevel) ∧ busRead 0x28#8 4 s = (s, s.dcs) ∧
    busRead 0x2C#8 4 s = (s, 0x00000E66#32) ∧
    (∀ i : Fin 7, busRead (BitVec.ofNat 8 (0x30 + 4 * i.val)) 4 s = (s, s.param[i])) ∧
    (∀ k : Fin 8, busRead (BitVec.ofNat 8 (0x80 + 4 * k.val)) 4 s = (s, s.coef.erGain[k])) ∧
    busRead 0xA0#8 4 s = (s, s.coef.combFb) ∧ busRead 0xA4#8 4 s = (s, s.coef.apCoef) ∧
    busRead 0xA8#8 4 s = (s, s.coef.dampA) ∧ busRead 0xAC#8 4 s = (s, s.coef.dampB) ∧
    busRead 0xB0#8 4 s = (s, s.coef.mixWet) ∧ busRead 0xB4#8 4 s = (s, s.coef.mixDry) ∧
    busRead 0xB8#8 4 s = (s, s.coef.pdOffset) ∧ busRead 0xC0#8 4 s = (s, s.staged.pd) ∧
    (∀ k : Fin 8, busRead (BitVec.ofNat 8 (0xC4 + 4 * k.val)) 4 s = (s, s.staged.er[k])) ∧
    (∀ k : Fin 4, busRead (BitVec.ofNat 8 (0xE4 + 4 * k.val)) 4 s = (s, s.staged.comb[k])) ∧
    (∀ k : Fin 2, busRead (BitVec.ofNat 8 (0xF4 + 4 * k.val)) 4 s = (s, s.staged.ap[k])))

/-- R113: seven words written to PARAM[0..6] and read back are the clamped words, whatever was there before. -/
def Obligations.PresetReadsBackClamped : Prop :=
  ∀ (s : State) (v : Vector Word 7) (rest : List PortEvent),
    s.port.rst = false → s.port.queue = expandAll (setParams v ++ getParams) ++ rest →
    ∃ t, stepMany 14 s = .next t ∧ t.port.queue = rest ∧
      t.port.replies = s.port.replies ++ v.toList.map pclamp

/-- R57, R61, R62: the accesses of a pseudo-instruction of one, two or three operands run the command on the operands it
names; a bare mnemonic runs its command; and CMD, SET of a register other than CMD, GET and CLRERR perform the one access
R61 and R62 give each. (SET CMD is assumption 17's; a write to CMD, at either level of `inj`, has statements of its own.) -/
def Obligations.PseudoInstructionSetsOperandsThenRuns : Prop :=
  ∀ (s : State) (rest : List PortEvent), s.port.rst = false →
    (∀ (i : Instr) (j : Bool), i.WellFormed → s.port.queue = expand (.bare i j) ++ rest →
      stepMany 1 s = exec i (popped s rest j)) ∧
    (∀ (i : Instr) (a : Word) (j : Bool), i.WellFormed → s.port.queue = expand (.one i a j) ++ rest →
      stepMany 2 s = exec i { popped s rest j with opa := a }) ∧
    (∀ (i : Instr) (a b : Word) (j : Bool), i.WellFormed → s.port.queue = expand (.two i a b j) ++ rest →
      stepMany 3 s = exec i { popped s rest j with opa := a, opb := b }) ∧
    (∀ (i : Instr) (a b c : Word) (j : Bool), i.WellFormed → s.port.queue = expand (.three i a b c j) ++ rest →
      stepMany 4 s = exec i { popped s rest j with opa := a, opb := b, opc := c }) ∧
    (∀ (w : Word) (j : Bool), s.port.queue = expand (.cmd w j) ++ rest →
      stepMany 1 s = execute w (popped s rest j)) ∧
    (∀ (r : Reg) (v : Word) (t : State), s.port.queue = expand (.set r v) ++ rest →
      busWrite (BitVec.ofNat 8 (regOffset r)) 4 v (popped s rest false) = .done t → stepMany 1 s = .next t) ∧
    (∀ r : Reg, s.port.queue = expand (.get r) ++ rest → stepMany 1 s = .next (answered s rest (readReg s r))) ∧
    (s.port.queue = expand .clrerr ++ rest → stepMany 1 s = .next { popped s rest false with err := .none })

/-! ### Floating point (00_scope.md R10) -/

/-- R10: rounding is to nearest, ties to even, for every exact magnitude. -/
def Obligations.RoundingIsToNearestEven : Prop :=
  ∀ (f : FFmt) (m j : Nat), f = binary32 ∨ f = binary64 → NearestEven f m j (roundMag f m j)

/-- R10: on finite operands `fadd`, `fsub` and `fmul` give the exact result rounded to nearest even, or an infinity from
2^128 = 2^277 units on. The signs of the zeros are the model's presumption (assumption 9, PRESUMED: those of IEEE 754, which R10
names and does not spell out): a zero sum is +0 unless both operands are -0, a zero product has the sign of the two signs. -/
def Obligations.FloatOperationsRoundExactResult : Prop :=
  ∀ (a b : Word) (sa sb : Bool) (ma mb : Nat), unpack32 a = .fin sa ma → unpack32 b = .fin sb mb →
    (∃ r, NearestEven binary32 (signed sa ma + signed sb mb).natAbs 0 r ∧
      unpack32 (fadd a b) =
        let neg := if signed sa ma + signed sb mb = 0 then sa && sb else decide (signed sa ma + signed sb mb < 0)
        if 2 ^ 277 ≤ r then .inf neg else .fin neg r) ∧
    (∃ r, NearestEven binary32 (ma * mb) 149 r ∧
      unpack32 (fmul a b) = if 2 ^ 277 ≤ r then .inf (sa != sb) else .fin (sa != sb) r) ∧
    fsub a b = fadd a (b ^^^ 0x80000000#32)

/-- R10: a float is a pattern: reading a pattern and writing its value back gives the pattern again, for every pattern
that is not a NaN, and every pattern of a NaN reads as NaN. -/
def Obligations.PatternsRoundTrip : Prop :=
  (∀ w n : Word, unpack32 w ≠ .nan → pack32 n (unpack32 w) = w) ∧
  (∀ w : Word, unpack32 w = .nan ↔ 0x7F800000 < w.toNat % 2 ^ 31)

/-! ### FixedPointUnit commands (40_fixed_point.md) -/

/-- R70: TOFIX. The value of a finite pattern is `sig * 2^(max e 1 - 150)`, so 4096 times it is `sig * 2^(max e 1) / 2^138`. -/
def Obligations.TofixTruncatesAndClamps : Prop :=
  decode 0x01000000#32 = .command .tofix ∧
  ∀ s : State,
    let neg := s.opa.getLsbD 31
    let e := s.opa.toNat / 2 ^ 23 % 2 ^ 8
    let frac := s.opa.toNat % 2 ^ 23
    let sig := if e = 0 then frac else 2 ^ 23 + frac
    let mag : Int := ((sig * 2 ^ max e 1 / 2 ^ 138 : Nat) : Int)
    let q : Int :=
      if e = 255 then (if frac ≠ 0 then 0 else if neg then -524288 else 524287)
      else toDomain (if neg then -mag else mag)
    exec .tofix s = .next { s with res0 := w32 q }

/-- R71: TOFLT writes the binary32 value nearest `s32(OPA) / 4096`, ties to even; it is exact for a magnitude below 2^24,
+0.0 for 0, and never a NaN or an infinity. -/
def Obligations.TofltRoundsToNearestEven : Prop :=
  decode 0x02000000#32 = .command .toflt ∧
  ∀ s : State, ∃ (w : Word) (r : Nat),
    exec .toflt s = .next { s with res0 := w } ∧ unpack32 w = .fin (decide (s32 s.opa < 0)) r ∧
      NearestEven binary32 ((s32 s.opa).natAbs * 2 ^ 137) 0 r ∧
      ((s32 s.opa).natAbs < 2 ^ 24 → r = (s32 s.opa).natAbs * 2 ^ 137) ∧ (s32 s.opa = 0 → w = 0#32)

/-- R72: MUL. The exact product is floored after the division by 4096, and OVF says whether that lies outside the domain. -/
def Obligations.MulWritesSaturatedProduct : Prop :=
  decode 0x03000000#32 = .command .mul ∧
  ∀ s : State,
    let p := (s32 s.opa * s32 s.opb).fdiv 4096
    exec .mul s = .next { s with res0 := w32 (toDomain p), ovf := outsideDomain p }

/-- R73: MAC. The floor is of the product alone; the addend is not clamped. -/
def Obligations.MacWritesSaturatedSum : Prop :=
  decode 0x04000000#32 = .command .mac ∧
  ∀ s : State,
    let p := (s32 s.opa * s32 s.opb).fdiv 4096 + s32 s.opc
    exec .mac s = .next { s with res0 := w32 (toDomain p), ovf := outsideDomain p }

/-- R74: ADD, and "For every a and b, ADD(a, b) gives the same RES0 and OVF as MAC(a, 4096, b)". -/
def Obligations.AddWritesSaturatedSum : Prop :=
  decode 0x05000000#32 = .command .add ∧
  (∀ s : State,
    let p := s32 s.opa + s32 s.opb
    exec .add s = .next { s with res0 := w32 (toDomain p), ovf := outsideDomain p }) ∧
  (∀ s : State, ∃ r o,
    exec .add s = .next { s with res0 := r, ovf := o } ∧
    exec .mac { s with opb := 4096#32, opc := s.opb } = .next { s with opb := 4096#32, opc := s.opb, res0 := r, ovf := o })

/-- R64: every fixed-point result of TOFIX, MUL, MAC, ADD and DCBLK lies in [-524288, 524287], for all operands, and each
of these commands completes. -/
def Obligations.FixedPointResultsAreClamped : Prop :=
  ∀ (s : State) (i : Instr), i ∈ [Instr.tofix, .mul, .mac, .add, .dcblk] →
    ∃ t, exec i s = .next t ∧ Clamped t.res0

/-- R75: DCBLK, with the binary32 evaluation in the order of the rule; a NaN or infinite state gives 0, and with DCS =
+0.0 an input of the domain comes out unchanged. -/
def Obligations.DcblkFollowsFormula : Prop :=
  decode 0x06000000#32 = .command .dcblk ∧
  (∀ s : State,
    let xf := toFloat (s32 s.opa)
    let y := fadd (fsub xf s.dcs) (fmul k999 s.dcs)
    exec .dcblk s = .next { s with res0 := w32 (toFixedF y), dcs := xf }) ∧
  (∀ s : State, 0x7F800000 ≤ s.dcs.toNat % 2 ^ 31 →
    exec .dcblk s = .next { s with res0 := 0#32, dcs := toFloat (s32 s.opa) }) ∧
  (∀ s : State, s.dcs = 0#32 → Clamped s.opa →
    exec .dcblk s = .next { s with res0 := s.opa, dcs := toFloat (s32 s.opa) })

/-- R76: for every f in the Q12-representable range, toFloat(toFixed(f)) differs from f by less than 1/4096, which is
2^137 units; and every clamped sample survives the way to a float and back. -/
def Obligations.FixedPointRoundTripWithinOneStep : Prop :=
  (∀ (f : Word) (z : Int), HasUnits f z → -524288 * 2 ^ 137 ≤ z → z ≤ 524287 * 2 ^ 137 →
    ∃ y, HasUnits (toFloat (toFixedF f)) y ∧ (y - z).natAbs < 2 ^ 137) ∧
  (∀ n : Int, -524288 ≤ n → n ≤ 524287 → toFixedF (toFloat n) = n)

/-! ### DelayPool commands (41_delay_pool.md) -/

/-- R77: POOL_LEN is the smallest power of two that is at least max(1, POOL_REQ). -/
def Obligations.PoolLengthIsSmallestPowerOfTwo : Prop :=
  ∀ b : Build, (∃ k, poolLen b = 2 ^ k) ∧ max 1 b.poolReq ≤ poolLen b ∧
    ∀ k, max 1 b.poolReq ≤ 2 ^ k → poolLen b ≤ 2 ^ k

/-- R79: PWRITE stores OPA unclamped at the cursor, advances the cursor, flips bit 0 of the word at the NEW cursor when
the draw is 1, and changes nothing else; the producerId has no effect. -/
def Obligations.PwriteStoresThenMayFlip : Prop :=
  (∀ id, id < 2 ^ 16 → decode (0x10000000#32 + BitVec.ofNat 32 id) = .command (.pwrite id)) ∧
  ∀ (s : State) (id : Nat), Memory.wf s.pool.mem →
    let cur' := (s.pool.cur + 1) % poolLen s.build
    let stored := fun i => if i = s.pool.cur then s.opa else readWord s.pool.mem i
    (∃ m, exec (.pwrite id) s = .next { s with pool := { mem := m, cur := cur' } } ∧
      ∀ i, readWord m i = if s.port.inj = true ∧ i = cur' then stored i ^^^ 1#32 else stored i) ∧
    ∀ id', exec (.pwrite id') s = exec (.pwrite id) s

/-- R81, R83: PREADC reads the word `eff` behind the cursor, an index inside the pool, and reports contention; it
changes RES0 and CONT alone. Offsets 0, 1 and 2 all read at offset 1 when contended. -/
def Obligations.PreadcReadsBehindCursor : Prop :=
  (∀ id, id < 2 ^ 16 → decode (0x11000000#32 + BitVec.ofNat 32 id) = .command (.preadc id)) ∧
  ∀ (s : State) (id : Nat),
    let c := decide (s.pool.cur % 4 ≠ id % 4)
    let off := s.opa.toNat
    let eff := if c then (if off ≤ 2 then 1 else off - 1) else off
    ∃ idx, idx < poolLen s.build ∧ (idx + eff) % poolLen s.build = s.pool.cur % poolLen s.build ∧
      exec (.preadc id) s = .next { s with res0 := readWord s.pool.mem idx, cont := c }

/-- R79, R81: "Offset 1 reads the word written by the most recent PWRITE": any consumer, contended or not, any 32-bit
pattern, and either draw, in a pool of more than one word. -/
def Obligations.OffsetOneReadsLastWrite : Prop :=
  ∀ (s : State) (p c : Nat), Inv s → 1 < poolLen s.build →
    ∃ t u, exec (.pwrite p) s = .next t ∧ exec (.preadc c) { t with opa := 1#32 } = .next u ∧ u.res0 = s.opa

/-- R82: PRESET zero-fills the pool and sets the cursor to 0; no other state changes. -/
def Obligations.PresetZeroesPool : Prop :=
  decode 0x12000000#32 = .command .preset ∧
  ∀ s : State, ∃ m, exec .preset s = .next { s with pool := { mem := m, cur := 0 } } ∧ ∀ i, readWord m i = 0#32

/-! ### ReverbEngine control commands (42_reverb_control.md) -/

/-- R87: NOP has no effect. -/
def Obligations.NopChangesNothing : Prop :=
  decode 0x00000000#32 = .command .nop ∧ ∀ s : State, exec .nop s = .next s

/-- R88: when every staged buffer fits its capacity, PREPARE latches the lengths, clears the pipeline and sets STATE to 1;
when one does not, it raises AllocFail and changes nothing else. -/
def Obligations.PrepareLatchesOrFails : Prop :=
  decode 0x20000000#32 = .command .prepare ∧
  ∀ s : State,
    let fits := u32 s.staged.pd ≤ s.build.capPd ∧
      (∀ k : Fin 8, u32 s.staged.er[k] ≠ 0 → u32 s.staged.er[k] + 1 ≤ s.build.capEr) ∧
      (∀ k : Fin 4, u32 s.staged.comb[k] ≠ 0 → u32 s.staged.comb[k] + 1 ≤ s.build.capComb) ∧
      (∀ k : Fin 2, u32 s.staged.ap[k] ≠ 0 → u32 s.staged.ap[k] + 1 ≤ s.build.capAp)
    (fits → exec .prepare s = .next { s with
      pipe := { pd := ⟨s.staged.pd, 0#32, []⟩, er := Vector.ofFn fun k => ⟨s.staged.er[k], 0#32, []⟩,
                comb := Vector.ofFn fun k => ⟨s.staged.comb[k], 0#32, []⟩,
                ap := Vector.ofFn fun k => ⟨s.staged.ap[k], 0#32, []⟩, rvDcs := 0#32, dmpL := 0#32, dmpR := 0#32 },
      lfoPhase := 0#32, tailLevel := 0#32, life := .prepared }) ∧
    (¬ fits → exec .prepare s = .next { s with err := .allocFail })

/-- R86, R89: RRESET clears every line's words and write index, RV_DCS, the accumulators, LFO_PHASE and TAIL_LEVEL, turns
STATE 2 into 1, and leaves the active lengths and everything else. -/
def Obligations.RresetClearsPipeline : Prop :=
  decode 0x21000000#32 = .command .rreset ∧
  ∀ s : State, exec .rreset s = .next { s with
      pipe := { pd := ⟨s.pipe.pd.active, 0#32, []⟩, er := Vector.ofFn fun k => ⟨s.pipe.er[k].active, 0#32, []⟩,
                comb := Vector.ofFn fun k => ⟨s.pipe.comb[k].active, 0#32, []⟩,
                ap := Vector.ofFn fun k => ⟨s.pipe.ap[k].active, 0#32, []⟩, rvDcs := 0#32, dmpL := 0#32, dmpR := 0#32 },
      lfoPhase := 0#32, tailLevel := 0#32,
      life := if s.life = .processing then .prepared else s.life }

/-- R90, R23: from a phase in [0, KTWOPI) UPDMOD adds K005, subtracts KTWOPI once if the sum reaches it, and the new phase
is in [0, KTWOPI) again; nothing else changes, whatever OPA holds. For non-negative floats, the order of the values is
the order of the patterns. -/
def Obligations.UpdmodAdvancesPhaseAndWraps : Prop :=
  decode 0x23000000#32 = .command .updmod ∧
  (∀ s : State, ∃ w, exec .updmod s = .next { s with lfoPhase := w }) ∧
  ∀ s : State, s.lfoPhase.toNat < 0x40C90FDB →
    let p := fadd s.lfoPhase 0x3D4CCCCD#32
    let w := if 0x40C90FDB ≤ p.toNat then fsub p 0x40C90FDB#32 else p
    exec .updmod s = .next { s with lfoPhase := w } ∧ w.toNat < 0x40C90FDB

/-- R86, R88, R89, R92: take two cores with the same active lengths and coefficient registers, one just reset by RRESET
and the other just prepared by PREPARE: they hold the same pipeline state, and the same inputs give the same outputs, for every sequence of inputs. -/
def Obligations.ResetIsIdempotentWithPrepare : Prop :=
  ∀ s u : State, lengthsFit u.build u.staged = true → s.coef = u.coef →
    s.pipe.pd.active = u.staged.pd → (∀ k : Fin 8, s.pipe.er[k].active = u.staged.er[k]) →
    (∀ k : Fin 4, s.pipe.comb[k].active = u.staged.comb[k]) → (∀ k : Fin 2, s.pipe.ap[k].active = u.staged.ap[k]) →
    ∃ s' u', exec .rreset s = .next s' ∧ exec .prepare u = .next u' ∧
      s'.pipe = u'.pipe ∧ s'.lfoPhase = u'.lfoPhase ∧ s'.tailLevel = u'.tailLevel ∧
      ∀ inputs : List (Word × Word), procOutputs s' inputs = procOutputs u' inputs ∧
        (procOutputs s' inputs).length = inputs.length

/-! ### The per-sample pipeline (43_reverb_process.md) -/

/-- R108: PROC completes from every state; its results are those of the ten steps in order, STATE becomes 2 when it is
not 0, and OVF, CONT, the pool, LFO_PHASE and every register but RES0, RES1 and TAIL_LEVEL are unchanged. -/
def Obligations.ProcRunsTheTenSteps : Prop :=
  decode 0x22000000#32 = .command .proc ∧
  ∀ s : State,
    let c := s.coef
    let p := s.pipe
    let lq := toFixedF s.opa
    let rq := toFixedF s.opb
    let mono := (lq + rq).tdiv 2
    let dc := toFixedF (fadd (fsub (toFloat mono) p.rvDcs) (fmul k999 p.rvDcs))
    let pd := preDelay c.pdOffset p.pd dc
    let er := bank p.er c.erGain pd.2
    let cb := bank p.comb #v[c.combFb, c.combFb, c.combFb, c.combFb] er.value
    let a0 := allpassStage (s32 c.apCoef) p.ap[0] cb.value
    let a1 := allpassStage (s32 c.apCoef) p.ap[1] a0.run
    let dl := macq a1.run (s32 c.dampB) (mulq (s32 p.dmpL) (s32 c.dampA)).value
    let dr := macq a1.run (s32 c.dampB) (mulq (s32 p.dmpR) (s32 c.dampA)).value
    let wr := mulq dr.value 3686
    let ul := mulq dl.value (s32 c.mixWet)
    let ur := mulq wr.value (s32 c.mixWet)
    let outL := macq lq (s32 c.mixDry) ul.value
    let outR := macq rq (s32 c.mixDry) ur.value
    exec .proc s = .next { s with
      pipe := { pd := pd.1, er := er.lines, comb := cb.lines, ap := #v[a0.line, a1.line], rvDcs := toFloat mono,
                dmpL := w32 dl.value, dmpR := w32 dr.value },
      res0 := toFloat outL.value, res1 := toFloat outR.value,
      tailLevel := tailStep s.tailLevel a1.run,
      povf := er.ov || cb.ov || a0.ov || a1.ov || (mulq (s32 p.dmpL) (s32 c.dampA)).ov || dl.ov ||
        (mulq (s32 p.dmpR) (s32 c.dampA)).ov || dr.ov || wr.ov || ul.ov || outL.ov || ur.ov || outR.ov,
      life := if s.life = .uninitialized then .uninitialized else .processing }

/-- R106: the tail level on patterns, in the order of the rule, for every level that is no NaN and every allpass output
of the 20-bit domain. -/
def Obligations.TailLevelFollowsFormula : Prop :=
  ∀ (level : Word) (ap : Int), unpack32 level ≠ .nan → -524288 ≤ ap → ap ≤ 524287 →
    tailStep level ap = fadd (fmul level k999) (fmul (fabs (toFloat ap)) k001)

/-- R94, R95, R96: a bank. An inactive line is untouched; an active one reads the word at `(w + 1) mod N`, writes
`y = sat((d * g >>a 12) + x)` at `w` and advances; the value is the truncated average of the y's of the active lines, or
the input when none is active; the overflow output is set exactly when some active line overflows. -/
def Obligations.BankStepsEachLineAndAverages : Prop :=
  ∀ (n : Nat) (lines : Vector Line n) (gains : Vector Word n) (x : Int),
    let on := fun k : Fin n => u32 lines[k].active ≠ 0
    let size := fun k : Fin n => u32 lines[k].active + 1
    let sum := fun k : Fin n =>
      (s32 (readWord lines[k].buf ((u32 lines[k].widx + 1) % size k)) * s32 gains[k]).fdiv 4096 + x
    let active := (List.finRange n).filter fun k => decide (on k)
    (∀ k : Fin n, ¬ on k → (bank lines gains x).lines[k] = lines[k]) ∧
    (∀ k : Fin n, on k → (bank lines gains x).lines[k] =
      { active := lines[k].active, widx := BitVec.ofNat 32 ((u32 lines[k].widx + 1) % size k),
        buf := writeWord lines[k].buf (u32 lines[k].widx) (w32 (toDomain (sum k))) }) ∧
    (active = [] → (bank lines gains x).value = x) ∧
    (active ≠ [] → (bank lines gains x).value =
      ((active.map fun k => toDomain (sum k)).sum).tdiv active.length) ∧
    ((bank lines gains x).ov = true ↔ ∃ k : Fin n, on k ∧ outsideDomain (sum k) = true)

/-- R102: an active allpass stage puts out `d - c*run` and feeds back `run + c*d`, each one saturated MAC of the same old
`run` and `d`, with `-c` formed exactly; an inactive one passes `run` through. -/
def Obligations.AllpassStageFeedsForwardAndBack : Prop :=
  ∀ (l : Line) (c : Word) (run : Int),
    let d := s32 (readWord l.buf ((u32 l.widx + 1) % (u32 l.active + 1)))
    let out := (run * -(s32 c)).fdiv 4096 + d
    let fb := (d * s32 c).fdiv 4096 + run
    (u32 l.active = 0 → allpassStage (s32 c) l run = { line := l, run := run, ov := false }) ∧
    (u32 l.active ≠ 0 → allpassStage (s32 c) l run =
      { line := { active := l.active, widx := BitVec.ofNat 32 ((u32 l.widx + 1) % (u32 l.active + 1)),
                  buf := writeWord l.buf (u32 l.widx) (w32 (toDomain fb)) },
        run := toDomain out, ov := outsideDomain out || outsideDomain fb })

/-- R95: "the line delays by exactly L samples": a sample written to a line is what the line reads L ticks later, when
L - 1 further samples have been written. -/
def Obligations.LineDelaysByItsLength : Prop :=
  ∀ (l : Line) (v : Int) (vs : List Int),
    Memory.wf l.buf → u32 l.widx ≤ u32 l.active → -2 ^ 31 ≤ v → v < 2 ^ 31 → vs.length + 1 = u32 l.active →
    lineRead (writeAll (lineWrite l v) vs) = v

/-- R99: the pre-delay. With A_PD = 0 it is bypassed; an offset that is 0 modulo N gives no delay; an offset of `off`,
1 ≤ off < N after reduction, gives the sample pushed `off` ticks before. -/
def Obligations.PreDelayDelaysByOffset : Prop :=
  ∀ (l : Line) (offset : Word) (v : Int) (vs : List Int) (x : Int),
    Memory.wf l.buf → -2 ^ 31 ≤ v → v < 2 ^ 31 → -2 ^ 31 ≤ x → x < 2 ^ 31 →
    (u32 l.active = 0 → preDelay offset l x = (l, x)) ∧
    (u32 l.widx < u32 l.active → u32 offset % u32 l.active = 0 → (preDelay offset l x).2 = x) ∧
    (u32 l.widx < u32 l.active → vs.length + 1 = u32 offset % u32 l.active →
      (preDelay offset (pushAll offset l (v :: vs)) x).2 = v)

/-- R103: the two accumulators stay equal once they are equal. -/
def Obligations.DampingAccumulatorsStayEqual : Prop :=
  ∀ s : State, s.pipe.dmpL = s.pipe.dmpR → ∃ t, exec .proc s = .next t ∧ t.pipe.dmpL = t.pipe.dmpR

/-- R109: with MIX_WET = 0 and MIX_DRY = 4096 each output is toFloat(toFixedF(input)) of its own channel, and for an
input f with |f| < 128 it is within 1/4096 of f. -/
def Obligations.DryMixReproducesInput : Prop :=
  ∀ s : State, s.coef.mixWet = 0#32 → s.coef.mixDry = 4096#32 →
    ∃ t, exec .proc s = .next t ∧ t.res0 = toFloat (toFixedF s.opa) ∧ t.res1 = toFloat (toFixedF s.opb) ∧
      (∀ z, HasUnits s.opa z → z.natAbs < 128 * 2 ^ 149 → ∃ y, HasUnits t.res0 y ∧ (y - z).natAbs < 2 ^ 137) ∧
      (∀ z, HasUnits s.opb z → z.natAbs < 128 * 2 ^ 149 → ∃ y, HasUnits t.res1 y ∧ (y - z).natAbs < 2 ^ 137)

/-- R110: every RES0 and RES1 that PROC writes is a finite binary32 in [-128.0, 127.999755859375], which is -524288 to
524287 steps of 2^137 units. -/
def Obligations.ProcOutputsAreFiniteAndBounded : Prop :=
  ∀ s : State, ∃ t, exec .proc s = .next t ∧
    (∃ z, HasUnits t.res0 z ∧ -524288 * 2 ^ 137 ≤ z ∧ z ≤ 524287 * 2 ^ 137) ∧
    (∃ z, HasUnits t.res1 z ∧ -524288 * 2 ^ 137 ≤ z ∧ z ≤ 524287 * 2 ^ 137)

/-- R108, R147: with every line inactive the pipeline passes the DC block's output through to the damping, and with
every coefficient register 0 both outputs are +0.0 for every input. -/
def Obligations.ProcBeforePrepareIsSilent : Prop :=
  ∀ s : State, s.coef = Coeffs.reset → u32 s.pipe.pd.active = 0 →
    (∀ k : Fin 8, u32 s.pipe.er[k].active = 0) → (∀ k : Fin 4, u32 s.pipe.comb[k].active = 0) →
    (∀ k : Fin 2, u32 s.pipe.ap[k].active = 0) →
    let mono := (toFixedF s.opa + toFixedF s.opb).tdiv 2
    ∃ t, exec .proc s = .next t ∧ t.res0 = 0#32 ∧ t.res1 = 0#32 ∧ t.povf = false ∧
      t.pipe = { s.pipe with rvDcs := toFloat mono, dmpL := 0#32, dmpR := 0#32 } ∧
      t.tailLevel = tailStep s.tailLevel (dcBlock mono s.pipe.rvDcs)

/-- The model's own bound on what R106 computes: TAIL_LEVEL stays a finite non-negative float of at most 129.0
(0x43010000), so the free NaN pattern (assumption 3) never reaches it. -/
def Obligations.TailLevelStaysFinite : Prop :=
  ∀ s : State, Inv s → s.tailLevel.toNat ≤ 0x43010000 →
    ∃ t, exec .proc s = .next t ∧ t.tailLevel.toNat ≤ 0x43010000

/-- R20, R36, R91, R112, R147: no output of PROC depends on PARAM, LFO_PHASE, TAIL_LEVEL, STATE, a flag, ERR, DCS, the pool,
the staged lengths or a result register: cores that agree on the coefficient registers and the pipeline give the same
outputs for every sequence of inputs. -/
def Obligations.OutputsDependOnPipelineAlone : Prop :=
  ∀ s u : State, s.coef = u.coef → s.pipe = u.pipe →
    ∀ inputs : List (Word × Word), procOutputs s inputs = procOutputs u inputs ∧
      (procOutputs s inputs).length = inputs.length

/-! ### The whole machine -/

/-- R57, R13, R14, R17, R18, R19, R25, R152: what each command may write. No command writes an operand, coefficient, length
or PARAM register; RES0, RES1, each flag, DCS, the pool, the pipeline, LFO_PHASE, TAIL_LEVEL, STATE and ERR are written by the
commands named and by no other. -/
def Obligations.CommandsWriteOnlyTheirRegisters : Prop :=
  ∀ (i : Instr) (s t : State), exec i s = .next t →
    (t.opa = s.opa ∧ t.opb = s.opb ∧ t.opc = s.opc ∧ t.coef = s.coef ∧ t.staged = s.staged ∧ t.param = s.param ∧
      t.port = s.port ∧ t.build = s.build) ∧
    (i ∈ [Instr.nop, .preset, .prepare, .rreset, .updmod] ∨ (∃ id, i = .pwrite id) → t.res0 = s.res0) ∧
    (i ≠ .proc → t.res1 = s.res1) ∧
    (i ∉ [Instr.mul, .mac, .add] → t.ovf = s.ovf) ∧
    ((∀ id, i ≠ .preadc id) → t.cont = s.cont) ∧
    (i ≠ .proc → t.povf = s.povf) ∧
    (i ≠ .dcblk → t.dcs = s.dcs) ∧
    (i ≠ .preset → (∀ id, i ≠ .pwrite id) → t.pool = s.pool) ∧
    (i ∉ [Instr.prepare, .rreset, .proc] → t.pipe = s.pipe ∧ t.tailLevel = s.tailLevel ∧ t.life = s.life) ∧
    (i ∉ [Instr.prepare, .rreset, .updmod] → t.lfoPhase = s.lfoPhase) ∧
    (i ≠ .prepare → t.err = s.err)

/-- R17, R18, R19, R41, R45: a bus access other than a write to CMD changes no flag, no result register, no hidden state, no
pool word and not STATE. -/
def Obligations.BusAccessesKeepFlagsAndHiddenState : Prop :=
  ∀ (s t : State) (e : PortEvent) (rest : List PortEvent), s.port.queue = e :: rest → step s = .next t →
    (∀ b, e ≠ .rst b) → (∀ v j, e ≠ .write 0x00#8 4 v j) →
    t.ovf = s.ovf ∧ t.cont = s.cont ∧ t.povf = s.povf ∧ t.life = s.life ∧ t.res0 = s.res0 ∧ t.res1 = s.res1 ∧
      t.pipe = s.pipe ∧ t.pool = s.pool ∧ t.lfoPhase = s.lfoPhase ∧ t.tailLevel = s.tailLevel

/-- R20, R145: "Only the transitions below change STATE": a successful PREPARE to 1, PROC to 2 when it is not 0, RRESET from 2
to 1, and power-on reset to 0. That power-on reset changes STATE when `rst` is deasserted, and that STATE is held while `rst`
is asserted, is the model's choice, not R20's words (assumption 7, DESIGN CHOICE). -/
def Obligations.LifecycleTransitionsAreThoseListed : Prop :=
  (∀ s t : State, step s = .next t →
    t.life = s.life ∨
    (∃ j rest, s.port.queue = .write 0x00#8 4 0x20000000#32 j :: rest ∧ t.life = .prepared) ∨
    (∃ j rest, s.port.queue = .write 0x00#8 4 0x22000000#32 j :: rest ∧ s.life ≠ .uninitialized ∧
      t.life = .processing) ∨
    (∃ j rest, s.port.queue = .write 0x00#8 4 0x21000000#32 j :: rest ∧ s.life = .processing ∧
      t.life = .prepared) ∨
    (∃ rest, s.port.queue = .rst false :: rest ∧ s.port.rst = true ∧ t.life = .uninitialized)) ∧
  (∀ s : State, lengthsFit s.build s.staged = true → ∃ t, exec .prepare s = .next t ∧ t.life = .prepared) ∧
  (∀ s : State, s.life ≠ .uninitialized → ∃ t, exec .proc s = .next t ∧ t.life = .processing) ∧
  (∀ s : State, s.life = .processing → ∃ t, exec .rreset s = .next t ∧ t.life = .prepared)

/-- R127, R134, R135: a step that raises an error changes nothing but ERR and the port: the state after is the state
before with the code in ERR. A change of ERR to a code other than 0 is a raise. -/
def Obligations.ErrorsArePrecise : Prop :=
  ∀ s t : State, step s = .next t → t.err ≠ s.err → t.err ≠ .none →
    { t with err := s.err, port := s.port } = s

/-- The invariant (R22, R23, R29, R30, R31, R111): every step from every state that has it gives a state that has it. -/
def Obligations.EveryStepKeepsInvariant : Prop :=
  ∀ s t : State, Inv s → step s = .next t → Inv t

/-- The invariant holds at reset, and at the power-on state of every build. -/
def Obligations.PowerOnStateHasInvariant : Prop :=
  Inv State.reset ∧ ∀ (b : Build) (p : Port), Inv (State.powerOn b p)

/-! ### The host's derivation (44_parameter_mapping.md) -/

/-- R115, R123, R124: whatever PARAM and the sample rate, a derived line length is at least 10, so "host-derived lines
are always active", the derived pre-delay length is at least 10 and the derived offset at least 1. -/
def Obligations.DerivedLengthsAreAtLeastTen : Prop :=
  (∀ (sr : F64) (param : Vector Word 7) (n : Lengths), deriveLengths sr param = some n →
    10 ≤ u32 n.pd ∧ (∀ k : Fin 8, 10 ≤ u32 n.er[k]) ∧ (∀ k : Fin 4, 10 ≤ u32 n.comb[k]) ∧
      (∀ k : Fin 2, 10 ≤ u32 n.ap[k])) ∧
  (∀ (pow10 : F64 → F64) (sr : F64) (param : Vector Word 7) (c : Coeffs), deriveCoeffs pow10 sr param = some c →
    1 ≤ u32 c.pdOffset)

/-- R114, R118, R126: "q(0.95) = 3891, so COMB_FB ≤ 3891", and it is not negative, for every host's 10^y; `pow10Ref` is the
reference, 10^y correctly rounded to binary64; and with it the derivation gives the five rows of R126: the coefficient registers
with PD_OFFSET, and the lengths. -/
def Obligations.DerivedCombFeedbackIsBounded : Prop :=
  quantize (dec64 95 100) = 3891#32 ∧
  (∀ (pow10 : F64 → F64) (p1 p5 sr : F64), 0 ≤ s32 (deriveCombFb pow10 p1 p5 sr) ∧
    s32 (deriveCombFb pow10 p1 p5 sr) ≤ 3891) ∧
  IsReferencePow10 pow10Ref ∧
  (referenceOutputs (Vector.replicate 7 0x00000000#32) 44100 =
      (some ⟨Vector.replicate 8 0#32, 3822#32, 409#32, 4096#32, 0#32, 0#32, 4096#32, 1#32⟩,
       some ⟨8820#32, Vector.replicate 8 10#32, Vector.replicate 4 10#32, Vector.replicate 2 10#32⟩) ∧
    referenceOutputs (Vector.replicate 7 0x3F000000#32) 44100 =
      (some ⟨#v[1843#32, 1638#32, 1433#32, 1228#32, 1024#32, 819#32, 614#32, 409#32], 3891#32, 1433#32, 2068#32, 2027#32,
         2048#32, 2048#32, 2205#32⟩,
       some ⟨8820#32, #v[71#32, 53#32, 189#32, 138#32, 336#32, 454#32, 222#32, 250#32],
         #v[843#32, 961#32, 1143#32, 1381#32], #v[194#32, 63#32]⟩) ∧
    referenceOutputs (Vector.replicate 7 0x3F800000#32) 44100 =
      (some ⟨#v[3686#32, 3276#32, 2867#32, 2457#32, 2048#32, 1638#32, 1228#32, 819#32], 3891#32, 2867#32, 40#32, 4055#32,
         4096#32, 0#32, 4410#32⟩,
       some ⟨8820#32, #v[142#32, 107#32, 379#32, 277#32, 672#32, 908#32, 445#32, 500#32],
         #v[1687#32, 1923#32, 2287#32, 2763#32], #v[389#32, 127#32]⟩) ∧
    referenceOutputs (Vector.replicate 7 0x3F800000#32) 48000 =
      (some ⟨#v[3686#32, 3276#32, 2867#32, 2457#32, 2048#32, 1638#32, 1228#32, 819#32], 3891#32, 2867#32, 40#32, 4055#32,
         4096#32, 0#32, 4800#32⟩,
       some ⟨9600#32, #v[154#32, 116#32, 412#32, 301#32, 731#32, 988#32, 484#32, 544#32],
         #v[1836#32, 2093#32, 2489#32, 3007#32], #v[423#32, 138#32]⟩) ∧
    referenceOutputs #v[f32 false 3 10, f32 false 5 10, f32 false 7 10, f32 false 2 10, f32 false 6 10, f32 false 8 10,
        f32 false 35 100] 44100 =
      (some ⟨#v[2211#32, 1966#32, 1720#32, 1474#32, 1228#32, 983#32, 737#32, 491#32], 3891#32, 2007#32, 3284#32, 811#32,
         1433#32, 2662#32, 1323#32⟩,
       some ⟨8820#32, #v[113#32, 85#32, 303#32, 221#32, 537#32, 726#32, 356#32, 400#32],
         #v[1349#32, 1538#32, 1829#32, 2210#32], #v[311#32, 101#32]⟩))
end

