-- ==== Sys2Proof/Laws/Arith.lean ====
section
/-! SUPPORT. What saturation, the floor shift, the pool's geometry and the row operations can do, said once. -/

namespace Sys2Proof.Machine

/-- A clamped value lies in the 20-bit domain (R9). -/
theorem clamp20_range (v : Int) : -524288 ≤ clamp20 v ∧ clamp20 v ≤ 524287 := by
  unfold clamp20; omega

/-- Clamping leaves a value of the domain alone. -/
theorem clamp20_of_range {v : Int} (h : -524288 ≤ v ∧ v ≤ 524287) : clamp20 v = v := by
  unfold clamp20; omega

/-- `clamp20` by cases. -/
theorem clamp20_eq (v : Int) : clamp20 v = if v < -524288 then -524288 else if 524287 < v then 524287 else v := by
  unfold clamp20; split <;> (try split) <;> omega

/-- No overflow is reported exactly when the value lies in the domain (R9). -/
theorem out20_eq_false {v : Int} : out20 v = false ↔ -524288 ≤ v ∧ v ≤ 524287 := by
  unfold out20; simp

@[simp] theorem sat_value (v : Int) : (sat v).value = clamp20 v := rfl

@[simp] theorem sat_ov (v : Int) : (sat v).ov = out20 v := rfl

/-- Every result of the multiply lies in the 20-bit domain (R64). -/
theorem mulq_range (a b : Int) : -524288 ≤ (mulq a b).value ∧ (mulq a b).value ≤ 524287 := clamp20_range _

/-- Every result of the multiply-accumulate lies in the 20-bit domain (R64). -/
theorem macq_range (a b c : Int) : -524288 ≤ (macq a b c).value ∧ (macq a b c).value ≤ 524287 := clamp20_range _

/-- The floor shift is the one integer p with 4096 p ≤ v < 4096 (p + 1) (R66). -/
theorem sra12_spec (v : Int) : 4096 * sra12 v ≤ v ∧ v < 4096 * (sra12 v + 1) := by
  unfold sra12; omega

/-- `toFixed` gives a value of the 20-bit domain for every input (R64, R70). -/
theorem toFixed_range (f : FVal) : -524288 ≤ toFixed f ∧ toFixed f ≤ 524287 := by
  match f with
  | .nan => decide
  | .inf true => decide
  | .inf false => decide
  | .fin neg m => exact clamp20_range _

/-- A value of the 20-bit domain survives being stored in a word. -/
theorem s32_w32 {v : Int} (h : -524288 ≤ v ∧ v ≤ 524287) : s32 (w32 v) = v := by
  simp only [s32, w32, BitVec.toInt_ofInt]
  exact Int.bmod_eq_of_le (by omega) (by omega)

/-- Any integer of 32 bits survives being stored in a word. -/
theorem s32_w32_of_lt {v : Int} (h : -2 ^ 31 ≤ v ∧ v < 2 ^ 31) : s32 (w32 v) = v := by
  simp only [s32, w32, BitVec.toInt_ofInt]
  exact Int.bmod_eq_of_le (by omega) (by omega)

/-- The mono mean lies in the 20-bit domain (R97). -/
theorem monoMean_range {a b : Int} (ha : -524288 ≤ a ∧ a ≤ 524287) (hb : -524288 ≤ b ∧ b ≤ 524287) :
    -524288 ≤ monoMean a b ∧ monoMean a b ≤ 524287 := by
  unfold monoMean
  rcases Int.le_total 0 (a + b) with h | h
  · rw [Int.tdiv_eq_ediv_of_nonneg h]; omega
  · have : (a + b).tdiv 2 = -((-(a + b)) / 2) := by
      rw [← Int.tdiv_eq_ediv_of_nonneg (by omega), Int.neg_tdiv]; omega
    omega

/-- The pool's length is at least 1. -/
theorem poolLen_pos (b : Build) : 0 < poolLen b := by
  unfold poolLen; split
  · decide
  · exact Nat.two_pow_pos _

/-- The next cursor is in the pool (R31). -/
theorem nextCursor_lt (b : Build) (p : Pool) : nextCursor b p < poolLen b := Nat.mod_lt _ (poolLen_pos b)

/-- "every pool index that PWRITE or PREADC computes is in [0, POOL_LEN-1]" (R83): the read port's. -/
theorem poolIndex_lt (b : Build) (p : Pool) (eff : Int) : poolIndex b p eff < poolLen b := by
  have h := poolLen_pos b
  unfold poolIndex
  have h1 := Int.emod_nonneg ((p.cur : Int) - eff) (b := (poolLen b : Int)) (by omega)
  have h2 := Int.emod_lt_of_pos ((p.cur : Int) - eff) (b := (poolLen b : Int)) (by omega)
  omega

@[simp] theorem poolWrite_cur (b : Build) (inj : Bool) (v : Word) (p : Pool) :
    (poolWrite b inj v p).cur = nextCursor b p := rfl

@[simp] theorem vecMap_get {α β : Type} {n : Nat} (f : α → β) (v : Vector α n) (i : Nat) (h : i < n) :
    (vecMap f v)[i] = f v[i] := by
  simp [vecMap]

@[simp] theorem vecZip_get {α β γ : Type} {n : Nat} (f : α → β → γ) (v : Vector α n) (w : Vector β n) (i : Nat)
    (h : i < n) : (vecZip f v w)[i] = f v[i] w[i] := by
  simp [vecZip]

/-- An inactive line is skipped: nothing read, nothing written, no output (R94). -/
theorem tapStep_inactive {l : Line} (h : u32 l.active = 0) (x g : Int) :
    tapStep x l g = { line := l, out := none, ov := false } := by simp [tapStep, h]

/-- An active line puts out `macq` of its delayed word, its gain and the input, and writes that back (R95, R96). -/
theorem tapStep_active {l : Line} (h : u32 l.active ≠ 0) (x g : Int) :
    tapStep x l g = { line := lineWrite l (macq (lineRead l) g x).value,
                      out := some (macq (lineRead l) g x).value, ov := (macq (lineRead l) g x).ov } := by
  simp [tapStep, h]

@[simp] theorem lineWrite_active (l : Line) (v : Int) : (lineWrite l v).active = l.active := rfl

@[simp] theorem clearLine_active (l : Line) : (clearLine l).active = l.active := rfl

@[simp] theorem tapStep_line_active (x : Int) (l : Line) (g : Int) : (tapStep x l g).line.active = l.active := by
  unfold tapStep; split <;> rfl

/-- Whatever a line of a bank puts out lies in the 20-bit domain (R96). -/
theorem tapStep_out_range {x g y : Int} {l : Line} (h : (tapStep x l g).out = some y) :
    -524288 ≤ y ∧ y ≤ 524287 := by
  unfold tapStep at h
  split at h
  · cases h
  · cases h; exact clamp20_range _

@[simp] theorem bank_lines_get {n : Nat} (lines : Vector Line n) (gains : Vector Word n) (x : Int) (k : Nat)
    (h : k < n) : (bank lines gains x).lines[k] = (tapStep x lines[k] (s32 gains[k])).line := by
  simp [bank]

/-- The average of values of the domain lies in the domain (R96). -/
theorem average_range {x : Int} {ys : List Int} (hx : -524288 ≤ x ∧ x ≤ 524287)
    (hy : ∀ y ∈ ys, -524288 ≤ y ∧ y ≤ 524287) : -524288 ≤ average x ys ∧ average x ys ≤ 524287 := by
  unfold average
  split
  · exact hx
  · next hne =>
    have hsum : ∀ zs : List Int, (∀ y ∈ zs, -524288 ≤ y ∧ y ≤ 524287) →
        -524288 * (zs.length : Int) ≤ zs.sum ∧ zs.sum ≤ 524287 * (zs.length : Int) := by
      intro zs hz
      induction zs with
      | nil => simp
      | cons z zs ih =>
        have h1 := hz z (by simp)
        have h2 := ih fun y hy => hz y (by simp [hy])
        simp only [List.sum_cons, List.length_cons, Nat.cast_add, Nat.cast_one]
        omega
    have h := hsum ys hy
    have hlen : 0 < (ys.length : Int) := by
      have := List.length_pos_iff.mpr hne; omega
    generalize ys.sum = t at *
    generalize (ys.length : Int) = k at *
    rcases Int.le_total 0 t with ht | ht
    · rw [Int.tdiv_eq_ediv_of_nonneg ht]
      have h0 := Int.ediv_nonneg ht (Int.le_of_lt hlen)
      have h1 := Int.ediv_le_of_le_mul hlen h.2
      omega
    · have e : t.tdiv k = -((-t) / k) := by
        rw [← Int.tdiv_eq_ediv_of_nonneg (by omega), Int.neg_tdiv]; omega
      have h0 := Int.ediv_nonneg (a := -t) (by omega) (Int.le_of_lt hlen)
      have h1 := Int.ediv_le_of_le_mul hlen (a := -t) (b := 524288) (by omega)
      omega

/-- A bank's value lies in the domain when its input does (R96). -/
theorem bank_value_range {n : Nat} (lines : Vector Line n) (gains : Vector Word n) {x : Int}
    (hx : -524288 ≤ x ∧ x ≤ 524287) : -524288 ≤ (bank lines gains x).value ∧ (bank lines gains x).value ≤ 524287 := by
  refine average_range hx ?_
  intro y hy
  obtain ⟨t, ht, hty⟩ := List.mem_filterMap.mp hy
  simp only [vecZip, Vector.toList, List.mem_iff_getElem] at ht
  obtain ⟨i, hi, rfl⟩ := ht
  simp only [List.getElem_zipWith] at hty
  exact tapStep_out_range hty

/-- A bank whose lines are all inactive passes its input through and overflows nowhere (R96). -/
theorem bank_all_inactive {n : Nat} {lines : Vector Line n} (gains : Vector Word n) (x : Int)
    (h : ∀ k (hk : k < n), u32 lines[k].active = 0) :
    (bank lines gains x).lines = lines ∧ (bank lines gains x).value = x ∧ (bank lines gains x).ov = false := by
  have hl : ∀ t ∈ (vecZip (fun l g => tapStep x l (s32 g)) lines gains).toList, t.out = none ∧ t.ov = false := by
    intro t ht
    simp only [vecZip, Vector.toList, List.mem_iff_getElem] at ht
    obtain ⟨i, hi, rfl⟩ := ht
    have hin : i < n := by simp at hi; omega
    have hk := h i hin
    rw [List.getElem_zipWith, tapStep_inactive (by simpa using hk)]
    exact ⟨rfl, rfl⟩
  refine ⟨?_, ?_, ?_⟩
  · ext k hk
    rw [bank_lines_get, tapStep_inactive (h k hk)]
  · have : (vecZip (fun l g => tapStep x l (s32 g)) lines gains).toList.filterMap TapOut.out = [] := by
      rw [List.filterMap_eq_nil_iff]; exact fun t ht => (hl t ht).1
    simp [bank, average, this]
  · simp only [bank, List.any_eq_false]
    intro t ht; simp [(hl t ht).2]

end Sys2Proof.Machine
end

