-- ==== Sys2Proof/Laws/Float.lean ====
section
/-! SUPPORT. Packing a value that a pattern can hold and reading it back gives the value, so that each operation on
patterns is its operation on values (00_scope.md R10). Later proofs cite these and do not unfold `pack32`. -/

namespace Sys2Proof.Machine

/-- A sign bit and a smaller number do not overlap. -/
theorem signBit_or_toNat (neg : Bool) {k : Nat} (h : k < 2 ^ 31) :
    (signBit neg ||| BitVec.ofNat 32 k).toNat = (if neg then 2 ^ 31 else 0) + k := by
  have hk : k % 2 ^ 32 = k := Nat.mod_eq_of_lt (by omega)
  rw [BitVec.toNat_or, BitVec.toNat_ofNat, hk]
  cases neg
  · simp [signBit]
  · have := Nat.two_pow_add_eq_or_of_lt h 1
    simp only [signBit, if_true] at *
    simpa using this.symm

/-- The value of a pattern, from its sign, exponent field and fraction field (R10). -/
theorem unpack32_of_fields {w : Word} {neg : Bool} {e frac : Nat} (he : e < 256) (hf : frac < 2 ^ 23)
    (h : w.toNat = (if neg then 2 ^ 31 else 0) + (e * 2 ^ 23 + frac)) : unpack32 w =
      if e = 255 then (if frac = 0 then .inf neg else .nan)
      else if e = 0 then .fin neg frac
      else .fin neg ((2 ^ 23 + frac) * 2 ^ (e - 1)) := by
  have h1 : w.getMsbD 0 = neg := by
    rw [← BitVec.msb_eq_getMsbD_zero, BitVec.msb_eq_decide, h]
    cases neg
    · simp; omega
    · simp
  have h2 : (w.extractLsb' 23 8).toNat = e := by
    rw [BitVec.extractLsb'_toNat, Nat.shiftRight_eq_div_pow, h]
    cases neg <;> simp <;> omega
  have h3 : (w.extractLsb' 0 23).toNat = frac := by
    rw [BitVec.extractLsb'_toNat, Nat.shiftRight_eq_div_pow, h]
    cases neg <;> simp <;> omega
  simp only [unpack32, h1, h2, h3]

/-- The NaN pattern of an operation is a NaN, whatever the free value is. -/
@[simp] theorem unpack32_nanWordOf (a b : Word) : unpack32 (nanWordOf a b) = .nan := by
  simp only [nanWordOf]
  generalize Config.nanPattern a b = p
  split
  · next h => simpa [isNanWord] using h
  · have e1 : (p ||| 0x7FC00000#32).extractLsb' 23 8 = 255#8 := by
      ext i hi
      have : i = 0 ∨ i = 1 ∨ i = 2 ∨ i = 3 ∨ i = 4 ∨ i = 5 ∨ i = 6 ∨ i = 7 := by omega
      rcases this with rfl | rfl | rfl | rfl | rfl | rfl | rfl | rfl <;> simp [BitVec.getElem_extractLsb']
    have e2 : ((p ||| 0x7FC00000#32).extractLsb' 0 23).toNat ≠ 0 := by
      intro h
      have h0 : (p ||| 0x7FC00000#32).extractLsb' 0 23 = 0#23 := BitVec.eq_of_toNat_eq h
      have := congrArg (fun v => v.getLsbD 22) h0
      simp at this
    simp only [unpack32, e1]
    exact if_neg e2

/-- A magnitude of binary32 from `2^(e + 23)` on is a multiple of `2^e`. -/
theorem isMag_dvd {m e : Nat} (h : IsMag binary32 m) (hlo : 2 ^ (e + 23) ≤ m) : 2 ^ e ∣ m := by
  obtain ⟨c, x, hx, hc⟩ := h
  rcases Nat.le_total e x with hle | hle
  · exact hx ▸ Dvd.dvd.mul_left (Nat.pow_dvd_pow 2 hle) c
  · have hx' : x = e := by
      by_contra hne
      have : m < 2 ^ (e + 23) := by
        have h2 : 2 ^ 24 * 2 ^ x ≤ 2 ^ (e + 23) := by
          rw [← Nat.pow_add]; exact Nat.pow_le_pow_right (by omega) (by omega)
        have h3 : c * 2 ^ x < 2 ^ 24 * 2 ^ x := Nat.mul_lt_mul_of_pos_right hc (Nat.two_pow_pos _)
        omega
      omega
    exact ⟨c, by rw [hx, hx', Nat.mul_comm]⟩

/-- A finite value that a pattern can hold survives packing. -/
theorem unpack32_pack32_fin (n : Word) (neg : Bool) {m : Nat} (h : IsMag binary32 m) (ht : m < 2 ^ binary32.topExp) :
    unpack32 (pack32 n (.fin neg m)) = .fin neg m := by
  by_cases hs : m < 2 ^ 23
  · rw [unpack32_of_fields (neg := neg) (e := 0) (frac := m) (by decide) hs]
    · simp
    · simp only [pack32, hs, if_true]
      rw [signBit_or_toNat neg (by omega)]; simp
  · have hm : m ≠ 0 := by omega
    have hlog : 23 ≤ Nat.log2 m := (Nat.le_log2 hm).2 (by omega)
    have hlog2 : Nat.log2 m < binary32.topExp := (Nat.log2_lt hm).2 ht
    simp only [binary32] at hlog2
    obtain ⟨e, he⟩ : ∃ e, Nat.log2 m = e + 23 := ⟨Nat.log2 m - 23, by omega⟩
    have hlo : 2 ^ (e + 23) ≤ m := he ▸ Nat.log2_self_le hm
    have hhi : m < 2 ^ (e + 24) := by have := Nat.lt_log2_self (n := m); rw [he] at this; exact this
    obtain ⟨k, hk⟩ := isMag_dvd h hlo
    have hp : 0 < 2 ^ e := Nat.two_pow_pos _
    have hk1 : 2 ^ 23 ≤ k := by
      rw [hk, Nat.add_comm, Nat.pow_add, Nat.mul_comm] at hlo
      exact Nat.le_of_mul_le_mul_left hlo hp
    have hk2 : k < 2 ^ 24 := by
      rw [hk, Nat.add_comm, Nat.pow_add, Nat.mul_comm] at hhi
      exact Nat.lt_of_mul_lt_mul_right hhi
    have hdiv : m / 2 ^ e = k := by rw [hk, Nat.mul_div_cancel_left _ hp]
    rw [unpack32_of_fields (neg := neg) (e := e + 1) (frac := k - 2 ^ 23) (by omega) (by omega)]
    · rw [if_neg (by omega), if_neg (by omega), Nat.add_sub_cancel, Nat.add_sub_cancel' hk1, hk, Nat.mul_comm]
    · simp only [pack32, hs, if_false, he, Nat.add_sub_cancel, hdiv]
      rw [signBit_or_toNat neg (by omega)]

@[simp] theorem unpack32_pack32_inf (n : Word) (neg : Bool) : unpack32 (pack32 n (.inf neg)) = .inf neg := by
  cases neg <;> simp only [pack32] <;> decide

/-- `roundMag` gives a magnitude of the format. -/
theorem roundMag_isMag {f : FFmt} (hf : 0 < f.prec) (m j : Nat) : IsMag f (roundMag f m j) := by
  unfold roundMag
  extract_lets q r rest up
  have hr : r < 2 ^ f.prec := by
    refine Nat.div_lt_of_lt_mul ?_
    rw [← Nat.pow_add]
    by_cases hm : m = 0
    · simp [hm]
    · refine Nat.lt_of_lt_of_le Nat.lt_log2_self (Nat.pow_le_pow_right (by omega) ?_)
      simp only [q]; omega
  split
  · by_cases h : r + 1 < 2 ^ f.prec
    · exact ⟨_, _, rfl, h⟩
    · refine ⟨1, f.prec + (q - j), ?_, ?_⟩
      · rw [show r + 1 = 2 ^ f.prec by omega, Nat.pow_add, Nat.one_mul]
      · exact Nat.one_lt_two_pow (by omega)
  · exact ⟨_, _, rfl, hr⟩

/-- A pattern can hold the value: if it is finite, its magnitude is one of the format and does not overflow. -/
def Holds32 (v : FVal) : Prop := ∀ neg m, v = .fin neg m → IsMag binary32 m ∧ m < 2 ^ binary32.topExp

/-- A value that a pattern can hold survives packing, whatever NaN pattern stands for a NaN. -/
theorem unpack32_pack32 {n : Word} {v : FVal} (hn : unpack32 n = .nan) (h : Holds32 v) :
    unpack32 (pack32 n v) = v := by
  cases v with
  | nan => exact hn
  | inf neg => exact unpack32_pack32_inf n neg
  | fin neg m => exact unpack32_pack32_fin n neg (h neg m rfl).1 (h neg m rfl).2

/-- A rounded magnitude can be held. -/
theorem holds32_froundMag (neg : Bool) (m j : Nat) : Holds32 (froundMag binary32 neg m j) := by
  intro s k h
  simp only [froundMag] at h
  split at h
  · cases h
  · next hr =>
    rw [← (FVal.fin.inj h).2]
    exact ⟨roundMag_isMag (by decide) m j, Nat.lt_of_not_le hr⟩

/-- A sum can be held. -/
theorem holds32_faddV (a b : FVal) : Holds32 (faddV binary32 a b) := by
  intro s k h
  match a, b with
  | .nan, _ => cases h
  | .inf _, .nan => cases h
  | .fin _ _, .nan => cases h
  | .inf s, .inf t => simp only [faddV] at h; split at h <;> cases h
  | .inf _, .fin _ _ => cases h
  | .fin _ _, .inf _ => cases h
  | .fin s m, .fin t n =>
    simp only [faddV] at h
    split at h
    · cases h; exact ⟨⟨0, 0, rfl, by decide⟩, Nat.two_pow_pos _⟩
    · exact holds32_froundMag _ _ _ _ _ h

/-- A product can be held. -/
theorem holds32_fmulV (a b : FVal) : Holds32 (fmulV binary32 a b) := by
  intro s k h
  rcases a with _ | sa | ⟨sa, ma⟩ <;> rcases b with _ | sb | ⟨sb, mb⟩ <;> simp only [fmulV, reduceCtorEq] at h
  · split at h <;> cases h
  · split at h <;> cases h
  · exact holds32_froundMag _ _ _ _ _ h

@[simp] theorem unpack32_fadd (a b : Word) : unpack32 (fadd a b) = faddV binary32 (unpack32 a) (unpack32 b) :=
  unpack32_pack32 (unpack32_nanWordOf a b) (holds32_faddV _ _)

@[simp] theorem unpack32_fsub (a b : Word) : unpack32 (fsub a b) = fsubV binary32 (unpack32 a) (unpack32 b) :=
  unpack32_pack32 (unpack32_nanWordOf a b) (holds32_faddV _ _)

@[simp] theorem unpack32_fmul (a b : Word) : unpack32 (fmul a b) = fmulV binary32 (unpack32 a) (unpack32 b) :=
  unpack32_pack32 (unpack32_nanWordOf a b) (holds32_fmulV _ _)

@[simp] theorem unpack32_toFloat (n : Int) : unpack32 (toFloat n) = toFloatV n := by
  rw [toFloat, unpack32_pack32 (unpack32_nanWordOf 0 0)]
  rw [toFloatV]
  generalize n.natAbs * 2 ^ 137 = m
  exact holds32_froundMag _ m 0

end Sys2Proof.Machine
end

