-- ==== Sys2Proof/Laws/Memory.lean ====
section
/-! SUPPORT. The laws of a word memory: reading after writing, and the canonical form that every write keeps. -/

namespace Sys2Proof.Machine

@[simp] theorem readWord_nil (a : Nat) : readWord [] a = blankWord := rfl

@[simp] theorem blankWord_eq : blankWord = 0#32 := rfl

theorem readWord_eq_blank_of_not_listed {m : Memory} {a : Nat} (h : ∀ c ∈ m, c.1 ≠ a) :
    readWord m a = blankWord := by
  induction m with
  | nil => rfl
  | cons c m ih =>
    have hc := h c (by simp)
    simp only [readWord, Ne.symm hc, if_false]
    exact ih fun d hd => h d (by simp [hd])

theorem readWord_consCell (a b : Nat) (v : Word) {m : Memory} (h : ∀ c ∈ m, a < c.1) :
    readWord (consCell a v m) b = if b = a then v else readWord m b := by
  unfold consCell
  split
  · next hv =>
    split
    · next hb =>
      rw [hb, readWord_eq_blank_of_not_listed (fun c hc => Nat.ne_of_gt (h c hc)), hv]
    · rfl
  · rfl

/-- A write changes the word at its index and no other word (of a memory in canonical form). -/
theorem readWord_writeWord {m : Memory} (h : Memory.wf m) (a b : Nat) (v : Word) :
    readWord (writeWord m a v) b = if b = a then v else readWord m b := by
  induction m with
  | nil => exact readWord_consCell a b v (by simp)
  | cons c m ih =>
    obtain ⟨k, w⟩ := c
    have hs := List.pairwise_cons.mp h.1
    have hm : Memory.wf m := ⟨hs.2, fun d hd => h.2 d (by simp [hd])⟩
    simp only [writeWord]
    split
    · next hlt =>
      refine readWord_consCell a b v ?_
      intro d hd
      rcases List.mem_cons.mp hd with rfl | hd
      · exact hlt
      · exact Nat.lt_trans hlt (hs.1 d hd)
    · split
      · next _ hak =>
        subst hak
        rw [readWord_consCell a b v (fun d hd => hs.1 d hd)]
        simp only [readWord]
        split <;> rfl
      · next hlt hak =>
        simp only [readWord, ih hm]
        split
        · next hbk => simp [hbk, Ne.symm hak]
        · rfl

theorem readWord_writeWord_self {m : Memory} (h : Memory.wf m) (a : Nat) (v : Word) :
    readWord (writeWord m a v) a = v := by simp [readWord_writeWord h]

theorem readWord_writeWord_other {m : Memory} (h : Memory.wf m) {a b : Nat} (v : Word) (hb : b ≠ a) :
    readWord (writeWord m a v) b = readWord m b := by simp [readWord_writeWord h, hb]

/-- A cell of a memory after a write is the cell written, or was there before. -/
theorem mem_writeWord {m : Memory} {a : Nat} {v : Word} {c : Nat × Word} (h : c ∈ writeWord m a v) :
    c = (a, v) ∨ c ∈ m := by
  have hcons : ∀ m' : Memory, c ∈ consCell a v m' → c = (a, v) ∨ c ∈ m' := by
    intro m' h'
    unfold consCell at h'
    split at h'
    · exact .inr h'
    · exact List.mem_cons.mp h'
  induction m with
  | nil => exact hcons [] h
  | cons d m ih =>
    simp only [writeWord] at h
    split at h
    · exact hcons _ h
    · split at h
      · exact (hcons _ h).imp_right (by simp +contextual)
      · rcases List.mem_cons.mp h with rfl | h
        · simp
        · exact (ih h).imp_right (by simp +contextual)

theorem wf_nil : Memory.wf [] := by simp [Memory.wf]

theorem wf_consCell {m : Memory} (hm : Memory.wf m) {a : Nat} (v : Word) (h : ∀ c ∈ m, a < c.1) :
    Memory.wf (consCell a v m) := by
  unfold consCell
  split
  · exact hm
  · next hv =>
    refine ⟨List.pairwise_cons.mpr ⟨h, hm.1⟩, ?_⟩
    intro c hc
    rcases List.mem_cons.mp hc with rfl | hc
    · exact hv
    · exact hm.2 c hc

/-- Every write keeps the canonical form. -/
theorem wf_writeWord {m : Memory} (h : Memory.wf m) (a : Nat) (v : Word) : Memory.wf (writeWord m a v) := by
  induction m with
  | nil => exact wf_consCell wf_nil v (by simp)
  | cons c m ih =>
    obtain ⟨k, w⟩ := c
    have hs := List.pairwise_cons.mp h.1
    have hm : Memory.wf m := ⟨hs.2, fun d hd => h.2 d (by simp [hd])⟩
    simp only [writeWord]
    split
    · next hlt =>
      refine wf_consCell h v ?_
      intro d hd
      rcases List.mem_cons.mp hd with rfl | hd
      · exact hlt
      · exact Nat.lt_trans hlt (hs.1 d hd)
    · split
      · next _ hak => exact wf_consCell hm v (fun d hd => hak ▸ hs.1 d hd)
      · next hlt hak =>
        refine ⟨List.pairwise_cons.mpr ⟨?_, (ih hm).1⟩, ?_⟩
        · intro d hd
          rcases mem_writeWord hd with rfl | hd
          · simp; omega
          · exact hs.1 d hd
        · intro d hd
          rcases List.mem_cons.mp hd with rfl | hd
          · exact h.2 _ (by simp)
          · exact (ih hm).2 d hd

/-- The memories of the reset state have the canonical form. -/
theorem reset_memories_wf :
    Memory.wf State.reset.pool.mem ∧ Memory.wf State.reset.pipe.pd.buf ∧
      (∀ k : Fin 8, Memory.wf State.reset.pipe.er[k].buf) ∧ (∀ k : Fin 4, Memory.wf State.reset.pipe.comb[k].buf) ∧
      (∀ k : Fin 2, Memory.wf State.reset.pipe.ap[k].buf) := by decide

/-- The pool's write port keeps the canonical form. -/
theorem wf_poolWrite (b : Build) (inj : Bool) (v : Word) {p : Pool} (h : Memory.wf p.mem) :
    Memory.wf (poolWrite b inj v p).mem := by
  unfold poolWrite
  cases inj
  · simpa using wf_writeWord h _ _
  · simpa using wf_writeWord (wf_writeWord h _ _) _ _

/-- A line's write keeps the canonical form. -/
theorem wf_lineWrite {l : Line} (h : Memory.wf l.buf) (v : Int) : Memory.wf (lineWrite l v).buf :=
  wf_writeWord h _ _

end Sys2Proof.Machine
end

