-- ==== Sys2Proof/Laws/Line.lean ====
section
/-! SUPPORT. What clearing, latching, writing and reading the lines and the pool leaves, field by field, so that later
proofs unfold none of these operations. -/

namespace Sys2Proof.Machine

@[simp] theorem clearLine_widx (l : Line) : (clearLine l).widx = 0#32 := rfl

@[simp] theorem clearLine_buf (l : Line) : (clearLine l).buf = [] := rfl

@[simp] theorem latchLine_active (len : Word) (l : Line) : (latchLine len l).active = len := rfl

@[simp] theorem clearPipe_pd (p : Pipe) : (clearPipe p).pd = clearLine p.pd := rfl

@[simp] theorem clearPipe_er (p : Pipe) (k : Nat) (h : k < 8) : (clearPipe p).er[k] = clearLine p.er[k] := by
  simp [clearPipe]

@[simp] theorem clearPipe_comb (p : Pipe) (k : Nat) (h : k < 4) : (clearPipe p).comb[k] = clearLine p.comb[k] := by
  simp [clearPipe]

@[simp] theorem clearPipe_ap (p : Pipe) (k : Nat) (h : k < 2) : (clearPipe p).ap[k] = clearLine p.ap[k] := by
  simp [clearPipe]

@[simp] theorem clearPipe_rvDcs (p : Pipe) : (clearPipe p).rvDcs = 0#32 := rfl

@[simp] theorem clearPipe_dmpL (p : Pipe) : (clearPipe p).dmpL = 0#32 := rfl

@[simp] theorem clearPipe_dmpR (p : Pipe) : (clearPipe p).dmpR = 0#32 := rfl

@[simp] theorem latchLengths_pd (n : Lengths) (p : Pipe) : (latchLengths n p).pd = latchLine n.pd p.pd := rfl

@[simp] theorem latchLengths_er (n : Lengths) (p : Pipe) (k : Nat) (h : k < 8) :
    (latchLengths n p).er[k] = latchLine n.er[k] p.er[k] := by
  simp [latchLengths]

@[simp] theorem latchLengths_comb (n : Lengths) (p : Pipe) (k : Nat) (h : k < 4) :
    (latchLengths n p).comb[k] = latchLine n.comb[k] p.comb[k] := by
  simp [latchLengths]

@[simp] theorem latchLengths_ap (n : Lengths) (p : Pipe) (k : Nat) (h : k < 2) :
    (latchLengths n p).ap[k] = latchLine n.ap[k] p.ap[k] := by
  simp [latchLengths]

/-- Two pipelines with equal active lengths are equal once they are cleared (R86). -/
theorem clearPipe_congr {p q : Pipe} (hpd : p.pd.active = q.pd.active)
    (her : ∀ k (h : k < 8), p.er[k].active = q.er[k].active)
    (hcomb : ∀ k (h : k < 4), p.comb[k].active = q.comb[k].active)
    (hap : ∀ k (h : k < 2), p.ap[k].active = q.ap[k].active) : clearPipe p = clearPipe q := by
  have hl : ∀ {l m : Line}, l.active = m.active → clearLine l = clearLine m := by
    intro l m h; simp [clearLine, h]
  simp only [clearPipe, Pipe.mk.injEq, and_true]
  refine ⟨hl hpd, ?_, ?_, ?_⟩
  · ext1 k hk; simpa using hl (her k hk)
  · ext1 k hk; simpa using hl (hcomb k hk)
  · ext1 k hk; simpa using hl (hap k hk)

/-- The index of an active line after a write is the next one, in the buffer (R95). -/
theorem lineWrite_widx (l : Line) (v : Int) :
    u32 (lineWrite l v).widx = (u32 l.widx + 1) % (u32 l.active + 1) := by
  have h1 : (u32 l.widx + 1) % (u32 l.active + 1) < u32 l.active + 1 := Nat.mod_lt _ (by omega)
  have h2 : u32 l.active < 2 ^ 32 := l.active.isLt
  simp only [lineWrite, u32, BitVec.toNat_ofNat] at *
  exact Nat.mod_eq_of_lt (by omega)

/-- A write to a line changes the word at the write index and no other (R95). -/
theorem readWord_lineWrite {l : Line} (h : Memory.wf l.buf) (v : Int) (i : Nat) :
    readWord (lineWrite l v).buf i = if i = u32 l.widx then w32 v else readWord l.buf i :=
  readWord_writeWord h _ _ _

/-- The pool's word at an index after a write (R79): the word written at the old cursor, bit 0 flipped at the new one
when the draw is 1, and every other word as before. -/
theorem readWord_poolWrite (b : Build) (inj : Bool) (v : Word) {p : Pool} (h : Memory.wf p.mem) (i : Nat) :
    readWord (poolWrite b inj v p).mem i =
      (if i = p.cur then v else readWord p.mem i) ^^^ (if inj ∧ i = nextCursor b p then 1#32 else 0#32) := by
  cases inj
  · simp [poolWrite, readWord_writeWord h]
  · simp only [poolWrite, if_true, readWord_writeWord (wf_writeWord h _ _), readWord_writeWord h]
    by_cases hi : i = nextCursor b p
    · simp [hi]
    · simp [hi]

/-- A read of the pool, its index and its contention (R81). -/
theorem poolRead_eq (b : Build) (id off : Nat) (p : Pool) : poolRead b id off p =
    (readWord p.mem (poolIndex b p (effectiveOffset (contended id p) off)), contended id p) := rfl

end Sys2Proof.Machine
end

