-- ==== Sys2Proof/Laws/PerInstr.lean ====
section
/-! SUPPORT. The statements made for each command, one lemma per command (LAWS.json names the family). -/

namespace Sys2Proof

/-- OP is bits 31:24 of an encoded command (R55). -/
theorem opField_encode (i : Instr) : opField (encode i) = i.op := by
  unfold opField encode
  ext k hk
  simp only [BitVec.getElem_extractLsb', BitVec.getLsbD_append]
  simp [BitVec.getLsbD_eq_getElem hk]

/-- RSV, bits 23:16, is 0 in an encoded command (R55). -/
theorem rsvField_encode (i : Instr) : rsvField (encode i) = 0 := by
  unfold rsvField encode
  ext k hk
  simp only [BitVec.getElem_extractLsb', BitVec.getLsbD_append]
  simp
  omega

/-- ID is bits 15:0 of an encoded command (R55). -/
theorem idField_encode (i : Instr) : idField (encode i) = i.idBits := by
  unfold idField encode
  ext k hk
  simp only [BitVec.getElem_extractLsb', BitVec.getLsbD_append]
  simp [hk, show k < 24 by omega]

/-- The three fields of a command's word are its OP value, 0 and its ID (R55). -/
def Laws.FieldsOfEncoding.Statement (i : Instr) : Prop :=
  opField (encode i) = i.op ∧ rsvField (encode i) = 0 ∧ idField (encode i) = i.idBits

theorem Laws.FieldsOfEncoding.nop : Laws.FieldsOfEncoding.Statement .nop :=
  ⟨opField_encode _, rsvField_encode _, idField_encode _⟩

theorem Laws.FieldsOfEncoding.tofix : Laws.FieldsOfEncoding.Statement .tofix :=
  ⟨opField_encode _, rsvField_encode _, idField_encode _⟩

theorem Laws.FieldsOfEncoding.toflt : Laws.FieldsOfEncoding.Statement .toflt :=
  ⟨opField_encode _, rsvField_encode _, idField_encode _⟩

theorem Laws.FieldsOfEncoding.mul : Laws.FieldsOfEncoding.Statement .mul :=
  ⟨opField_encode _, rsvField_encode _, idField_encode _⟩

theorem Laws.FieldsOfEncoding.mac : Laws.FieldsOfEncoding.Statement .mac :=
  ⟨opField_encode _, rsvField_encode _, idField_encode _⟩

theorem Laws.FieldsOfEncoding.add : Laws.FieldsOfEncoding.Statement .add :=
  ⟨opField_encode _, rsvField_encode _, idField_encode _⟩

theorem Laws.FieldsOfEncoding.dcblk : Laws.FieldsOfEncoding.Statement .dcblk :=
  ⟨opField_encode _, rsvField_encode _, idField_encode _⟩

theorem Laws.FieldsOfEncoding.pwrite (id : Nat) : Laws.FieldsOfEncoding.Statement (.pwrite id) :=
  ⟨opField_encode _, rsvField_encode _, idField_encode _⟩

theorem Laws.FieldsOfEncoding.preadc (id : Nat) : Laws.FieldsOfEncoding.Statement (.preadc id) :=
  ⟨opField_encode _, rsvField_encode _, idField_encode _⟩

theorem Laws.FieldsOfEncoding.preset : Laws.FieldsOfEncoding.Statement .preset :=
  ⟨opField_encode _, rsvField_encode _, idField_encode _⟩

theorem Laws.FieldsOfEncoding.prepare : Laws.FieldsOfEncoding.Statement .prepare :=
  ⟨opField_encode _, rsvField_encode _, idField_encode _⟩

theorem Laws.FieldsOfEncoding.rreset : Laws.FieldsOfEncoding.Statement .rreset :=
  ⟨opField_encode _, rsvField_encode _, idField_encode _⟩

theorem Laws.FieldsOfEncoding.proc : Laws.FieldsOfEncoding.Statement .proc :=
  ⟨opField_encode _, rsvField_encode _, idField_encode _⟩

theorem Laws.FieldsOfEncoding.updmod : Laws.FieldsOfEncoding.Statement .updmod :=
  ⟨opField_encode _, rsvField_encode _, idField_encode _⟩

end Sys2Proof
end

