-- ==== Sys2Proof/Laws/PowerOfTen.lean ====
section
/-! SUPPORT. What the reference 10^y is computed from: the two integer bounds enclose the real power, the exact test is the
comparison of real numbers, so `tenFloor` is the floor of the real power, whatever the number of bits of the bounds; and a
sticky bit rounds as the real number it stands for does. -/

namespace Sys2Proof.Machine

/-- Newton's iteration from a start not below the square root ends at its floor. -/
theorem isqrtFrom_spec {n : Nat} (fuel x : Nat) (hf : x ≤ fuel) (h : n < (x + 1) * (x + 1)) :
    isqrtFrom n fuel x * isqrtFrom n fuel x ≤ n ∧ n < (isqrtFrom n fuel x + 1) * (isqrtFrom n fuel x + 1) := by
  induction fuel generalizing x with
  | zero =>
    obtain rfl : x = 0 := by omega
    exact ⟨by simp [isqrtFrom], by simpa [isqrtFrom] using h⟩
  | succ fuel ih =>
    simp only [isqrtFrom]
    split
    · next hlt =>
      refine ih _ (by omega) ?_
      have hx : 0 < x := Nat.pos_of_ne_zero (by rintro rfl; simp at hlt)
      have h1 : n < x * (n / x + 1) := by
        have := Nat.lt_mul_div_succ n hx
        simpa [Nat.mul_add] using this
      have h2 : x + (n / x + 1) ≤ 2 * ((x + n / x) / 2 + 1) := by omega
      generalize (x + n / x) / 2 = y at *
      generalize n / x + 1 = a at *
      have h3 : 4 * (x * a) ≤ (x + a) * (x + a) := by nlinarith [sq_nonneg ((x : Int) - a)]
      have h4 := Nat.mul_le_mul h2 h2
      nlinarith
    · next hge =>
      refine ⟨?_, h⟩
      rcases Nat.eq_zero_or_pos x with rfl | hx
      · simp
      · have : x ≤ n / x := by omega
        exact (Nat.le_div_iff_mul_le hx).1 this

/-- Rounded down, the square root is not above the real one. -/
theorem isqrtTo_down {start n : Nat} (h : n < (start + 1) * (start + 1)) :
    isqrtTo false start n * isqrtTo false start n ≤ n := by
  simpa [isqrtTo] using (isqrtFrom_spec start start le_rfl h).1

/-- Rounded up, the square root is not below the real one, and not above any number that is not. -/
theorem isqrtTo_up {start n : Nat} (h : n < (start + 1) * (start + 1)) :
    n ≤ isqrtTo true start n * isqrtTo true start n ∧ ∀ b, n ≤ b * b → isqrtTo true start n ≤ b := by
  obtain ⟨h1, h2⟩ := isqrtFrom_spec start start le_rfl h
  unfold isqrtTo
  generalize isqrtFrom n start start = r at *
  split
  · next hr =>
    refine ⟨by omega, fun b hb => ?_⟩
    by_contra hlt
    have : b ≤ r := by omega
    have := Nat.mul_le_mul this this
    omega
  · next hr =>
    refine ⟨by simp at hr; omega, fun b hb => ?_⟩
    by_contra hlt
    have : b + 1 ≤ r := by omega
    have := Nat.mul_le_mul this this
    nlinarith

/-- The square of a power is the power one binary digit up. -/
theorem ten_rpow_half (b : Nat) (x : ℝ) : (10 : ℝ) ^ b * 10 ^ x = (10 ^ (((b : ℝ) + x) / 2)) ^ 2 := by
  rw [← Real.rpow_natCast (10 : ℝ) b, ← Real.rpow_add (by norm_num), ← Real.rpow_natCast _ 2,
    ← Real.rpow_mul (by norm_num)]
  congr 1
  push_cast
  ring

/-- The exponent `m / 2^(k+1)` is half of its first binary digit and the rest. -/
theorem digit_split (k m : Nat) :
    (m : ℝ) / 2 ^ (k + 1) = (((m / 2 ^ k : Nat) : ℝ) + ((m % 2 ^ k : Nat) : ℝ) / 2 ^ k) / 2 := by
  have h : ((2 ^ k * (m / 2 ^ k) + m % 2 ^ k : Nat) : ℝ) = (m : ℝ) := by exact_mod_cast Nat.div_add_mod m (2 ^ k)
  push_cast at h
  have hp : (0 : ℝ) < 2 ^ k := by positivity
  rw [← h, pow_succ]
  field_simp

/-- The two bounds enclose `2^p * 10^(m / 2^k)`, and neither is above `10 * 2^p`. -/
theorem tenRoot_bounds (p k m : Nat) (hm : m < 2 ^ k) :
    (tenRoot p false k m : ℝ) ≤ 2 ^ p * 10 ^ ((m : ℝ) / 2 ^ k) ∧
    2 ^ p * 10 ^ ((m : ℝ) / 2 ^ k) ≤ (tenRoot p true k m : ℝ) ∧
    tenRoot p false k m ≤ 10 * 2 ^ p ∧ tenRoot p true k m ≤ 10 * 2 ^ p := by
  induction k generalizing m with
  | zero =>
    obtain rfl : m = 0 := by simpa using hm
    simp only [tenRoot]
    refine ⟨by simp, by simp, by omega, by omega⟩
  | succ k ih =>
    have hmod : m % 2 ^ k < 2 ^ k := Nat.mod_lt _ (Nat.two_pow_pos k)
    have hb : m / 2 ^ k ≤ 1 := by
      have : m / 2 ^ k < 2 := Nat.div_lt_of_lt_mul (by rw [← pow_succ]; exact hm)
      omega
    have key : ∀ z, z ≤ 10 * 2 ^ p → 10 ^ (m / 2 ^ k) * z * 2 ^ p ≤ (10 * 2 ^ p) * (10 * 2 ^ p) := by
      intro z hz
      have h10 : 10 ^ (m / 2 ^ k) ≤ 10 := le_trans (Nat.pow_le_pow_right (by norm_num) hb) (by norm_num)
      calc 10 ^ (m / 2 ^ k) * z * 2 ^ p ≤ 10 * (10 * 2 ^ p) * 2 ^ p := by gcongr
        _ = _ := by ring
    have hstart : ∀ n, n ≤ (10 * 2 ^ p) * (10 * 2 ^ p) → n < (2 ^ (p + 4) + 1) * (2 ^ (p + 4) + 1) := by
      intro n hn
      have : 10 * 2 ^ p < 2 ^ (p + 4) + 1 := by rw [pow_add]; omega
      exact lt_of_le_of_lt hn (Nat.mul_lt_mul'' this this)
    -- the bound from the digits after the first
    have hz : ∀ up, ∃ z : Nat, z = (if m % 2 ^ k = 0 then 2 ^ p else tenRoot p up k (m % 2 ^ k)) ∧ z ≤ 10 * 2 ^ p ∧
        (up = false → (z : ℝ) ≤ 2 ^ p * 10 ^ (((m % 2 ^ k : Nat) : ℝ) / 2 ^ k)) ∧
        (up = true → 2 ^ p * 10 ^ (((m % 2 ^ k : Nat) : ℝ) / 2 ^ k) ≤ (z : ℝ)) := by
      intro up
      refine ⟨_, rfl, ?_⟩
      obtain ⟨h1, h2, h3, h4⟩ := ih _ hmod
      split
      · next h0 => simp only [h0]; refine ⟨by omega, by simp, by simp⟩
      · cases up
        · exact ⟨h3, fun _ => h1, by simp⟩
        · exact ⟨h4, by simp, fun _ => h2⟩
    have hsq : (2 ^ p * (10 : ℝ) ^ ((m : ℝ) / 2 ^ (k + 1))) ^ 2 =
        10 ^ (m / 2 ^ k) * (2 ^ p * 10 ^ (((m % 2 ^ k : Nat) : ℝ) / 2 ^ k)) * 2 ^ p := by
      rw [digit_split, mul_pow, ← ten_rpow_half]; ring
    have hpos : (0 : ℝ) ≤ 2 ^ p * (10 : ℝ) ^ ((m : ℝ) / 2 ^ (k + 1)) := by positivity
    simp only [tenRoot]
    obtain ⟨zd, ed, bd, ld, -⟩ := hz false
    obtain ⟨zu, eu, bu, -, lu⟩ := hz true
    rw [← ed, ← eu]
    have nd := hstart _ (key zd bd)
    have nu := hstart _ (key zu bu)
    have hd := isqrtTo_down nd
    obtain ⟨hu, hmin⟩ := isqrtTo_up nu
    have hmax := hmin _ (key zu bu)
    refine ⟨?_, ?_, ?_, hmax⟩
    · refine le_of_sq_le_sq ?_ hpos
      rw [hsq]
      have : ((isqrtTo false (2 ^ (p + 4)) (10 ^ (m / 2 ^ k) * zd * 2 ^ p) : ℝ)) ^ 2 ≤ 10 ^ (m / 2 ^ k) * zd * 2 ^ p := by
        rw [sq]; exact_mod_cast hd
      refine this.trans ?_
      have := ld rfl
      gcongr
    · refine le_of_sq_le_sq ?_ (Nat.cast_nonneg _)
      rw [hsq]
      have : (10 : ℝ) ^ (m / 2 ^ k) * zu * 2 ^ p ≤ ((isqrtTo true (2 ^ (p + 4)) (10 ^ (m / 2 ^ k) * zu * 2 ^ p) : ℝ)) ^ 2 := by
        rw [sq]; exact_mod_cast hu
      refine le_trans ?_ this
      have := lu rfl
      gcongr
    · by_contra hlt
      have h1 := Nat.mul_lt_mul'' (Nat.lt_of_not_le hlt) (Nat.lt_of_not_le hlt)
      have h2 := key zd bd
      omega

/-- A power of ten with a whole exponent, as a quotient of two natural numbers. -/
theorem ten_zpow (n : Int) : (10 : ℝ) ^ (n : ℝ) * 10 ^ (-n).toNat = 10 ^ n.toNat := by
  rw [Real.rpow_intCast]
  rcases le_total 0 n with h | h
  · obtain ⟨k, rfl⟩ := Int.eq_ofNat_of_zero_le h
    simp
  · obtain ⟨k, hk⟩ := Int.eq_ofNat_of_zero_le (show 0 ≤ -n by omega)
    obtain rfl : n = -(k : Int) := by omega
    simp

/-- The exponent `t / 2^k` is its floor and the rest. -/
theorem exponent_split (k : Nat) (t : Int) :
    (t : ℝ) / 2 ^ k = ((t / 2 ^ k : Int) : ℝ) + (((t % 2 ^ k).toNat : Nat) : ℝ) / 2 ^ k := by
  have hp : (0 : Int) < 2 ^ k := by positivity
  have h0 : (((t % 2 ^ k).toNat : Nat) : Int) = t % 2 ^ k := Int.toNat_of_nonneg (Int.emod_nonneg _ hp.ne')
  have h : ((2 ^ k * (t / 2 ^ k) + ((t % 2 ^ k).toNat : Nat) : Int) : ℝ) = (t : ℝ) := by
    rw [h0]; exact_mod_cast congrArg (Int.cast (R := ℝ)) (Int.mul_ediv_add_emod t (2 ^ k))
  push_cast at h
  have hp' : (0 : ℝ) < 2 ^ k := by positivity
  rw [← h]
  field_simp

/-- The lower bound is not above `2^u * 10^(t / 2^k)`, and the upper bound is not below its floor. -/
theorem tenBound_bounds (p u k : Nat) (t : Int) :
    (tenBound p false u k t : ℝ) ≤ 2 ^ u * 10 ^ ((t : ℝ) / 2 ^ k) ∧
    2 ^ u * 10 ^ ((t : ℝ) / 2 ^ k) < (tenBound p true u k t : ℝ) + 1 := by
  have hp : (0 : Int) < 2 ^ k := by positivity
  have hm : (t % 2 ^ k).toNat < 2 ^ k := by
    have h1 := Int.emod_lt_of_pos t hp
    have h2 : (((t % 2 ^ k).toNat : Nat) : Int) < ((2 ^ k : Nat) : Int) := by
      rw [Int.toNat_of_nonneg (Int.emod_nonneg _ hp.ne')]; exact_mod_cast h1
    exact_mod_cast h2
  obtain ⟨h1, h2, -, -⟩ := tenRoot_bounds p k _ hm
  have hz := ten_zpow (t / 2 ^ k)
  have hv : 2 ^ u * (10 : ℝ) ^ ((t : ℝ) / 2 ^ k) * (2 ^ p * 10 ^ (-(t / 2 ^ k)).toNat) =
      2 ^ p * 10 ^ ((((t % 2 ^ k).toNat : Nat) : ℝ) / 2 ^ k) * 10 ^ (t / 2 ^ k).toNat * 2 ^ u := by
    rw [exponent_split, Real.rpow_add (by norm_num), ← hz]; ring
  have hd : (0 : ℝ) < 2 ^ p * 10 ^ (-(t / 2 ^ k)).toNat := by positivity
  have hdN : 0 < 2 ^ p * 10 ^ (-(t / 2 ^ k)).toNat := by positivity
  constructor
  · refine le_of_mul_le_mul_right ?_ hd
    rw [hv]
    have := Nat.div_mul_le_self (tenRoot p false k (t % 2 ^ k).toNat * 10 ^ (t / 2 ^ k).toNat * 2 ^ u)
      (2 ^ p * 10 ^ (-(t / 2 ^ k)).toNat)
    have : ((tenBound p false u k t : ℝ)) * (2 ^ p * 10 ^ (-(t / 2 ^ k)).toNat) ≤
        tenRoot p false k (t % 2 ^ k).toNat * 10 ^ (t / 2 ^ k).toNat * 2 ^ u := by
      unfold tenBound; exact_mod_cast this
    refine this.trans ?_
    gcongr
  · refine lt_of_mul_lt_mul_right ?_ hd.le
    rw [hv]
    have := Nat.lt_mul_div_succ (tenRoot p true k (t % 2 ^ k).toNat * 10 ^ (t / 2 ^ k).toNat * 2 ^ u) hdN
    have : (tenRoot p true k (t % 2 ^ k).toNat : ℝ) * 10 ^ (t / 2 ^ k).toNat * 2 ^ u <
        ((tenBound p true u k t : ℝ) + 1) * (2 ^ p * 10 ^ (-(t / 2 ^ k)).toNat) := by
      rw [mul_comm ((tenBound p true u k t : ℝ) + 1)]
      unfold tenBound; exact_mod_cast this
    refine lt_of_le_of_lt ?_ this
    gcongr

/-- Both sides of the exact test, as real numbers. -/
theorem tenPower_pow (u k : Nat) (t : Int) :
    (2 ^ u * (10 : ℝ) ^ ((t : ℝ) / 2 ^ k)) ^ 2 ^ k * 10 ^ (-t).toNat = (2 ^ u) ^ 2 ^ k * 10 ^ t.toNat := by
  have hp : (0 : ℝ) < 2 ^ k := by positivity
  rw [mul_pow, ← Real.rpow_natCast ((10 : ℝ) ^ _) (2 ^ k), ← Real.rpow_mul (by norm_num)]
  rw [show (t : ℝ) / 2 ^ k * ((2 ^ k : Nat) : ℝ) = (t : ℝ) by push_cast; field_simp]
  rw [mul_assoc, ten_zpow]

/-- The exact test compares the number with the real power. -/
theorem tenReaches_iff (u k : Nat) (t : Int) (q : Nat) :
    tenReaches u k t q = true ↔ (q : ℝ) ≤ 2 ^ u * 10 ^ ((t : ℝ) / 2 ^ k) := by
  have hpos : (0 : ℝ) < 10 ^ (-t).toNat := by positivity
  rw [tenReaches, decide_eq_true_iff, ← Nat.cast_le (α := ℝ)]
  push_cast
  rw [← tenPower_pow, mul_le_mul_iff_left₀ hpos]
  exact pow_le_pow_iff_left₀ (Nat.cast_nonneg _) (by positivity) (Nat.two_pow_pos k).ne'

/-- The search ends at the floor of a number between the two bounds. -/
theorem settle_spec {ok : Nat → Bool} {v : ℝ} (hok : ∀ q, ok q = true ↔ (q : ℝ) ≤ v) (lo gap : Nat) (hlo : (lo : ℝ) ≤ v)
    (hhi : v < ((lo + gap : Nat) : ℝ) + 1) : (settle ok lo gap : ℝ) ≤ v ∧ v < (settle ok lo gap : ℝ) + 1 := by
  induction gap with
  | zero => exact ⟨hlo, by simpa [settle] using hhi⟩
  | succ gap ih =>
    simp only [settle]
    split
    · next h => exact ⟨(hok _).1 h, by simpa [← Nat.add_assoc] using hhi⟩
    · next h =>
      refine ih ?_
      have : v < ((lo + gap + 1 : Nat) : ℝ) := lt_of_not_ge fun hle => h ((hok _).2 hle)
      simpa using this

/-- `tenFloor` is the floor of `2^u * 10^(t / 2^k)`, for every number of bits of the bounds. -/
theorem tenFloor_spec (p u k : Nat) (t : Int) :
    (tenFloor p u k t : ℝ) ≤ 2 ^ u * 10 ^ ((t : ℝ) / 2 ^ k) ∧
    2 ^ u * 10 ^ ((t : ℝ) / 2 ^ k) < (tenFloor p u k t : ℝ) + 1 := by
  obtain ⟨h1, h2⟩ := tenBound_bounds p u k t
  refine settle_spec (tenReaches_iff u k t) _ _ h1 (h2.trans_le ?_)
  have : tenBound p true u k t ≤
      tenBound p false u k t + (tenBound p true u k t - tenBound p false u k t) := by omega
  have : (tenBound p true u k t : ℝ) ≤
      ((tenBound p false u k t + (tenBound p true u k t - tenBound p false u k t) : Nat) : ℝ) := by exact_mod_cast this
  linarith

/-- `2^u * 10^(t / 2^k)` is a whole number only when the exponent is a whole number of at least 0. -/
theorem tenPower_whole {u k q : Nat} {t : Int} (h : (q : ℝ) = 2 ^ u * 10 ^ ((t : ℝ) / 2 ^ k)) :
    0 ≤ t ∧ t % 2 ^ k = 0 := by
  have hN : q ^ 2 ^ k * 10 ^ (-t).toNat = (2 ^ u) ^ 2 ^ k * 10 ^ t.toNat := by
    have := tenPower_pow u k t
    rw [← h] at this
    exact_mod_cast this
  have hq : q ≠ 0 := by
    rintro rfl
    have : (0 : ℝ) < 2 ^ u * 10 ^ ((t : ℝ) / 2 ^ k) := by positivity
    rw [← h] at this; simp at this
  have h5 : 2 ^ k * q.factorization 5 + (-t).toNat = t.toNat := by
    have := congrArg (fun n => n.factorization 5) hN
    have e10 : (Nat.factorization 10) 5 = 1 := by
      rw [show (10 : Nat) = 2 * 5 by norm_num, Nat.factorization_mul (by norm_num) (by norm_num)]
      simp [Nat.Prime.factorization Nat.prime_two, Nat.Prime.factorization Nat.prime_five]
    simp only [Nat.factorization_mul (pow_ne_zero _ hq) (pow_ne_zero _ (by norm_num : (10 : Nat) ≠ 0)),
      Nat.factorization_mul (pow_ne_zero _ (pow_ne_zero _ (by norm_num : (2 : Nat) ≠ 0)))
        (pow_ne_zero _ (by norm_num : (10 : Nat) ≠ 0)), Nat.factorization_pow, Finsupp.add_apply, Finsupp.smul_apply,
      smul_eq_mul, e10, Nat.Prime.factorization Nat.prime_two] at this
    simpa using this
  have h0 : 0 ≤ t := by
    by_contra hneg
    have : (-t).toNat ≠ 0 := by omega
    have : t.toNat = 0 := by omega
    omega
  refine ⟨h0, ?_⟩
  have e : t = 2 ^ k * (q.factorization 5 : Int) := by
    have e1 : (-t).toNat = 0 := by omega
    have e2 : ((t.toNat : Nat) : Int) = t := Int.toNat_of_nonneg h0
    rw [← e2, ← h5, e1]; push_cast; ring
  rw [e]; exact Int.mul_emod_right _ _

/-- With an exponent that is a whole number of at least 0, `tenFloor` is the power itself. -/
theorem tenFloor_whole (p u k : Nat) {t : Int} (h0 : 0 ≤ t) (h : t % 2 ^ k = 0) :
    (tenFloor p u k t : ℝ) = 2 ^ u * 10 ^ ((t : ℝ) / 2 ^ k) := by
  obtain ⟨n, hn⟩ := Int.eq_ofNat_of_zero_le (Int.ediv_nonneg h0 (by positivity : (0 : Int) ≤ 2 ^ k))
  have hv : 2 ^ u * (10 : ℝ) ^ ((t : ℝ) / 2 ^ k) = ((2 ^ u * 10 ^ n : Nat) : ℝ) := by
    rw [exponent_split, h, hn]; simp
  obtain ⟨h1, h2⟩ := tenFloor_spec p u k t
  rw [hv] at h1 h2 ⊢
  have h1' : tenFloor p u k t ≤ 2 ^ u * 10 ^ n := by exact_mod_cast h1
  have h2' : 2 ^ u * 10 ^ n < tenFloor p u k t + 1 := by exact_mod_cast h2
  exact_mod_cast Nat.le_antisymm h1' (Nat.lt_succ_iff.1 h2')

/-- Which of two numbers is nearer is which side of the middle between them. -/
theorem abs_sub_lt_iff_middle (a b v : ℝ) : |a - v| < |b - v| ↔ 0 < (b - a) * (a + b - 2 * v) := by
  rw [← sq_lt_sq, ← sub_pos]; ring_nf

/-- Two numbers are as near when the number stands in their middle, or they are one. -/
theorem abs_sub_eq_iff_middle (a b v : ℝ) : |a - v| = |b - v| ↔ (b - a) * (a + b - 2 * v) = 0 := by
  rw [← sq_eq_sq_iff_abs_eq_abs, ← sub_eq_zero, ← neg_eq_zero]; ring_nf

/-- The natural-number comparison of `NearestEven` is that of `NearestEvenReal` at `m / 2^j`. -/
theorem nearestEvenReal_of_nearestEven {f : FFmt} {m j r : Nat} (h : NearestEven f m j r) :
    NearestEvenReal f ((m : ℝ) / 2 ^ j) r := by
  refine ⟨h.1, fun x hx hne => ?_⟩
  have e : ∀ y : Nat, ((((y : Int) * 2 ^ j - m).natAbs : Nat) : ℝ) = |(y : ℝ) - (m : ℝ) / 2 ^ j| * 2 ^ j := by
    intro y
    have hp : (0 : ℝ) < 2 ^ j := by positivity
    rw [Nat.cast_natAbs, Int.cast_abs, ← abs_of_pos hp, ← abs_mul, abs_of_pos hp]
    push_cast
    rw [sub_mul, div_mul_cancel₀ _ hp.ne']
  have hp : (0 : ℝ) < 2 ^ j := by positivity
  rcases h.2 x hx hne with hlt | ⟨heq, hd⟩
  · left
    have : ((((r : Int) * 2 ^ j - m).natAbs : Nat) : ℝ) < ((((x : Int) * 2 ^ j - m).natAbs : Nat) : ℝ) := by
      exact_mod_cast hlt
    rw [e, e] at this
    exact lt_of_mul_lt_mul_right this hp.le
  · right
    refine ⟨?_, hd⟩
    have := congrArg (Nat.cast (R := ℝ)) heq
    rw [e, e] at this
    exact mul_right_cancel₀ hp.ne' this

/-- A sticky bit stands for the rest: what rounds the middle of a quarter unit rounds every number inside that quarter. -/
theorem nearestEvenReal_of_sticky {f : FFmt} {v : ℝ} {q r : Nat} (h1 : (q : ℝ) < 4 * v) (h2 : 4 * v < q + 1)
    (h : NearestEvenReal f (((2 * q + 1 : Nat) : ℝ) / 2 ^ 3) r) : NearestEvenReal f v r := by
  refine ⟨h.1, fun x hx hne => Or.inl ?_⟩
  have hz : ∀ n : Int, (n : ℝ) * 2 - (2 * q + 1) ≠ 0 ∧ (0 < (n : ℝ) * 2 - (2 * q + 1) → 0 < (n : ℝ) - 4 * v) ∧
      ((n : ℝ) * 2 - (2 * q + 1) < 0 → (n : ℝ) - 4 * v < 0) := by
    intro n
    rcases lt_or_ge (q : Int) n with hn | hn
    · have : (q : ℝ) + 1 ≤ n := by exact_mod_cast hn
      exact ⟨by linarith, fun _ => by linarith, fun _ => by linarith⟩
    · have : (n : ℝ) ≤ q := by exact_mod_cast hn
      exact ⟨by linarith, fun _ => by linarith, fun _ => by linarith⟩
  obtain ⟨n0, n1, n2⟩ := hz (2 * (x + r))
  push_cast at n0 n1 n2
  have hxr : (x : ℝ) - r ≠ 0 := sub_ne_zero.2 (by exact_mod_cast hne)
  have key := h.2 x hx hne
  rw [abs_sub_lt_iff_middle, abs_sub_eq_iff_middle] at key
  rw [abs_sub_lt_iff_middle]
  have e : ((r : ℝ) + x - 2 * (((2 * q + 1 : Nat) : ℝ) / 2 ^ 3)) = (2 * (x + r) * 2 - (2 * q + 1)) / 4 := by push_cast; ring
  rw [e] at key
  rcases key with hpos | ⟨h0, -⟩
  · rcases lt_or_gt_of_ne hxr with hneg | hp
    · have h4 : (2 * ((x : ℝ) + r) * 2 - (2 * q + 1)) / 4 < 0 := by
        exact lt_of_not_ge fun hc => by nlinarith
      have := n2 (by linarith)
      nlinarith
    · have h4 : 0 < (2 * ((x : ℝ) + r) * 2 - (2 * q + 1)) / 4 := by
        exact lt_of_not_ge fun hc => by nlinarith
      have := n1 (by linarith)
      nlinarith
  · rcases mul_eq_zero.1 h0 with h0 | h0
    · exact absurd h0 hxr
    · exact absurd (by linarith) n0

end Sys2Proof.Machine
end

