-- ==== Sys2Proof/Laws/State.lean ====
section
/-! SUPPORT. What each named update of the state leaves in each field; every lemma is true by definition, so that no later
proof unfolds an update. -/

namespace Sys2Proof.Machine

variable (s : State)

@[simp] theorem raise_opa (code : ErrCode) : (raise code s).opa = s.opa := rfl
@[simp] theorem raise_opb (code : ErrCode) : (raise code s).opb = s.opb := rfl
@[simp] theorem raise_opc (code : ErrCode) : (raise code s).opc = s.opc := rfl
@[simp] theorem raise_res0 (code : ErrCode) : (raise code s).res0 = s.res0 := rfl
@[simp] theorem raise_res1 (code : ErrCode) : (raise code s).res1 = s.res1 := rfl
@[simp] theorem raise_ovf (code : ErrCode) : (raise code s).ovf = s.ovf := rfl
@[simp] theorem raise_cont (code : ErrCode) : (raise code s).cont = s.cont := rfl
@[simp] theorem raise_povf (code : ErrCode) : (raise code s).povf = s.povf := rfl
@[simp] theorem raise_life (code : ErrCode) : (raise code s).life = s.life := rfl
@[simp] theorem raise_err (code : ErrCode) : (raise code s).err = code := rfl
@[simp] theorem raise_lfoPhase (code : ErrCode) : (raise code s).lfoPhase = s.lfoPhase := rfl
@[simp] theorem raise_tailLevel (code : ErrCode) : (raise code s).tailLevel = s.tailLevel := rfl
@[simp] theorem raise_dcs (code : ErrCode) : (raise code s).dcs = s.dcs := rfl
@[simp] theorem raise_param (code : ErrCode) : (raise code s).param = s.param := rfl
@[simp] theorem raise_coef (code : ErrCode) : (raise code s).coef = s.coef := rfl
@[simp] theorem raise_staged (code : ErrCode) : (raise code s).staged = s.staged := rfl
@[simp] theorem raise_pipe (code : ErrCode) : (raise code s).pipe = s.pipe := rfl
@[simp] theorem raise_pool (code : ErrCode) : (raise code s).pool = s.pool := rfl
@[simp] theorem raise_port (code : ErrCode) : (raise code s).port = s.port := rfl
@[simp] theorem raise_build (code : ErrCode) : (raise code s).build = s.build := rfl

@[simp] theorem clearErr_opa : (clearErr s).opa = s.opa := rfl
@[simp] theorem clearErr_opb : (clearErr s).opb = s.opb := rfl
@[simp] theorem clearErr_opc : (clearErr s).opc = s.opc := rfl
@[simp] theorem clearErr_res0 : (clearErr s).res0 = s.res0 := rfl
@[simp] theorem clearErr_res1 : (clearErr s).res1 = s.res1 := rfl
@[simp] theorem clearErr_ovf : (clearErr s).ovf = s.ovf := rfl
@[simp] theorem clearErr_cont : (clearErr s).cont = s.cont := rfl
@[simp] theorem clearErr_povf : (clearErr s).povf = s.povf := rfl
@[simp] theorem clearErr_life : (clearErr s).life = s.life := rfl
@[simp] theorem clearErr_err : (clearErr s).err = .none := rfl
@[simp] theorem clearErr_lfoPhase : (clearErr s).lfoPhase = s.lfoPhase := rfl
@[simp] theorem clearErr_tailLevel : (clearErr s).tailLevel = s.tailLevel := rfl
@[simp] theorem clearErr_dcs : (clearErr s).dcs = s.dcs := rfl
@[simp] theorem clearErr_param : (clearErr s).param = s.param := rfl
@[simp] theorem clearErr_coef : (clearErr s).coef = s.coef := rfl
@[simp] theorem clearErr_staged : (clearErr s).staged = s.staged := rfl
@[simp] theorem clearErr_pipe : (clearErr s).pipe = s.pipe := rfl
@[simp] theorem clearErr_pool : (clearErr s).pool = s.pool := rfl
@[simp] theorem clearErr_port : (clearErr s).port = s.port := rfl
@[simp] theorem clearErr_build : (clearErr s).build = s.build := rfl

@[simp] theorem setResult_opa (r : Sat) : (setResult r s).opa = s.opa := rfl
@[simp] theorem setResult_opb (r : Sat) : (setResult r s).opb = s.opb := rfl
@[simp] theorem setResult_opc (r : Sat) : (setResult r s).opc = s.opc := rfl
@[simp] theorem setResult_res0 (r : Sat) : (setResult r s).res0 = w32 r.value := rfl
@[simp] theorem setResult_res1 (r : Sat) : (setResult r s).res1 = s.res1 := rfl
@[simp] theorem setResult_ovf (r : Sat) : (setResult r s).ovf = r.ov := rfl
@[simp] theorem setResult_cont (r : Sat) : (setResult r s).cont = s.cont := rfl
@[simp] theorem setResult_povf (r : Sat) : (setResult r s).povf = s.povf := rfl
@[simp] theorem setResult_life (r : Sat) : (setResult r s).life = s.life := rfl
@[simp] theorem setResult_err (r : Sat) : (setResult r s).err = s.err := rfl
@[simp] theorem setResult_lfoPhase (r : Sat) : (setResult r s).lfoPhase = s.lfoPhase := rfl
@[simp] theorem setResult_tailLevel (r : Sat) : (setResult r s).tailLevel = s.tailLevel := rfl
@[simp] theorem setResult_dcs (r : Sat) : (setResult r s).dcs = s.dcs := rfl
@[simp] theorem setResult_param (r : Sat) : (setResult r s).param = s.param := rfl
@[simp] theorem setResult_coef (r : Sat) : (setResult r s).coef = s.coef := rfl
@[simp] theorem setResult_staged (r : Sat) : (setResult r s).staged = s.staged := rfl
@[simp] theorem setResult_pipe (r : Sat) : (setResult r s).pipe = s.pipe := rfl
@[simp] theorem setResult_pool (r : Sat) : (setResult r s).pool = s.pool := rfl
@[simp] theorem setResult_port (r : Sat) : (setResult r s).port = s.port := rfl
@[simp] theorem setResult_build (r : Sat) : (setResult r s).build = s.build := rfl

@[simp] theorem setRes0_opa (w : Word) : (setRes0 w s).opa = s.opa := rfl
@[simp] theorem setRes0_opb (w : Word) : (setRes0 w s).opb = s.opb := rfl
@[simp] theorem setRes0_opc (w : Word) : (setRes0 w s).opc = s.opc := rfl
@[simp] theorem setRes0_res0 (w : Word) : (setRes0 w s).res0 = w := rfl
@[simp] theorem setRes0_res1 (w : Word) : (setRes0 w s).res1 = s.res1 := rfl
@[simp] theorem setRes0_ovf (w : Word) : (setRes0 w s).ovf = s.ovf := rfl
@[simp] theorem setRes0_cont (w : Word) : (setRes0 w s).cont = s.cont := rfl
@[simp] theorem setRes0_povf (w : Word) : (setRes0 w s).povf = s.povf := rfl
@[simp] theorem setRes0_life (w : Word) : (setRes0 w s).life = s.life := rfl
@[simp] theorem setRes0_err (w : Word) : (setRes0 w s).err = s.err := rfl
@[simp] theorem setRes0_lfoPhase (w : Word) : (setRes0 w s).lfoPhase = s.lfoPhase := rfl
@[simp] theorem setRes0_tailLevel (w : Word) : (setRes0 w s).tailLevel = s.tailLevel := rfl
@[simp] theorem setRes0_dcs (w : Word) : (setRes0 w s).dcs = s.dcs := rfl
@[simp] theorem setRes0_param (w : Word) : (setRes0 w s).param = s.param := rfl
@[simp] theorem setRes0_coef (w : Word) : (setRes0 w s).coef = s.coef := rfl
@[simp] theorem setRes0_staged (w : Word) : (setRes0 w s).staged = s.staged := rfl
@[simp] theorem setRes0_pipe (w : Word) : (setRes0 w s).pipe = s.pipe := rfl
@[simp] theorem setRes0_pool (w : Word) : (setRes0 w s).pool = s.pool := rfl
@[simp] theorem setRes0_port (w : Word) : (setRes0 w s).port = s.port := rfl
@[simp] theorem setRes0_build (w : Word) : (setRes0 w s).build = s.build := rfl

@[simp] theorem setRead_opa (r : Word × Bool) : (setRead r s).opa = s.opa := rfl
@[simp] theorem setRead_opb (r : Word × Bool) : (setRead r s).opb = s.opb := rfl
@[simp] theorem setRead_opc (r : Word × Bool) : (setRead r s).opc = s.opc := rfl
@[simp] theorem setRead_res0 (r : Word × Bool) : (setRead r s).res0 = r.1 := rfl
@[simp] theorem setRead_res1 (r : Word × Bool) : (setRead r s).res1 = s.res1 := rfl
@[simp] theorem setRead_ovf (r : Word × Bool) : (setRead r s).ovf = s.ovf := rfl
@[simp] theorem setRead_cont (r : Word × Bool) : (setRead r s).cont = r.2 := rfl
@[simp] theorem setRead_povf (r : Word × Bool) : (setRead r s).povf = s.povf := rfl
@[simp] theorem setRead_life (r : Word × Bool) : (setRead r s).life = s.life := rfl
@[simp] theorem setRead_err (r : Word × Bool) : (setRead r s).err = s.err := rfl
@[simp] theorem setRead_lfoPhase (r : Word × Bool) : (setRead r s).lfoPhase = s.lfoPhase := rfl
@[simp] theorem setRead_tailLevel (r : Word × Bool) : (setRead r s).tailLevel = s.tailLevel := rfl
@[simp] theorem setRead_dcs (r : Word × Bool) : (setRead r s).dcs = s.dcs := rfl
@[simp] theorem setRead_param (r : Word × Bool) : (setRead r s).param = s.param := rfl
@[simp] theorem setRead_coef (r : Word × Bool) : (setRead r s).coef = s.coef := rfl
@[simp] theorem setRead_staged (r : Word × Bool) : (setRead r s).staged = s.staged := rfl
@[simp] theorem setRead_pipe (r : Word × Bool) : (setRead r s).pipe = s.pipe := rfl
@[simp] theorem setRead_pool (r : Word × Bool) : (setRead r s).pool = s.pool := rfl
@[simp] theorem setRead_port (r : Word × Bool) : (setRead r s).port = s.port := rfl
@[simp] theorem setRead_build (r : Word × Bool) : (setRead r s).build = s.build := rfl

@[simp] theorem clearPipeline_opa : (clearPipeline s).opa = s.opa := rfl
@[simp] theorem clearPipeline_opb : (clearPipeline s).opb = s.opb := rfl
@[simp] theorem clearPipeline_opc : (clearPipeline s).opc = s.opc := rfl
@[simp] theorem clearPipeline_res0 : (clearPipeline s).res0 = s.res0 := rfl
@[simp] theorem clearPipeline_res1 : (clearPipeline s).res1 = s.res1 := rfl
@[simp] theorem clearPipeline_ovf : (clearPipeline s).ovf = s.ovf := rfl
@[simp] theorem clearPipeline_cont : (clearPipeline s).cont = s.cont := rfl
@[simp] theorem clearPipeline_povf : (clearPipeline s).povf = s.povf := rfl
@[simp] theorem clearPipeline_life : (clearPipeline s).life = s.life := rfl
@[simp] theorem clearPipeline_err : (clearPipeline s).err = s.err := rfl
@[simp] theorem clearPipeline_lfoPhase : (clearPipeline s).lfoPhase = 0#32 := rfl
@[simp] theorem clearPipeline_tailLevel : (clearPipeline s).tailLevel = 0#32 := rfl
@[simp] theorem clearPipeline_dcs : (clearPipeline s).dcs = s.dcs := rfl
@[simp] theorem clearPipeline_param : (clearPipeline s).param = s.param := rfl
@[simp] theorem clearPipeline_coef : (clearPipeline s).coef = s.coef := rfl
@[simp] theorem clearPipeline_staged : (clearPipeline s).staged = s.staged := rfl
@[simp] theorem clearPipeline_pipe : (clearPipeline s).pipe = clearPipe s.pipe := rfl
@[simp] theorem clearPipeline_pool : (clearPipeline s).pool = s.pool := rfl
@[simp] theorem clearPipeline_port : (clearPipeline s).port = s.port := rfl
@[simp] theorem clearPipeline_build : (clearPipeline s).build = s.build := rfl

@[simp] theorem reply_opa (w : Word) : (reply w s).opa = s.opa := rfl
@[simp] theorem reply_opb (w : Word) : (reply w s).opb = s.opb := rfl
@[simp] theorem reply_opc (w : Word) : (reply w s).opc = s.opc := rfl
@[simp] theorem reply_res0 (w : Word) : (reply w s).res0 = s.res0 := rfl
@[simp] theorem reply_res1 (w : Word) : (reply w s).res1 = s.res1 := rfl
@[simp] theorem reply_ovf (w : Word) : (reply w s).ovf = s.ovf := rfl
@[simp] theorem reply_cont (w : Word) : (reply w s).cont = s.cont := rfl
@[simp] theorem reply_povf (w : Word) : (reply w s).povf = s.povf := rfl
@[simp] theorem reply_life (w : Word) : (reply w s).life = s.life := rfl
@[simp] theorem reply_err (w : Word) : (reply w s).err = s.err := rfl
@[simp] theorem reply_lfoPhase (w : Word) : (reply w s).lfoPhase = s.lfoPhase := rfl
@[simp] theorem reply_tailLevel (w : Word) : (reply w s).tailLevel = s.tailLevel := rfl
@[simp] theorem reply_dcs (w : Word) : (reply w s).dcs = s.dcs := rfl
@[simp] theorem reply_param (w : Word) : (reply w s).param = s.param := rfl
@[simp] theorem reply_coef (w : Word) : (reply w s).coef = s.coef := rfl
@[simp] theorem reply_staged (w : Word) : (reply w s).staged = s.staged := rfl
@[simp] theorem reply_pipe (w : Word) : (reply w s).pipe = s.pipe := rfl
@[simp] theorem reply_pool (w : Word) : (reply w s).pool = s.pool := rfl
@[simp] theorem reply_port (w : Word) : (reply w s).port = { s.port with replies := s.port.replies ++ [w] } := rfl
@[simp] theorem reply_build (w : Word) : (reply w s).build = s.build := rfl

@[simp] theorem sampleInj_opa (b : Bool) : (sampleInj b s).opa = s.opa := rfl
@[simp] theorem sampleInj_opb (b : Bool) : (sampleInj b s).opb = s.opb := rfl
@[simp] theorem sampleInj_opc (b : Bool) : (sampleInj b s).opc = s.opc := rfl
@[simp] theorem sampleInj_res0 (b : Bool) : (sampleInj b s).res0 = s.res0 := rfl
@[simp] theorem sampleInj_res1 (b : Bool) : (sampleInj b s).res1 = s.res1 := rfl
@[simp] theorem sampleInj_ovf (b : Bool) : (sampleInj b s).ovf = s.ovf := rfl
@[simp] theorem sampleInj_cont (b : Bool) : (sampleInj b s).cont = s.cont := rfl
@[simp] theorem sampleInj_povf (b : Bool) : (sampleInj b s).povf = s.povf := rfl
@[simp] theorem sampleInj_life (b : Bool) : (sampleInj b s).life = s.life := rfl
@[simp] theorem sampleInj_err (b : Bool) : (sampleInj b s).err = s.err := rfl
@[simp] theorem sampleInj_lfoPhase (b : Bool) : (sampleInj b s).lfoPhase = s.lfoPhase := rfl
@[simp] theorem sampleInj_tailLevel (b : Bool) : (sampleInj b s).tailLevel = s.tailLevel := rfl
@[simp] theorem sampleInj_dcs (b : Bool) : (sampleInj b s).dcs = s.dcs := rfl
@[simp] theorem sampleInj_param (b : Bool) : (sampleInj b s).param = s.param := rfl
@[simp] theorem sampleInj_coef (b : Bool) : (sampleInj b s).coef = s.coef := rfl
@[simp] theorem sampleInj_staged (b : Bool) : (sampleInj b s).staged = s.staged := rfl
@[simp] theorem sampleInj_pipe (b : Bool) : (sampleInj b s).pipe = s.pipe := rfl
@[simp] theorem sampleInj_pool (b : Bool) : (sampleInj b s).pool = s.pool := rfl
@[simp] theorem sampleInj_port (b : Bool) : (sampleInj b s).port = { s.port with inj := b } := rfl
@[simp] theorem sampleInj_build (b : Bool) : (sampleInj b s).build = s.build := rfl

@[simp] theorem withQueue_opa (q : List PortEvent) : (withQueue q s).opa = s.opa := rfl
@[simp] theorem withQueue_opb (q : List PortEvent) : (withQueue q s).opb = s.opb := rfl
@[simp] theorem withQueue_opc (q : List PortEvent) : (withQueue q s).opc = s.opc := rfl
@[simp] theorem withQueue_res0 (q : List PortEvent) : (withQueue q s).res0 = s.res0 := rfl
@[simp] theorem withQueue_res1 (q : List PortEvent) : (withQueue q s).res1 = s.res1 := rfl
@[simp] theorem withQueue_ovf (q : List PortEvent) : (withQueue q s).ovf = s.ovf := rfl
@[simp] theorem withQueue_cont (q : List PortEvent) : (withQueue q s).cont = s.cont := rfl
@[simp] theorem withQueue_povf (q : List PortEvent) : (withQueue q s).povf = s.povf := rfl
@[simp] theorem withQueue_life (q : List PortEvent) : (withQueue q s).life = s.life := rfl
@[simp] theorem withQueue_err (q : List PortEvent) : (withQueue q s).err = s.err := rfl
@[simp] theorem withQueue_lfoPhase (q : List PortEvent) : (withQueue q s).lfoPhase = s.lfoPhase := rfl
@[simp] theorem withQueue_tailLevel (q : List PortEvent) : (withQueue q s).tailLevel = s.tailLevel := rfl
@[simp] theorem withQueue_dcs (q : List PortEvent) : (withQueue q s).dcs = s.dcs := rfl
@[simp] theorem withQueue_param (q : List PortEvent) : (withQueue q s).param = s.param := rfl
@[simp] theorem withQueue_coef (q : List PortEvent) : (withQueue q s).coef = s.coef := rfl
@[simp] theorem withQueue_staged (q : List PortEvent) : (withQueue q s).staged = s.staged := rfl
@[simp] theorem withQueue_pipe (q : List PortEvent) : (withQueue q s).pipe = s.pipe := rfl
@[simp] theorem withQueue_pool (q : List PortEvent) : (withQueue q s).pool = s.pool := rfl
@[simp] theorem withQueue_port (q : List PortEvent) : (withQueue q s).port = { s.port with queue := q } := rfl
@[simp] theorem withQueue_build (q : List PortEvent) : (withQueue q s).build = s.build := rfl

@[simp] theorem driveRst_opa (b : Bool) : (driveRst b s).opa = s.opa := rfl
@[simp] theorem driveRst_opb (b : Bool) : (driveRst b s).opb = s.opb := rfl
@[simp] theorem driveRst_opc (b : Bool) : (driveRst b s).opc = s.opc := rfl
@[simp] theorem driveRst_res0 (b : Bool) : (driveRst b s).res0 = s.res0 := rfl
@[simp] theorem driveRst_res1 (b : Bool) : (driveRst b s).res1 = s.res1 := rfl
@[simp] theorem driveRst_ovf (b : Bool) : (driveRst b s).ovf = s.ovf := rfl
@[simp] theorem driveRst_cont (b : Bool) : (driveRst b s).cont = s.cont := rfl
@[simp] theorem driveRst_povf (b : Bool) : (driveRst b s).povf = s.povf := rfl
@[simp] theorem driveRst_life (b : Bool) : (driveRst b s).life = s.life := rfl
@[simp] theorem driveRst_err (b : Bool) : (driveRst b s).err = s.err := rfl
@[simp] theorem driveRst_lfoPhase (b : Bool) : (driveRst b s).lfoPhase = s.lfoPhase := rfl
@[simp] theorem driveRst_tailLevel (b : Bool) : (driveRst b s).tailLevel = s.tailLevel := rfl
@[simp] theorem driveRst_dcs (b : Bool) : (driveRst b s).dcs = s.dcs := rfl
@[simp] theorem driveRst_param (b : Bool) : (driveRst b s).param = s.param := rfl
@[simp] theorem driveRst_coef (b : Bool) : (driveRst b s).coef = s.coef := rfl
@[simp] theorem driveRst_staged (b : Bool) : (driveRst b s).staged = s.staged := rfl
@[simp] theorem driveRst_pipe (b : Bool) : (driveRst b s).pipe = s.pipe := rfl
@[simp] theorem driveRst_pool (b : Bool) : (driveRst b s).pool = s.pool := rfl
@[simp] theorem driveRst_port (b : Bool) : (driveRst b s).port = { s.port with rst := b } := rfl
@[simp] theorem driveRst_build (b : Bool) : (driveRst b s).build = s.build := rfl

@[simp] theorem powerOn_port (b : Build) (p : Port) : (State.powerOn b p).port = p := rfl
@[simp] theorem powerOn_build (b : Build) (p : Port) : (State.powerOn b p).build = b := rfl

end Sys2Proof.Machine
end

