-- ==== Sys2Proof/Laws/Step.lean ====
section
/-! SUPPORT. What one step does, by the kind of the port's first event; and that a bus access names its register. Later
proofs cite these and do not unfold `step` or `perform`. -/

namespace Sys2Proof.Machine

/-- With no event, nothing happens (R144). -/
theorem step_of_idle {s : State} (hq : s.port.queue = []) : step s = .next s := by
  unfold step; rw [hq]

/-- A step is its first event, performed on the state without it. -/
theorem step_of_event {s : State} {e : PortEvent} {rest : List PortEvent} (hq : s.port.queue = e :: rest) :
    step s = perform e (withQueue rest s) := by
  unfold step; rw [hq]

theorem perform_write {s : State} (off : BitVec 8) (size : Nat) (v : Word) (j : Bool) (hr : s.port.rst = false) :
    perform (.write off size v j) s = match busWrite off size v (sampleInj j s) with
      | .done t => .next t
      | .command w => execute w (sampleInj j s) := by
  simp only [perform, hr]
  rfl

theorem perform_read {s : State} (off : BitVec 8) (size : Nat) (hr : s.port.rst = false) :
    perform (.read off size) s = .next (reply (busRead off size s).2 (busRead off size s).1) := by
  simp only [perform, hr]
  rfl

/-- A write is `busWrite`, and the command it runs, if any (R42). -/
theorem step_of_write {s : State} {off : BitVec 8} {size : Nat} {v : Word} {j : Bool} {rest : List PortEvent}
    (hr : s.port.rst = false) (hq : s.port.queue = .write off size v j :: rest) :
    step s = match busWrite off size v (popped s rest j) with
      | .done t => .next t
      | .command w => execute w (popped s rest j) := by
  rw [step_of_event hq, perform_write (s := withQueue rest s) off size v j hr]
  rfl

/-- A read is `busRead`, and its answer (R40). -/
theorem step_of_read {s : State} {off : BitVec 8} {size : Nat} {rest : List PortEvent}
    (hr : s.port.rst = false) (hq : s.port.queue = .read off size :: rest) :
    step s = .next (reply (busRead off size (withQueue rest s)).2
      (busRead off size (withQueue rest s)).1) := by
  rw [step_of_event hq, perform_read (s := withQueue rest s) off size hr]

/-- While `rst` is asserted an access is ignored (R145). -/
theorem step_in_reset {s : State} {e : PortEvent} {rest : List PortEvent} (hr : s.port.rst = true)
    (hq : s.port.queue = e :: rest) (he : ∀ b, e ≠ .rst b) :
    step s = .next (withQueue rest s) := by
  rw [step_of_event hq]
  cases e with
  | read off size => exact if_pos hr
  | write off size v j => exact if_pos hr
  | rst b => exact absurd rfl (he b)

/-- A run takes its first step first. -/
theorem stepMany_succ {s t : State} (n : Nat) (h : step s = .next t) : stepMany (n + 1) s = stepMany n t := by
  simp only [stepMany, h]

/-- What a register reads as does not depend on the port. -/
theorem readReg_port (s : State) (p : Port) (r : Reg) : readReg { s with port := p } r = readReg s r := by
  cases r <;> rfl

/-- The offset of a register is a byte offset of the window, aligned to a word (R12). -/
theorem regOffset_lt (r : Reg) : regOffset r < 256 ∧ regOffset r % 4 = 0 := by
  cases r <;> simp only [regOffset] <;> first | decide | omega

/-- The register at a register's offset is that register (R12). -/
theorem regAt_regOffset (r : Reg) : regAt (BitVec.ofNat 8 (regOffset r)) = some r := by
  cases r <;> first | decide | (rename_i k; fin_cases k <;> decide)

/-- A 4-byte access at a register's offset is well formed (R37). -/
theorem accessWellFormed_regOffset (r : Reg) : AccessWellFormed (BitVec.ofNat 8 (regOffset r)) 4 := by
  cases r <;> first | decide | (rename_i k; fin_cases k <;> decide)

/-- A 4-byte write at a register's offset has that register's effect (R42). -/
theorem busWrite_regOffset (r : Reg) (v : Word) (s : State) :
    busWrite (BitVec.ofNat 8 (regOffset r)) 4 v s = writeReg v s r := by
  rw [busWrite, if_pos (accessWellFormed_regOffset r), regAt_regOffset]

/-- A 4-byte read at a register's offset returns that register and changes no state (R40). -/
theorem busRead_regOffset (r : Reg) (s : State) :
    busRead (BitVec.ofNat 8 (regOffset r)) 4 s = (s, readReg s r) := by
  rw [busRead, if_pos (accessWellFormed_regOffset r), regAt_regOffset]

/-- A step that takes a `SET` has the register's effect (R62). -/
theorem step_of_setReg {s : State} {r : Reg} {v : Word} {j : Bool} {rest : List PortEvent}
    (hr : s.port.rst = false) (hq : s.port.queue = setReg r v j :: rest) :
    step s = match writeReg v (popped s rest j) r with
      | .done t => .next t
      | .command w => execute w (popped s rest j) := by
  rw [step_of_write hr hq, busWrite_regOffset]

/-- One step of a run is a step. -/
theorem stepMany_one (s : State) : stepMany 1 s = step s := by
  simp only [stepMany]; cases step s <;> rfl

/-- Every command answers a next state: no command stops the core (R127, R135). -/
theorem exec_answers_next (i : Instr) (s : State) : ∃ t, exec i s = .next t := by
  cases i <;> try exact ⟨_, rfl⟩
  simp only [exec, execPrepare]
  split <;> exact ⟨_, rfl⟩

end Sys2Proof.Machine
end

