-- ==== Sys2Proof/Tests/Slice0.lean ====
section
/-! SUPPORT. Tests on fixed values: ill-formed syntax refused, every command decoded from a word written out from R58, spec
vectors of 95_test_vectors.md one step each, and for every obligation with hypotheses a concrete input that meets them. -/

namespace Sys2Proof.Tests

open Sys2Proof.Machine

-- One test at a time: tests that wait for the kernel side by side each hold a thread and its stack.
set_option Elab.async false

/-- What a step leaves in the part `f` of the state. -/
def left {α : Type} (f : State → α) : Result → Option α
  | .next t => some (f t)
  | .fault _ => none
  | .refused _ => none

/-- A step that runs the command word `w` on `s`. -/
def run (w : Nat) (s : State) : Result := step (s.withFetchWord 32 w)

/-- The reset state of a core whose pool has `n` words, with the pool's contents and cursor given. -/
def withPool (n : Nat) (m : Memory) (cur : Nat) : State :=
  { State.reset with build := { Build.reference with poolReq := n }, pool := { mem := m, cur := cur } }

/-- Dry only, as in V-PROC-2: MIX_WET = 0, MIX_DRY = 4096, every line inactive. -/
def dry (l r : Word) : State :=
  { State.reset with opa := l, opb := r, coef := { Coeffs.reset with mixDry := 4096#32 } }

/-- The staged lengths of V-CTL: one pre-delay length, one length for ER[7], COMB[3] and AP[1]; every other is 0. -/
def staged (pd er comb ap : Word) : Lengths :=
  { pd := pd, er := #v[0#32, 0#32, 0#32, 0#32, 0#32, 0#32, 0#32, er], comb := #v[0#32, 0#32, 0#32, comb],
    ap := #v[0#32, ap] }

/-- A core in use: STATE 2, words in the pool (of 8) and in the pre-delay line, accumulators not 0. -/
def busy : State :=
  { withPool 8 [(0, 10#32), (3, 0xFFFFFFFF#32)] 4 with
    life := .processing, lfoPhase := 0x40C90FDA#32, tailLevel := 0x43010000#32,
    pipe := { Pipe.reset with
      pd := { active := 4#32, widx := 3#32, buf := [(0, 524287#32), (2, 0xFFF80000#32)] },
      er := Pipe.reset.er.set 0 { active := 1#32, widx := 1#32, buf := [(0, 5#32)] },
      dmpL := 524287#32, dmpR := 524287#32 } }

/-! ### Ill-formed syntax is refused -/

theorem test_ill_formed_pwrite_refused : (Instr.pwrite 65536).wellFormed = false ∧ ¬ (Instr.pwrite 65536).WellFormed := by
  decide

theorem test_ill_formed_preadc_refused : (Instr.preadc 65536).wellFormed = false ∧ ¬ (Instr.preadc 65536).WellFormed := by
  decide

theorem test_ill_formed_access_size_refused : ¬ AccessWellFormed 0x04#8 1 ∧ ¬ AccessWellFormed 0x04#8 8 := by decide

theorem test_misaligned_access_refused : ¬ AccessWellFormed 0x05#8 4 ∧ ¬ AccessWellFormed 0x06#8 4 := by decide

theorem test_well_formed_boundaries :
    (Instr.pwrite 65535).WellFormed ∧ (Instr.preadc 0).WellFormed ∧ AccessWellFormed 0xFC#8 4 := by decide

/-! ### Decoding (R55, R58; table V-DEC): OP at 31:24, RSV at 23:16, ID at 15:0 -/

theorem test_decode_fixed_point :
    decode 0b00000001000000000000000000000000#32 = .command .tofix ∧
    decode 0b00000010000000000000000000000000#32 = .command .toflt ∧
    decode 0b00000011000000000000000000000000#32 = .command .mul ∧
    decode 0b00000100000000000000000000000000#32 = .command .mac ∧
    decode 0b00000101000000000000000000000000#32 = .command .add ∧
    decode 0b00000110000000000000000000000000#32 = .command .dcblk := by decide

theorem test_decode_delay_pool :
    decode 0b00010000000000001111111111111111#32 = .command (.pwrite 65535) ∧
    decode 0b00010001000000000000000000000101#32 = .command (.preadc 5) ∧
    decode 0b00010010000000000000000000000000#32 = .command .preset := by decide

theorem test_decode_reverb :
    decode 0b00000000000000000000000000000000#32 = .command .nop ∧
    decode 0b00100000000000000000000000000000#32 = .command .prepare ∧
    decode 0b00100001000000000000000000000000#32 = .command .rreset ∧
    decode 0b00100010000000000000000000000000#32 = .command .proc ∧
    decode 0b00100011000000000000000000000000#32 = .command .updmod := by decide

/-- V-DEC: the illegal words. -/
theorem test_decode_illegal :
    decode 0x00000001#32 = .illegal (.idNotZero 1#16) ∧ decode 0x07000000#32 = .illegal (.unassignedOp 0x07#8) ∧
    decode 0x10FF0000#32 = .illegal (.reservedNotZero 0xFF#8) ∧ decode 0x12000001#32 = .illegal (.idNotZero 1#16) ∧
    decode 0x13000000#32 = .illegal (.unassignedOp 0x13#8) ∧ decode 0x22010000#32 = .illegal (.reservedNotZero 1#8) ∧
    decode 0x24000000#32 = .illegal (.unassignedOp 0x24#8) := by decide

theorem test_decode_table_word :
    decodeTableWord 32 0x1000FFFF = some (.pwrite 65535) ∧ decodeTableWord 32 0x23000000 = some .updmod ∧
    decodeTableWord 32 0x07000000 = none ∧ decodeBytes [0x05#8, 0#8, 0#8, 0x11#8] = .command (.preadc 5) ∧
    decodeBytes [0#8, 0#8, 0#8] = .illegal .shortWord := by decide

/-! ### One step each, from the tables of 95_test_vectors.md -/

/-- V-TOFIX: truncation toward zero just above -2^-12. -/
theorem test_tofix_truncates :
    left State.res0 (run 0x01000000 { State.reset with opa := 0xB97FFFFF#32 }) = some 0#32 := by decide +kernel

/-- V-TOFIX: -128.0000153 clamps, sign-extended. -/
theorem test_tofix_clamps :
    left State.res0 (run 0x01000000 { State.reset with opa := 0xC3000001#32 }) = some 0xFFF80000#32 := by decide +kernel

/-- V-TOFLT: a tie rounds up to even. -/
theorem test_toflt_tie :
    left State.res0 (run 0x02000000 { State.reset with opa := 0x01000003#32 }) = some 0x45800002#32 := by decide +kernel

/-- V-TOFLT: the most negative word is not clamped. -/
theorem test_toflt_min :
    left State.res0 (run 0x02000000 { State.reset with opa := 0x80000000#32 }) = some 0xC9000000#32 := by decide +kernel

/-- V-MUL: floor(-1/4096) = -1. -/
theorem test_mul_floors :
    left (fun t => (t.res0, t.ovf)) (run 0x03000000 { State.reset with opa := 0xFFFFFFFF#32, opb := 1#32 }) =
      some (0xFFFFFFFF#32, false) := by decide +kernel

/-- V-MUL: -128 * -1 overflows by one. -/
theorem test_mul_overflows :
    left (fun t => (t.res0, t.ovf)) (run 0x03000000 { State.reset with opa := 0xFFF80000#32, opb := 0xFFFFF000#32 }) =
      some (0x0007FFFF#32, true) := by decide +kernel

/-- V-MAC: the floor shift pushes the sum below the range. -/
theorem test_mac_underflows :
    left (fun t => (t.res0, t.ovf))
      (run 0x04000000 { State.reset with opa := 0xFFFFFFFF#32, opb := 1#32, opc := 0xFFF80000#32 }) =
      some (0xFFF80000#32, true) := by decide +kernel

/-- V-MAC: the integer formula stays in range. -/
theorem test_mac_in_range :
    left (fun t => (t.res0, t.ovf))
      (run 0x04000000 { State.reset with opa := 1#32, opb := 1#32, opc := 0x0007FFFF#32 }) =
      some (0x0007FFFF#32, false) := by decide +kernel

/-- V-ADD: 100 + (-200). -/
theorem test_add_negative :
    left (fun t => (t.res0, t.ovf)) (run 0x05000000 { State.reset with opa := 0x64#32, opb := 0xFFFFFF38#32 }) =
      some (0xFFFFFF9C#32, false) := by decide +kernel

/-- V-ADD: the sum does not wrap. -/
theorem test_add_saturates :
    left (fun t => (t.res0, t.ovf)) (run 0x05000000 { State.reset with opa := 0x80000000#32, opb := 0x80000000#32 }) =
      some (0xFFF80000#32, true) := by decide +kernel

/-- V-DC, step 2. -/
theorem test_dcblk_step :
    left (fun t => (t.res0, t.dcs)) (run 0x06000000 { State.reset with opa := 4096#32, dcs := 0x3F800000#32 }) =
      some (0x00000FFB#32, 0x3F800000#32) := by decide +kernel

/-- V-DC: an infinite state gives 0. -/
theorem test_dcblk_infinite_state :
    left (fun t => (t.res0, t.dcs)) (run 0x06000000 { State.reset with opa := 4096#32, dcs := 0x7F800000#32 }) =
      some (0#32, 0x3F800000#32) := by decide +kernel

/-- V-POOL-3: the flip lands on the word at the new cursor. -/
theorem test_pwrite_flips_next :
    left (fun t => t.pool) (step (withQueue [.write 0x00#8 4 0x10000000#32 true]
      { withPool 4 [(0, 0x100#32)] 1 with opa := 0x200#32 })) =
      some { mem := [(0, 0x100#32), (1, 0x200#32), (2, 0x001#32)], cur := 2 } := by decide +kernel

/-- V-POOL-4: in a pool of one word the flip lands on the word just written. -/
theorem test_pwrite_one_word_pool :
    left (fun t => t.pool) (step (withQueue [.write 0x00#8 4 0x10000000#32 true]
      { withPool 1 [] 0 with opa := 0x20#32 })) = some { mem := [(0, 0x21#32)], cur := 0 } := by decide +kernel

/-- V-POOL-2: PREADC 0, 3 at slot 1 is contended and reads one sample nearer. -/
theorem test_preadc_contended :
    left (fun t => (t.res0, t.cont)) (run 0x11000000
      { withPool 8 [(0, 10#32), (1, 11#32), (2, 12#32), (3, 13#32), (4, 14#32)] 5 with opa := 3#32 }) =
      some (13#32, true) := by decide +kernel

/-- V-POOL-2: PREADC 1, 13 wraps around the pool. -/
theorem test_preadc_wraps :
    left (fun t => (t.res0, t.cont)) (run 0x11000001
      { withPool 8 [(0, 10#32), (1, 11#32), (2, 12#32), (3, 13#32), (4, 14#32)] 5 with opa := 13#32 }) =
      some (10#32, false) := by decide +kernel

/-- V-POOL-5. -/
theorem test_preset_zeroes :
    left (fun t => (t.pool, t.res0)) (run 0x12000000 { withPool 8 [(0, 10#32)] 5 with res0 := 7#32 }) =
      some ({ mem := [], cur := 0 }, 7#32) := by decide +kernel

/-- R87. -/
theorem test_nop_keeps_state :
    left (fun t => { t with port := busy.port }) (run 0x00000000 busy) = some busy := by decide +kernel

/-- V-CTL: PD_LEN = 9600 fits. -/
theorem test_prepare_fits :
    left (fun t => (t.life, t.err, t.pipe.pd.active))
      (run 0x20000000 { State.reset with staged := staged 9600#32 0#32 0#32 0#32 }) =
      some (.prepared, .none, 9600#32) := by decide +kernel

/-- V-CTL: AP_LEN = 2^32 - 1 needs 2^32 words and does not fit. -/
theorem test_prepare_fails :
    left (fun t => (t.life, t.err, t.pipe.ap[1].active))
      (run 0x20000000 { State.reset with staged := staged 0#32 0#32 0#32 0xFFFFFFFF#32 }) =
      some (.uninitialized, .allocFail, 0#32) := by decide +kernel

/-- V-CTL: RRESET after PROC. -/
theorem test_rreset_after_proc :
    left (fun t => (t.life, t.pipe.pd, t.pipe.dmpL, t.tailLevel)) (run 0x21000000 busy) =
      some (.prepared, { active := 4#32, widx := 0#32, buf := [] }, 0#32, 0#32) := by decide +kernel

/-- V-CTL: RRESET on a fresh core leaves STATE = 0. -/
theorem test_rreset_fresh : left State.life (run 0x21000000 State.reset) = some .uninitialized := by decide +kernel

/-- V-UPD: the first wrap, update 126. -/
theorem test_updmod_wraps :
    left State.lfoPhase (run 0x23000000 { State.reset with lfoPhase := 0x40C8000C#32 }) = some 0x3C89CB00#32 := by
  decide +kernel

/-- V-UPD: update 3. -/
theorem test_updmod_adds :
    left State.lfoPhase (run 0x23000000 { State.reset with lfoPhase := 0x3DCCCCCD#32 }) = some 0x3E19999A#32 := by
  decide +kernel

/-- V-PROC-1. -/
theorem test_proc_fresh :
    left (fun t => (t.res0, t.res1, t.tailLevel, t.life))
      (run 0x22000000 { State.reset with opa := 0x3F333333#32, opb := 0xBE4CCCCD#32 }) =
      some (0#32, 0#32, 0x3983126F#32, .uninitialized) := by decide +kernel

/-- V-PROC-3. -/
theorem test_proc_special_inputs :
    left (fun t => (t.res0, t.res1, t.pipe.rvDcs)) (run 0x22000000 (dry 0x7FC00000#32 0x7F800000#32)) =
      some (0#32, 0x42FFFFE0#32, 0x427FFFC0#32) := by decide +kernel

/-- V-BUS: STATUS with OVF, CONT, STATE = 2 and ERR = 3. -/
theorem test_status_packing :
    statusWord { State.reset with ovf := true, cont := true, life := .processing, err := .busError } = 0x00000323#32 := by
  decide

/-- V-PCLAMP. -/
theorem test_pclamp :
    pclamp 0x80000000#32 = 0x80000000#32 ∧ pclamp 0x3F800001#32 = 0x3F800000#32 ∧ pclamp 0xFF800000#32 = 0#32 ∧
    pclamp 0xFFC00000#32 = 0#32 ∧ pclamp 0x00000001#32 = 0x00000001#32 := by decide +kernel

/-! ### Inputs that meet the hypotheses of the obligations -/

theorem test_witness_commands_decode :
    (Instr.preadc 65535).WellFormed ∧ decode (encode (.preadc 65535)) = .command (.preadc 65535) := by decide

/-- One illegal word for each clause, at the edges of the assigned OP ranges. -/
theorem test_witness_illegal_words :
    (∀ op ∈ [0x07, 0x0F, 0x13, 0x1F, 0x24, 0xFF], ¬ (op ≤ 0x06 ∨ (0x10 ≤ op ∧ op ≤ 0x12) ∨ (0x20 ≤ op ∧ op ≤ 0x23))) ∧
    (0x10010000#32).toNat / 2 ^ 16 % 2 ^ 8 ≠ 0 ∧
    ((0x00000001#32).toNat / 2 ^ 24 ≠ 0x10 ∧ (0x00000001#32).toNat / 2 ^ 24 ≠ 0x11 ∧
      (0x00000001#32).toNat % 2 ^ 16 ≠ 0) := by decide

/-- An illegal word of each kind, written to CMD: the step raises IllegalCommand and leaves STATE as it was. -/
theorem test_witness_illegal_step :
    (withQueue [.write 0x00#8 4 0x10010000#32 true] busy).port.rst = false ∧
    left (fun t => (t.err, t.life)) (step (withQueue [.write 0x00#8 4 0x10010000#32 true] busy)) =
      some (.illegalCommand, .processing) ∧
    left (fun t => (t.err, t.life)) (run 0xFF000000 busy) = some (.illegalCommand, .processing) ∧
    left (fun t => (t.err, t.life)) (run 0x00000001 busy) = some (.illegalCommand, .processing) := by decide

/-- A write that runs a command, for the steps of a decoded command. -/
theorem test_witness_command_step :
    let s := withQueue [.write 0x00#8 4 0x1000FFFF#32 true] State.reset
    s.port.rst = false ∧ s.port.queue = .write 0x00#8 4 0x1000FFFF#32 true :: [] ∧
      decode 0x1000FFFF#32 = .command (.pwrite 65535) := by decide

theorem test_witness_access_write :
    let s := withQueue [.write 0x04#8 4 7#32 false] State.reset
    s.port.rst = false ∧ busWrite 0x04#8 4 7#32 (popped s [] false) = .done { popped s [] false with opa := 7#32 } := by
  decide

theorem test_witness_access_read :
    (withQueue [.read 0x18#8 4] State.reset).port.rst = false ∧ AccessWellFormed 0x18#8 4 ∧
      regAt 0x18#8 = some .status := by decide

/-- The write that is a command, a legal word or not; a malformed and an unmapped write are none. -/
theorem test_witness_access_command :
    let s := withQueue [.write 0x00#8 4 0x07000000#32 false] State.reset
    s.port.rst = false ∧ busWrite 0x00#8 4 0x07000000#32 (popped s [] false) = .command 0x07000000#32 ∧
      busWrite 0x00#8 2 0x07000000#32 s = .done (raise .busError s) ∧
      busWrite 0xFC#8 4 0x07000000#32 s = .done (raise .busError s) := by decide

/-- A malformed and an unmapped read. -/
theorem test_witness_access_any_read :
    ∀ e ∈ [(0x00#8, 2), (0xFC#8, 4)],
      let s := withQueue [.read e.1 e.2] State.reset
      s.port.rst = false ∧ s.port.queue = .read e.1 e.2 :: [] ∧
        left (fun t => (t.err, t.port.replies)) (step s) = some (.busError, [0#32]) := by decide

theorem test_witness_idle : State.reset.port.queue = [] := rfl

/-- The three cases of the reset input. -/
theorem test_witness_reset_input :
    (let s := { busy with port := { busy.port with queue := [.read 0x18#8 4], rst := true } };
      s.port.rst = true ∧ s.port.queue = .read 0x18#8 4 :: [] ∧ (∀ b, PortEvent.read 0x18#8 4 ≠ .rst b)) ∧
    (withQueue [.rst true] busy).port.queue = .rst true :: [] ∧
    (let s := { busy with port := { busy.port with queue := [.rst false], rst := true } };
      s.port.rst = true ∧ s.port.queue = .rst false :: [] ∧
        left (fun t => (t.life, t.pool.mem)) (step s) = some (.uninitialized, [])) := by decide

theorem test_witness_step_takes_event :
    left (fun t => (t.port.queue, t.port.replies)) (step (withQueue [.read 0x2C#8 4, .rst true] State.reset)) =
      some ([.rst true], [0x00000E66#32]) := by decide

/-- A wrong size, and a wrong alignment. -/
theorem test_witness_malformed :
    State.reset.port.rst = false ∧ (2 ≠ 4 ∨ (0x06#8).toNat % 4 ≠ 0) ∧ (4 ≠ 4 ∨ (0x05#8).toNat % 4 ≠ 0) ∧
    (1 ≠ 4 ∨ (0x04#8).toNat % 4 ≠ 0) ∧
    left State.err (step (withQueue [.read 0x06#8 2] State.reset)) = some .busError ∧
    left State.err (step (withQueue [.write 0x05#8 4 1#32 false] State.reset)) = some .busError := by decide

/-- The four edges of the unmapped offsets. -/
theorem test_witness_unmapped :
    State.reset.port.rst = false ∧
    ∀ off ∈ [0x4C#8, 0x7C#8, 0xBC#8, 0xFC#8], off.toNat % 4 = 0 ∧
      ((0x4C ≤ off.toNat ∧ off.toNat ≤ 0x7C) ∨ off.toNat = 0xBC ∨ off.toNat = 0xFC) ∧
      left State.err (step (withQueue [.read off 4] State.reset)) = some .busError := by decide

theorem test_witness_read_only :
    State.reset.port.rst = false ∧
    ∀ off ∈ [0x10#8, 0x14#8, 0x1C#8, 0x20#8, 0x24#8, 0x2C#8], off.toNat ∈ [0x10, 0x14, 0x1C, 0x20, 0x24, 0x2C] ∧
      left State.err (step (withQueue [.write off 4 1#32 false] State.reset)) = some .busError := by decide

theorem test_witness_window_edges :
    regAt 0x00#8 = some .cmd ∧ regAt 0x48#8 = some (.param 6) ∧ regAt 0x4C#8 = none ∧ regAt 0x80#8 = some (.erGain 0) ∧
    regAt 0xF8#8 = some (.apLen 1) ∧ regAt 0xFC#8 = none ∧ regAt 0x05#8 = none := by decide

theorem test_witness_read_write_register :
    accessCode (.apLen 1) = .rw ∧ (∀ i, Reg.apLen 1 ≠ .param i) ∧ accessCode .dcs = .rw ∧ (∀ i, Reg.dcs ≠ .param i) := by
  decide

/-- The edges of the indexed registers, and both of each pair that shares a purpose, written and read at offsets of R12. -/
theorem test_window_fields :
    (busRead 0xA8#8 4 { State.reset with coef := { Coeffs.reset with dampA := 1#32, dampB := 2#32 } }).2 = 1#32 ∧
    (busRead 0x14#8 4 { State.reset with res0 := 1#32, res1 := 2#32 }).2 = 2#32 ∧
    busWrite 0xB0#8 4 3#32 State.reset = .done { State.reset with coef := { Coeffs.reset with mixWet := 3#32 } } ∧
    busWrite 0xF8#8 4 4#32 State.reset =
      .done { State.reset with staged := { Lengths.reset with ap := #v[0#32, 4#32] } } := by decide

/-- CMD and POOL_CURSOR, read twice. -/
theorem test_witness_mapped_reads :
    (withQueue [.read 0x1C#8 4, .read 0x1C#8 4] busy).port.rst = false ∧ (0x1C#8).toNat = regOffset .poolCursor ∧
    (withQueue [.read 0x00#8 4, .read 0x00#8 4] busy).port.rst = false ∧ (0x00#8).toNat = regOffset .cmd ∧
    poolLen busy.build ≤ 2 ^ 32 := by decide

theorem test_witness_preset_queue :
    let v : Vector Word 7 := #v[0x3FC00000#32, 0#32, 0#32, 0#32, 0#32, 0#32, 0xBF000000#32]
    let s := withQueue (expandAll (setParams v ++ getParams) ++ []) State.reset
    s.port.rst = false ∧ s.port.queue = expandAll (setParams v ++ getParams) ++ [] ∧
      (expandAll (setParams v ++ getParams)).length = 14 := by decide

/-- A queue for each form of R61 and R62, its command well formed; the accesses of `MAC a, b, c` written out. -/
theorem test_witness_pseudo_queue :
    (Instr.mul.WellFormed ∧ Instr.mac.WellFormed ∧ (Instr.pwrite 65535).WellFormed ∧ Instr.nop.WellFormed) ∧
    (∀ item ∈ [ListItem.bare .nop false, .one (.pwrite 65535) 1#32 true, .two .mul 1#32 2#32 false,
        .three .mac 1#32 2#32 3#32 false, .cmd 0xFF000000#32 false, .set .opa 1#32, .get (.apLen 1), .clrerr],
      let s := withQueue (expand item ++ []) State.reset;
      s.port.rst = false ∧ s.port.queue = expand item ++ []) ∧
    (let s := withQueue (expand (.set .opa 1#32) ++ []) State.reset;
      busWrite (BitVec.ofNat 8 (regOffset .opa)) 4 1#32 (popped s [] false) =
        .done { popped s [] false with opa := 1#32 }) ∧
    expand (.three .mac 1#32 2#32 3#32 false) =
      [.write 0x04#8 4 1#32 false, .write 0x08#8 4 2#32 false, .write 0x0C#8 4 3#32 false,
       .write 0x00#8 4 0x04000000#32 false] := by decide

/-- A tie rounds to even, in each format. -/
theorem test_witness_formats :
    (binary32 = binary32 ∨ binary32 = binary64) ∧ (binary64 = binary32 ∨ binary64 = binary64) ∧
    roundMag binary32 (2 ^ 24 + 1) 0 = 2 ^ 24 ∧ roundMag binary64 (2 ^ 53 + 3) 0 = 2 ^ 53 + 4 := by decide +kernel

/-- 1.0 and -0.0, finite patterns; the largest finite pattern and the smallest NaN. -/
theorem test_witness_patterns :
    unpack32 0x3F800000#32 = .fin false (2 ^ 149) ∧ unpack32 0x80000000#32 = .fin true 0 ∧
    unpack32 0x7F7FFFFF#32 ≠ .nan ∧ unpack32 0x7F800000#32 ≠ .nan ∧ unpack32 0x7F800001#32 = .nan := by decide +kernel

theorem test_witness_clamped_commands : ∀ i ∈ [Instr.tofix, .mul, .mac, .add, .dcblk],
    i.wellFormed = true ∧ (left State.res0 (exec i busy)).isSome = true := by decide +kernel

/-- Both infinities and a NaN as DCS; +0.0 as DCS with OPA at both ends of the domain. -/
theorem test_witness_dcblk_states :
    0x7F800000 ≤ (0x7F800000#32).toNat % 2 ^ 31 ∧ 0x7F800000 ≤ (0xFF800000#32).toNat % 2 ^ 31 ∧
    0x7F800000 ≤ (0x7FC00000#32).toNat % 2 ^ 31 ∧ State.reset.dcs = 0#32 ∧ Clamped 0x0007FFFF#32 ∧
    Clamped 0xFFF80000#32 := ⟨by norm_num, by norm_num, by norm_num, rfl, by decide, by decide⟩

/-- Both ends of the Q12-representable range, as patterns. -/
theorem test_witness_q12_range :
    HasUnits 0x42FFFFE0#32 (524287 * 2 ^ 137) ∧ HasUnits 0xC3000000#32 (-524288 * 2 ^ 137) :=
  ⟨⟨false, 524287 * 2 ^ 137, by decide +kernel, by decide +kernel⟩,
   ⟨true, 524288 * 2 ^ 137, by decide +kernel, by decide +kernel⟩⟩

/-- V-POOL-1: geometry. -/
theorem test_witness_pool_lengths :
    poolLen { Build.reference with poolReq := 0 } = 1 ∧ poolLen { Build.reference with poolReq := 5 } = 8 ∧
    poolLen { Build.reference with poolReq := 131073 } = 262144 ∧ max 1 5 ≤ 2 ^ 3 := by decide +kernel

theorem test_witness_pool_memory : (65535 : Nat) < 2 ^ 16 ∧ Memory.wf busy.pool.mem ∧ Memory.wf ([] : Memory) := by decide

theorem lineOk_iff (n : Nat) (l : Line) : LineOk n l ↔
    (Memory.wf l.buf ∧ (∀ c ∈ l.buf, c.1 < n ∧ Clamped c.2) ∧ if n = 0 then u32 l.widx = 0 else u32 l.widx < n) :=
  ⟨fun h => ⟨h.canonical, h.inBuffer, h.index⟩, fun h => ⟨h.1, h.2.1, h.2.2⟩⟩

/-- The invariant holds of a core in use. -/
theorem test_witness_invariant : Inv busy where
  poolCanonical := by decide
  poolInside := by decide
  cursor := by decide
  pd := by simp only [lineOk_iff]; decide
  er := by simp only [lineOk_iff]; decide
  comb := by simp only [lineOk_iff]; decide
  ap := by simp only [lineOk_iff]; decide
  rvDcs := ⟨0, by decide, by decide, by decide +kernel⟩
  dmpL := by decide
  dmpR := by decide
  lfo := by decide
  param := by decide

theorem test_witness_pool_of_two_words : Inv busy ∧ 1 < poolLen busy.build := ⟨test_witness_invariant, by decide⟩

/-- Every staged length at its largest, and one over for each kind of line. -/
theorem test_witness_prepare :
    lengthsFit Build.reference (staged 9600#32 988#32 3007#32 423#32) = true ∧
    (let n := staged 9600#32 988#32 3007#32 423#32;
      u32 n.pd ≤ Build.reference.capPd ∧
      (∀ k : Fin 8, u32 n.er[k] ≠ 0 → u32 n.er[k] + 1 ≤ Build.reference.capEr) ∧
      (∀ k : Fin 4, u32 n.comb[k] ≠ 0 → u32 n.comb[k] + 1 ≤ Build.reference.capComb) ∧
      (∀ k : Fin 2, u32 n.ap[k] ≠ 0 → u32 n.ap[k] + 1 ≤ Build.reference.capAp)) ∧
    lengthsFit Build.reference (staged 9601#32 0#32 0#32 0#32) = false ∧
    lengthsFit Build.reference (staged 0#32 989#32 0#32 0#32) = false ∧
    lengthsFit Build.reference (staged 0#32 0#32 3008#32 0#32) = false ∧
    lengthsFit Build.reference (staged 0#32 0#32 0#32 424#32) = false := by decide +kernel

theorem test_witness_lfo_range :
    State.reset.lfoPhase.toNat < 0x40C90FDB ∧ busy.lfoPhase.toNat < 0x40C90FDB := by decide

/-- A core whose active lengths are the staged lengths of another. -/
theorem test_witness_reset_pair :
    let u := { State.reset with staged := staged 4#32 0#32 0#32 1#32 }
    let s := { State.reset with
      pipe := { Pipe.reset with pd := { active := 4#32, widx := 2#32, buf := [(1, 9#32)] },
                                ap := Pipe.reset.ap.set 1 { active := 1#32, widx := 1#32, buf := [] } } }
    lengthsFit u.build u.staged = true ∧ s.coef = u.coef ∧ s.pipe.pd.active = u.staged.pd ∧
      (∀ k : Fin 8, s.pipe.er[k].active = u.staged.er[k]) ∧ (∀ k : Fin 4, s.pipe.comb[k].active = u.staged.comb[k]) ∧
      (∀ k : Fin 2, s.pipe.ap[k].active = u.staged.ap[k]) := by decide

theorem test_witness_tail_level :
    unpack32 0x43010000#32 ≠ .nan ∧ (-524288 : Int) ≤ -524288 ∧ (-524288 : Int) ≤ 524287 := by decide +kernel

/-- Two lines, one active and one not. -/
theorem test_witness_bank :
    let lines : Vector Line 2 := #v[Line.empty, { active := 1#32, widx := 1#32, buf := [(0, 5#32)] }]
    u32 lines[0].active = 0 ∧ u32 lines[1].active ≠ 0 ∧
      (List.finRange 2).filter (fun k => decide (u32 lines[k].active ≠ 0)) = [1] := by decide

theorem test_witness_allpass :
    u32 Line.empty.active = 0 ∧ u32 busy.pipe.er[0].active ≠ 0 := by decide

/-- A line of length 2 whose write index is its last. -/
theorem test_witness_line_delay :
    let l : Line := { active := 2#32, widx := 2#32, buf := [(0, 5#32)] }
    Memory.wf l.buf ∧ u32 l.widx ≤ u32 l.active ∧ (-2 ^ 31 : Int) ≤ -2 ^ 31 ∧ (-2 ^ 31 : Int) < 2 ^ 31 ∧
      ([7] : List Int).length + 1 = u32 l.active := by decide

/-- A pre-delay line with no word; one of 4 words with offset 4; one with offset 3. -/
theorem test_witness_pre_delay :
    Memory.wf Line.empty.buf ∧ u32 Line.empty.active = 0 ∧
    (let l := busy.pipe.pd;
      Memory.wf l.buf ∧ u32 l.widx < u32 l.active ∧ u32 4#32 % u32 l.active = 0 ∧
      ([7, 8] : List Int).length + 1 = u32 0xFFFFFFFF#32 % u32 l.active) ∧
    (-2 ^ 31 : Int) ≤ 2 ^ 31 - 1 ∧ (2 ^ 31 - 1 : Int) < 2 ^ 31 := by decide

theorem test_witness_equal_accumulators : busy.pipe.dmpL = busy.pipe.dmpR := rfl

/-- Dry only, with an input of 127.99999237, the last below 128. -/
theorem test_witness_dry :
    (dry 0x42FFFFFF#32 0#32).coef.mixWet = 0#32 ∧ (dry 0x42FFFFFF#32 0#32).coef.mixDry = 4096#32 ∧
    ∃ z, HasUnits 0x42FFFFFF#32 z ∧ z.natAbs < 128 * 2 ^ 149 :=
  ⟨by decide, by decide, 0xFFFFFF * 2 ^ 132, ⟨false, 0xFFFFFF * 2 ^ 132, by decide +kernel, by decide +kernel⟩,
    by decide +kernel⟩

theorem test_witness_silent :
    State.reset.coef = Coeffs.reset ∧ u32 State.reset.pipe.pd.active = 0 ∧
    (∀ k : Fin 8, u32 State.reset.pipe.er[k].active = 0) ∧ (∀ k : Fin 4, u32 State.reset.pipe.comb[k].active = 0) ∧
    (∀ k : Fin 2, u32 State.reset.pipe.ap[k].active = 0) := by decide

theorem test_witness_tail_bound : Inv busy ∧ busy.tailLevel.toNat ≤ 0x43010000 :=
  ⟨test_witness_invariant, by decide⟩

theorem test_witness_same_pipeline :
    let u := { busy with lfoPhase := 0#32, dcs := 1#32, res0 := 2#32 }
    busy.coef = u.coef ∧ busy.pipe = u.pipe ∧ busy ≠ u := by decide

theorem test_witness_frames :
    (∀ id, Instr.updmod ≠ .preadc id) ∧ (∀ id, Instr.updmod ≠ .pwrite id) ∧ Instr.updmod ∉ [Instr.mul, .mac, .add] ∧
    Instr.updmod ∉ [Instr.prepare, .rreset, .proc] ∧ Instr.mul ∉ [Instr.prepare, .rreset, .updmod] ∧
    left State.tailLevel (exec .updmod busy) = some 0x43010000#32 :=
  ⟨fun _ => nofun, fun _ => nofun, by decide, by decide, by decide, by decide +kernel⟩

theorem test_witness_bus_access :
    (∀ b, PortEvent.write 0x04#8 4 7#32 false ≠ .rst b) ∧
    (∀ v j, PortEvent.write 0x04#8 4 7#32 false ≠ .write 0x00#8 4 v j) ∧
    left State.opa (step (withQueue [.write 0x04#8 4 7#32 false] busy)) = some 7#32 :=
  ⟨nofun, fun _ _ h => absurd (PortEvent.write.inj h).1 (by decide), by decide⟩

/-- Each transition of STATE. -/
theorem test_witness_lifecycle :
    lengthsFit State.reset.build State.reset.staged = true ∧ busy.life ≠ .uninitialized ∧ busy.life = .processing ∧
    left State.life (run 0x20000000 State.reset) = some .prepared ∧
    left State.life (run 0x22000000 { State.reset with life := .prepared }) = some .processing ∧
    left State.life (run 0x21000000 busy) = some .prepared := by decide +kernel

theorem test_witness_error_raised :
    left State.err (run 0x07000000 busy) = some .illegalCommand ∧ ErrCode.illegalCommand ≠ busy.err ∧
      ErrCode.illegalCommand ≠ .none := by decide

theorem test_witness_invariant_step :
    Inv busy ∧ left (fun t => t.pool.cur) (run 0x10000000 busy) = some 5 := ⟨test_witness_invariant, by decide +kernel⟩

/-- R126 at 44100 Hz with every parameter 0.5: the lengths exist, and so do the coefficients, COMB_FB among them. -/
theorem test_witness_derivation :
    let half : Vector Word 7 := Vector.replicate 7 0x3F000000#32
    ((deriveLengths (dec64 44100 1) half).map fun n => (u32 n.pd, u32 n.er[0], u32 n.comb[3], u32 n.ap[1])) =
      some (8820, 71, 1381, 63) ∧
    ((deriveCoeffs pow10Ref (dec64 44100 1) half).map fun c => (u32 c.pdOffset, u32 c.combFb)) = some (2205, 3891) := by
  decide +kernel

/-- R118 at 44100 Hz with size 0: decayTime 0 gives 3822, and 1 gives 4. -/
theorem test_comb_feedback :
    u32 (deriveCombFb pow10Ref (dec64 0 1) (dec64 0 1) (dec64 44100 1)) = 3822 ∧
    u32 (deriveCombFb pow10Ref (dec64 1 1) (dec64 0 1) (dec64 44100 1)) = 4 := by decide +kernel

/-- The reference 10^y at whole powers: 100, and 0.1 as the literal of R116. -/
theorem test_pow10_reference :
    pow10Ref (dec64 2 1) = dec64 100 1 ∧ pow10Ref (fneg (dec64 1 1)) = dec64 1 10 := by decide +kernel

end Sys2Proof.Tests
end

section
/-! Rounding is to nearest, ties to even (00_scope.md R10): no magnitude of the format lies strictly between the
two neighbours that `roundMag` chooses from, so the nearer neighbour is the nearest magnitude of all. -/

namespace Sys2Proof.Machine

/-- Two neighbours `r * 2^d` and `(r + 1) * 2^d` with no magnitude of the format strictly between them: `d` is 0, or `r`
has all the bits of a normal number. -/
theorem isMag_not_between {f : FFmt} {r d x : Nat} (hr : d = 0 ∨ 2 ^ f.prec ≤ 2 * r) (hx : IsMag f x) :
    x ≤ r * 2 ^ d ∨ (r + 1) * 2 ^ d ≤ x := by
  obtain ⟨c, e, rfl, hc⟩ := hx
  rcases Nat.lt_or_ge e d with hed | hde
  · left
    have hr' : 2 ^ f.prec ≤ 2 * r := hr.resolve_left (by omega)
    calc c * 2 ^ e ≤ (2 * r) * 2 ^ (d - 1) :=
          Nat.mul_le_mul (by omega) (Nat.pow_le_pow_right (by omega) (by omega))
      _ = r * 2 ^ d := by
          obtain ⟨k, rfl⟩ : ∃ k, d = k + 1 := ⟨d - 1, by omega⟩
          rw [Nat.add_sub_cancel, Nat.pow_succ]; ring
  · obtain ⟨k, hk⟩ : 2 ^ d ∣ c * 2 ^ e := Dvd.dvd.mul_left (Nat.pow_dvd_pow 2 hde) c
    rw [hk, Nat.mul_comm (2 ^ d) k]
    rcases Nat.lt_or_ge r k with h | h
    · exact .inr (Nat.mul_le_mul_right _ h)
    · exact .inl (Nat.mul_le_mul_right _ h)

/-- `roundMag` cuts off `d` bits above the unit and keeps a quotient with all the bits of a normal number, unless `d` is
0. -/
theorem roundMag_cut {p : Nat} (hp : 0 < p) (m j : Nat) :
    ∃ d, max j (Nat.log2 m + 1 - p) = d + j ∧ (d = 0 ∨ 2 ^ p ≤ 2 * (m / 2 ^ (d + j))) := by
  by_cases hle : Nat.log2 m + 1 - p ≤ j
  · exact ⟨0, by omega, .inl rfl⟩
  · obtain ⟨k, rfl⟩ : ∃ k, p = k + 1 := ⟨p - 1, by omega⟩
    have hm : m ≠ 0 := by rintro rfl; simp at hle
    refine ⟨Nat.log2 m - k - j, by omega, .inr ?_⟩
    have hbits : 2 ^ k * 2 ^ (Nat.log2 m - k - j + j) ≤ m := by
      rw [← Nat.pow_add, show k + (Nat.log2 m - k - j + j) = Nat.log2 m by omega]
      exact Nat.log2_self_le hm
    have := (Nat.le_div_iff_mul_le (Nat.two_pow_pos _)).2 hbits
    omega

/-- `roundMag` chooses between the two neighbours of the exact magnitude. -/
theorem roundMag_of_cut {f : FFmt} {m j d : Nat} (hd : max j (Nat.log2 m + 1 - f.prec) = d + j) :
    roundMag f m j =
      if 2 ^ (d + j) < 2 * (m % 2 ^ (d + j)) ∨ 2 ^ (d + j) = 2 * (m % 2 ^ (d + j)) ∧ m / 2 ^ (d + j) % 2 = 1
      then (m / 2 ^ (d + j) + 1) * 2 ^ d else m / 2 ^ (d + j) * 2 ^ d := by
  simp only [roundMag, hd, Nat.add_sub_cancel, ite_mul]

/-- Twice the distance `2^d` to a neighbour divides an even multiple of `2^d`. -/
theorem two_mul_distance_dvd {n x d : Nat} (hn : n % 2 = 0) (hx : x = n * 2 ^ d + 2 ^ d ∨ x + 2 ^ d = n * 2 ^ d) :
    2 * ((x : Int) - (n * 2 ^ d : Nat)).natAbs ∣ n * 2 ^ d := by
  have hdist : ((x : Int) - (n * 2 ^ d : Nat)).natAbs = 2 ^ d := by
    generalize n * 2 ^ d = y at *
    generalize 2 ^ d = z at *
    omega
  rw [hdist]
  exact Nat.mul_dvd_mul_right (Nat.dvd_of_mod_eq_zero hn) _

/-- A scaled magnitude is a natural number. -/
theorem natCast_mul_two_pow (y j : Nat) : (y : Int) * 2 ^ j = (y * 2 ^ j : Nat) := by push_cast; rfl

section
variable {f : FFmt} {r d j m rest : Nat}

/-- The lower of two neighbouring magnitudes is the nearest one when the magnitude to round lies below their middle, or in
the middle with the lower one even. -/
theorem nearestEven_lower (hmag : IsMag f (r * 2 ^ d))
    (hgap : ∀ x, IsMag f x → x ≤ r * 2 ^ d ∨ (r + 1) * 2 ^ d ≤ x) (hm : m = r * 2 ^ d * 2 ^ j + rest)
    (h : 2 * rest < 2 ^ d * 2 ^ j ∨ 2 * rest = 2 ^ d * 2 ^ j ∧ r % 2 = 0) : NearestEven f m j (r * 2 ^ d) := by
  refine ⟨hmag, fun x hx hne => ?_⟩
  rw [natCast_mul_two_pow, natCast_mul_two_pow]
  have hj : 0 < 2 ^ j := Nat.two_pow_pos j
  rcases hgap x hx with hlo | hhi
  · have hlt : x * 2 ^ j < r * 2 ^ d * 2 ^ j := Nat.mul_lt_mul_of_pos_right (by omega) hj
    exact .inl (by omega)
  · rw [Nat.add_mul, Nat.one_mul] at hhi
    rcases Nat.eq_or_lt_of_le hhi with heq | hgt
    · have hnext : x * 2 ^ j = r * 2 ^ d * 2 ^ j + 2 ^ d * 2 ^ j := by rw [← heq, Nat.add_mul]
      rcases h with hbelow | ⟨htie, heven⟩
      · exact .inl (by omega)
      · exact .inr ⟨by omega, two_mul_distance_dvd heven (.inl heq.symm)⟩
    · have hlt := Nat.mul_lt_mul_of_pos_right hgt hj
      rw [Nat.add_mul] at hlt
      exact .inl (by omega)

/-- The upper of two neighbouring magnitudes is the nearest one when the magnitude to round lies above their middle, or in
the middle with the lower one odd. -/
theorem nearestEven_upper (hmag : IsMag f ((r + 1) * 2 ^ d))
    (hgap : ∀ x, IsMag f x → x ≤ r * 2 ^ d ∨ (r + 1) * 2 ^ d ≤ x) (hm : m = r * 2 ^ d * 2 ^ j + rest)
    (hrest : rest < 2 ^ d * 2 ^ j)
    (h : 2 ^ d * 2 ^ j < 2 * rest ∨ 2 ^ d * 2 ^ j = 2 * rest ∧ r % 2 = 1) : NearestEven f m j ((r + 1) * 2 ^ d) := by
  refine ⟨hmag, fun x hx hne => ?_⟩
  rw [natCast_mul_two_pow, natCast_mul_two_pow]
  have hj : 0 < 2 ^ j := Nat.two_pow_pos j
  have hup : (r + 1) * 2 ^ d * 2 ^ j = r * 2 ^ d * 2 ^ j + 2 ^ d * 2 ^ j := by ring
  rcases hgap x hx with hlo | hhi
  · rcases Nat.eq_or_lt_of_le hlo with heq | hlt
    · rcases h with habove | ⟨htie, hodd⟩
      · exact .inl (by rw [heq]; omega)
      · refine .inr ⟨by rw [heq]; omega, two_mul_distance_dvd (by omega) (.inr ?_)⟩
        rw [heq]; ring
    · have := Nat.mul_lt_mul_of_pos_right hlt hj
      exact .inl (by omega)
  · have hgt : (r + 1) * 2 ^ d * 2 ^ j < x * 2 ^ j := Nat.mul_lt_mul_of_pos_right (by omega) hj
    exact .inl (by omega)

end

/-- Rounding is to nearest, ties to even, in every format (R10, R114). -/
theorem roundMag_nearestEven {f : FFmt} (hf : 0 < f.prec) (m j : Nat) : NearestEven f m j (roundMag f m j) := by
  have hmag := roundMag_isMag hf m j
  obtain ⟨d, hd, hnormal⟩ := roundMag_cut hf m j
  have hgap := fun x => isMag_not_between (f := f) (x := x) hnormal
  have hm : m = m / 2 ^ (d + j) * 2 ^ d * 2 ^ j + m % 2 ^ (d + j) := by
    rw [Nat.mul_assoc, ← Nat.pow_add, Nat.div_add_mod']
  have hrest : m % 2 ^ (d + j) < 2 ^ (d + j) := Nat.mod_lt _ (Nat.two_pow_pos _)
  have hpow := Nat.pow_add 2 d j
  rw [roundMag_of_cut hd] at hmag ⊢
  split at hmag
  · next hup =>
    rw [if_pos hup]
    exact nearestEven_upper hmag hgap hm (hpow ▸ hrest) (by omega)
  · next hdown =>
    rw [if_neg hdown]
    exact nearestEven_lower hmag hgap hm (by omega)

/-- Settles O20: both formats have at least one significant bit. -/
theorem roundingIsToNearestEven : Obligations.RoundingIsToNearestEven := by
  rintro f m j (rfl | rfl)
  · exact roundMag_nearestEven (by decide) m j
  · exact roundMag_nearestEven (by decide) m j

end Sys2Proof.Machine
end

section
/-! Patterns are values (00_scope.md R10): every pattern is its sign, exponent and fraction fields, a pattern that
is not a NaN is given back by its value, and flipping bit 31 negates. -/

namespace Sys2Proof.Machine

/-- Every pattern is its sign, exponent field and fraction field. -/
theorem exists_fields (w : Word) : ∃ (neg : Bool) (e frac : Nat), e < 256 ∧ frac < 2 ^ 23 ∧
    w.toNat = (if neg then 2 ^ 31 else 0) + (e * 2 ^ 23 + frac) := by
  have hw := w.isLt
  refine ⟨decide (2 ^ 31 ≤ w.toNat), w.toNat % 2 ^ 31 / 2 ^ 23, w.toNat % 2 ^ 23, by omega, by omega, ?_⟩
  simp only [decide_eq_true_eq]
  split <;> omega

/-- A sign and the number below it make the pattern. -/
theorem signBit_or_eq {w : Word} {neg : Bool} {k : Nat} (hk : k < 2 ^ 31)
    (h : w.toNat = (if neg then 2 ^ 31 else 0) + k) : signBit neg ||| BitVec.ofNat 32 k = w :=
  BitVec.eq_of_toNat_eq ((signBit_or_toNat neg hk).trans h.symm)

/-- A subnormal magnitude is its own fraction field. -/
theorem pack32_subnormal (n : Word) (neg : Bool) {m : Nat} (h : m < 2 ^ 23) :
    pack32 n (.fin neg m) = signBit neg ||| BitVec.ofNat 32 m := by
  simp only [pack32, h, if_true]

/-- A normal magnitude gives back its exponent and fraction fields. -/
theorem pack32_normal (n : Word) (neg : Bool) {e frac : Nat} (h : frac < 2 ^ 23) :
    pack32 n (.fin neg ((2 ^ 23 + frac) * 2 ^ e)) = signBit neg ||| BitVec.ofNat 32 ((e + 1) * 2 ^ 23 + frac) := by
  have hp : 0 < 2 ^ e := Nat.two_pow_pos e
  have hlo : 2 ^ (23 + e) ≤ (2 ^ 23 + frac) * 2 ^ e := by
    rw [Nat.pow_add]; exact Nat.mul_le_mul_right _ (by omega)
  have hhi : (2 ^ 23 + frac) * 2 ^ e < 2 ^ (23 + e + 1) := by
    rw [show 23 + e + 1 = 24 + e by omega, Nat.pow_add]; exact Nat.mul_lt_mul_of_pos_right (by omega) hp
  have hlog : Nat.log2 ((2 ^ 23 + frac) * 2 ^ e) = 23 + e := (Nat.log2_eq_iff (by omega)).2 ⟨hlo, hhi⟩
  have hnot : ¬ (2 ^ 23 + frac) * 2 ^ e < 2 ^ 23 :=
    Nat.not_lt.2 ((Nat.pow_le_pow_right (by omega) (by omega)).trans hlo)
  simp only [pack32, hnot, if_false, hlog, Nat.add_sub_cancel_left, Nat.mul_div_cancel _ hp]

/-- Reading a pattern and writing its value back gives the pattern again (R10). -/
theorem pack32_unpack32 {w : Word} (n : Word) (h : unpack32 w ≠ .nan) : pack32 n (unpack32 w) = w := by
  obtain ⟨neg, e, frac, he, hf, hw⟩ := exists_fields w
  rw [unpack32_of_fields he hf hw] at h ⊢
  by_cases hinf : e = 255
  · have h0 : frac = 0 := by_contra fun h0 => h (by rw [if_pos hinf, if_neg h0])
    rw [if_pos hinf, if_pos h0]
    exact signBit_or_eq (k := 0x7F800000) (by decide) (by simp [hw, hinf, h0])
  · rw [if_neg hinf]
    by_cases hsub : e = 0
    · rw [if_pos hsub, pack32_subnormal n neg hf]
      exact signBit_or_eq (by omega) (by rw [hw, hsub, Nat.zero_mul, Nat.zero_add])
    · rw [if_neg hsub, pack32_normal n neg hf, Nat.sub_add_cancel (by omega)]
      exact signBit_or_eq (by omega) hw

/-- The NaN patterns are those above infinity, without the sign bit (R10). -/
theorem unpack32_eq_nan_iff (w : Word) : unpack32 w = .nan ↔ 0x7F800000 < w.toNat % 2 ^ 31 := by
  obtain ⟨neg, e, frac, he, hf, hw⟩ := exists_fields w
  have hmod : w.toNat % 2 ^ 31 = e * 2 ^ 23 + frac := by
    rw [hw]; split <;> omega
  rw [unpack32_of_fields he hf hw, hmod]
  split
  · split <;> simp <;> omega
  · split <;> simp <;> omega

/-- Settles O22, from the fields of a pattern. -/
theorem patternsRoundTrip : Obligations.PatternsRoundTrip :=
  ⟨fun _ n h => pack32_unpack32 n h, unpack32_eq_nan_iff⟩

/-- The pattern to use for a NaN matters for a NaN only. -/
theorem pack32_nanWord_irrelevant {v : FVal} (h : v ≠ .nan) (n n' : Word) : pack32 n v = pack32 n' v := by
  cases v with
  | nan => exact absurd rfl h
  | inf neg => rfl
  | fin neg m => rfl

/-- Flipping bit 31 of a pattern negates its value. -/
theorem unpack32_xor_signBit (w : Word) : unpack32 (w ^^^ 0x80000000#32) = fneg (unpack32 w) := by
  have hsign : (w ^^^ 0x80000000#32).getMsbD 0 = !w.getMsbD 0 := by simp [BitVec.getMsbD_xor]
  have he : (w ^^^ 0x80000000#32).extractLsb' 23 8 = w.extractLsb' 23 8 := by
    rw [BitVec.extractLsb'_xor]; simp
  have hf : (w ^^^ 0x80000000#32).extractLsb' 0 23 = w.extractLsb' 0 23 := by
    rw [BitVec.extractLsb'_xor]; simp
  simp only [unpack32, hsign, he, hf]
  split
  · split <;> rfl
  · split <;> rfl

/-- Zero rounds to zero. -/
@[simp] theorem roundMag_zero (f : FFmt) (j : Nat) : roundMag f 0 j = 0 := by
  simp [roundMag]

/-- The sum of two finite values is the exact sum rounded once; a zero sum is -0 only when both operands are negative. -/
theorem faddV_fin (f : FFmt) (s t : Bool) (m n : Nat) :
    faddV f (.fin s m) (.fin t n) =
      let z := signed s m + signed t n
      let neg := if z = 0 then s && t else decide (z < 0)
      if 2 ^ f.topExp ≤ roundMag f z.natAbs 0 then .inf neg else .fin neg (roundMag f z.natAbs 0) := by
  simp only [faddV]
  by_cases hz : signed s m + signed t n = 0
  · have h0 : ¬ 2 ^ f.topExp ≤ 0 := Nat.not_le.2 (Nat.two_pow_pos _)
    simp only [hz, if_true, Int.natAbs_zero, roundMag_zero, h0, if_false]
  · simp only [hz, if_false, froundMag]

/-- A sum of finite values is no NaN. -/
theorem faddV_fin_ne_nan (f : FFmt) (s t : Bool) (m n : Nat) : faddV f (.fin s m) (.fin t n) ≠ .nan := by
  rw [faddV_fin]
  extract_lets z neg
  split <;> exact nofun

/-- On finite patterns subtracting is adding the pattern with bit 31 flipped (R10). -/
theorem fsub_eq_fadd_xor_signBit {a b : Word} {sa sb : Bool} {ma mb : Nat} (ha : unpack32 a = .fin sa ma)
    (hb : unpack32 b = .fin sb mb) : fsub a b = fadd a (b ^^^ 0x80000000#32) := by
  simp only [fsub, fadd, fsubV, unpack32_xor_signBit, ha, hb, fneg]
  exact pack32_nanWord_irrelevant (faddV_fin_ne_nan _ _ _ _ _) _ _

/-- binary32 overflows from 2^277 units on. -/
theorem binary32_topExp : binary32.topExp = 277 := rfl

/-- Settles O21: both operations round once with `roundMag`, and `fsub` adds the negated pattern. -/
theorem floatOperationsRoundExactResult : Obligations.FloatOperationsRoundExactResult := by
  intro a b sa sb ma mb ha hb
  refine ⟨⟨_, roundMag_nearestEven (by decide) _ 0, ?_⟩, ⟨_, roundMag_nearestEven (by decide) _ 149, ?_⟩,
    fsub_eq_fadd_xor_signBit ha hb⟩
  · rw [unpack32_fadd, ha, hb, faddV_fin, binary32_topExp]
  · rw [unpack32_fmul, ha, hb, fmulV, froundMag, binary32_topExp]; rfl

end Sys2Proof.Machine
end

section
/-! The window (10_state.md R12): the register at an offset and the offset of a register are inverse to each other, a
write to a read-write register stores its word and is seen in no other register, and a read returns its register and
changes nothing. -/

namespace Sys2Proof.Machine

/-- An offset of the window and its number are the same data. -/
theorem eq_ofNat_regOffset {off : BitVec 8} {r : Reg} (h : off.toNat = regOffset r) :
    off = BitVec.ofNat 8 (regOffset r) := by
  rw [← h, BitVec.ofNat_toNat, BitVec.setWidth_eq]

/-- The register at an offset is the one that has this offset (R12). -/
theorem regAt_eq_some_iff (off : BitVec 8) (r : Reg) : regAt off = some r ↔ off.toNat = regOffset r := by
  constructor
  · intro h
    have hfound := List.find?_some h
    exact (beq_iff_eq.1 hfound).symm
  · intro h
    rw [eq_ofNat_regOffset h, regAt_regOffset]

/-- No two registers share an offset (R12). -/
theorem regOffset_injective {r r' : Reg} (h : regOffset r = regOffset r') : r = r' := by
  have hr := regAt_regOffset r
  rw [h, regAt_regOffset] at hr
  exact (Option.some.inj hr).symm

/-- Settles O13: each clause by number is `regAt_regOffset` at a register. -/
theorem windowHoldsEachRegisterOnce : Obligations.WindowHoldsEachRegisterOnce :=
  ⟨⟨regAt_regOffset .cmd, regAt_regOffset .opa, regAt_regOffset .opb, regAt_regOffset .opc, regAt_regOffset .res0,
      regAt_regOffset .res1, regAt_regOffset .status, regAt_regOffset .poolCursor, regAt_regOffset .lfoPhase,
      regAt_regOffset .tailLevel, regAt_regOffset .dcs, regAt_regOffset .rAtten⟩,
    fun i => regAt_regOffset (.param i), fun k => regAt_regOffset (.erGain k),
    ⟨regAt_regOffset .combFb, regAt_regOffset .apCoef, regAt_regOffset .dampA, regAt_regOffset .dampB,
      regAt_regOffset .mixWet, regAt_regOffset .mixDry, regAt_regOffset .pdOffset, regAt_regOffset .pdLen⟩,
    fun k => regAt_regOffset (.erLen k), fun k => regAt_regOffset (.combLen k), fun k => regAt_regOffset (.apLen k),
    regAt_eq_some_iff, fun _ _ => regOffset_injective⟩

/-- What a write to a register of the window leaves unchanged, whatever the register (R39, R41, R42). -/
theorem writeReg_frame {r : Reg} {v : Word} {s t : State} (h : writeReg v s r = .done t) :
    t.pipe = s.pipe ∧ t.pool = s.pool ∧ t.port = s.port ∧ t.build = s.build ∧ t.ovf = s.ovf ∧ t.cont = s.cont ∧
      t.povf = s.povf ∧ t.life = s.life ∧ t.res0 = s.res0 ∧ t.res1 = s.res1 ∧ t.lfoPhase = s.lfoPhase ∧
      t.tailLevel = s.tailLevel := by
  cases r <;> cases h <;> exact ⟨rfl, rfl, rfl, rfl, rfl, rfl, rfl, rfl, rfl, rfl, rfl, rfl⟩

/-- A write to a read-write register answers a next state, it runs no command (R41). -/
theorem writeReg_done_of_rw {r : Reg} (h : accessCode r = .rw) (v : Word) (s : State) :
    ∃ t, writeReg v s r = .done t := by
  cases r with
  | cmd | res0 | res1 | status | poolCursor | lfoPhase | tailLevel | rAtten => cases h
  | opa | opb | opc | dcs | combFb | apCoef | dampA | dampB | mixWet | mixDry | pdOffset | pdLen => exact ⟨_, rfl⟩
  | param i | erGain i | erLen i | combLen i | apLen i => exact ⟨_, rfl⟩

/-- A read-write register but PARAM reads as the word written to it (R41). -/
theorem readReg_writeReg_self {r : Reg} {v : Word} {s t : State} (hrw : accessCode r = .rw) (hp : ∀ i, r ≠ .param i)
    (h : writeReg v s r = .done t) : readReg t r = v := by
  cases r with
  | cmd | res0 | res1 | status | poolCursor | lfoPhase | tailLevel | rAtten => cases hrw
  | param i => exact absurd rfl (hp i)
  | erGain k | erLen k | combLen k | apLen k => cases h; exact Vector.getElem_set_self ..
  | opa | opb | opc | dcs | combFb | apCoef | dampA | dampB | mixWet | mixDry | pdOffset | pdLen => cases h; rfl

/-- Setting one entry of a row of words leaves every other entry. -/
theorem getElem_set_of_ne {n : Nat} (row : Vector Word n) {i j : Fin n} (w : Word) (h : j ≠ i) :
    (row.set i w)[j] = row[j] :=
  Vector.getElem_set_ne i.isLt j.isLt (Fin.val_ne_of_ne h.symm)

/-- Every register but the read-write register written reads as before (R41). -/
theorem readReg_writeReg_other {r r' : Reg} {v : Word} {s t : State} (hrw : accessCode r = .rw) (hne : r' ≠ r)
    (h : writeReg v s r = .done t) : readReg t r' = readReg s r' := by
  cases r with
  | cmd | res0 | res1 | status | poolCursor | lfoPhase | tailLevel | rAtten => cases hrw
  | opa | opb | opc | dcs | combFb | apCoef | dampA | dampB | mixWet | mixDry | pdOffset | pdLen =>
    cases h; cases r' <;> first | rfl | exact absurd rfl hne
  | param i =>
    cases h
    cases r' with
    | param j => exact getElem_set_of_ne _ _ (mt (congrArg Reg.param) hne)
    | _ => rfl
  | erGain i =>
    cases h
    cases r' with
    | erGain j => exact getElem_set_of_ne _ _ (mt (congrArg Reg.erGain) hne)
    | _ => rfl
  | erLen i =>
    cases h
    cases r' with
    | erLen j => exact getElem_set_of_ne _ _ (mt (congrArg Reg.erLen) hne)
    | _ => rfl
  | combLen i =>
    cases h
    cases r' with
    | combLen j => exact getElem_set_of_ne _ _ (mt (congrArg Reg.combLen) hne)
    | _ => rfl
  | apLen i =>
    cases h
    cases r' with
    | apLen j => exact getElem_set_of_ne _ _ (mt (congrArg Reg.apLen) hne)
    | _ => rfl

/-- Settles O14: the first clause by what a register reads as after a write, the clauses by number by
`busWrite_regOffset`. -/
theorem registerWriteStoresWordUnchanged : Obligations.RegisterWriteStoresWordUnchanged := by
  constructor
  · intro s r v hrw hp
    obtain ⟨t, ht⟩ := writeReg_done_of_rw hrw v s
    obtain ⟨hpipe, hpool, hport, hbuild, -⟩ := writeReg_frame ht
    exact ⟨t, (busWrite_regOffset r v s).trans ht, readReg_writeReg_self hrw hp ht,
      fun r' hne => readReg_writeReg_other hrw hne ht, hpipe, hpool, hport, hbuild⟩
  · intro s v
    have at_reg := fun r => busWrite_regOffset r v s
    exact ⟨at_reg .opa, at_reg .opb, at_reg .opc, at_reg .dcs, fun k => at_reg (.erGain k), at_reg .combFb,
      at_reg .apCoef, at_reg .dampA, at_reg .dampB, at_reg .mixWet, at_reg .mixDry, at_reg .pdOffset, at_reg .pdLen,
      fun k => at_reg (.erLen k), fun k => at_reg (.combLen k), fun k => at_reg (.apLen k)⟩

/-- An answer is the port's alone, so every register reads as before. -/
theorem readReg_answered (s : State) (rest : List PortEvent) (w : Word) (r : Reg) :
    readReg (answered s rest w) r = readReg s r := readReg_port s _ r

/-- A step that reads a register at its offset answers with the register and changes nothing else (R40). -/
theorem step_of_mapped_read {s : State} {off : BitVec 8} {rest : List PortEvent} {r : Reg} (hr : s.port.rst = false)
    (hq : s.port.queue = .read off 4 :: rest) (hoff : off.toNat = regOffset r) :
    step s = .next (answered s rest (readReg s r)) := by
  rw [step_of_read hr hq, eq_ofNat_regOffset hoff, busRead_regOffset]
  exact congrArg (fun w => Host.Outcome.next (reply w (withQueue rest s))) (readReg_port s _ r)

/-- A cursor inside a pool of at most 2^32 words is its own 32-bit word (R22). -/
theorem readReg_poolCursor_toNat {s : State} (hlen : poolLen s.build ≤ 2 ^ 32) (hs : Inv s) :
    (readReg s .poolCursor).toNat = s.pool.cur := by
  have hcur := hs.cursor
  exact (BitVec.toNat_ofNat _ _).trans (Nat.mod_eq_of_lt (by omega))

/-- Settles O17: the second read finds the register the first one found, because an answer is the port's alone. -/
theorem mappedReadChangesNoState : Obligations.MappedReadChangesNoState := by
  constructor
  · intro s off rest r hr hq hoff
    refine ⟨readReg s r, ?_, rfl, ?_, ?_⟩
    · have hfirst := step_of_mapped_read hr hq hoff
      have hsecond : step (answered s (.read off 4 :: rest) (readReg s r)) = _ :=
        step_of_mapped_read hr rfl hoff
      rw [stepMany_succ 1 hfirst, stepMany_one, hsecond, readReg_answered]
      simp [answered, reply, withQueue]
    · rintro rfl; rfl
    · rintro rfl hlen hs; exact readReg_poolCursor_toNat hlen hs
  · intro s
    have at_reg := fun r => busRead_regOffset r s
    exact ⟨at_reg .cmd, at_reg .opa, at_reg .opb, at_reg .opc, at_reg .res0, at_reg .res1, at_reg .status,
      at_reg .poolCursor, at_reg .lfoPhase, at_reg .tailLevel, at_reg .dcs, at_reg .rAtten, fun i => at_reg (.param i),
      fun k => at_reg (.erGain k), at_reg .combFb, at_reg .apCoef, at_reg .dampA, at_reg .dampB, at_reg .mixWet,
      at_reg .mixDry, at_reg .pdOffset, at_reg .pdLen, fun k => at_reg (.erLen k), fun k => at_reg (.combLen k),
      fun k => at_reg (.apLen k)⟩

/-- A field above another of `w` bits counts `2^w` times. -/
theorem toNat_append_eq_add {v w : Nat} (x : BitVec v) (y : BitVec w) :
    (x ++ y).toNat = 2 ^ w * x.toNat + y.toNat := by
  rw [BitVec.toNat_append, ← Nat.shiftLeft_add_eq_or_of_lt y.isLt, Nat.shiftLeft_eq, Nat.mul_comm]

/-- The STATUS word as a number: each field at its place, 0 elsewhere (R16). -/
theorem statusWord_toNat (s : State) : (statusWord s).toNat =
    s.ovf.toNat + 2 * s.cont.toNat + 4 * s.povf.toNat + 16 * (lifeCode s.life).toNat + 256 * (errCode s.err).toNat := by
  simp only [statusWord, toNat_append_eq_add, BitVec.toNat_ofBool, BitVec.toNat_ofNat]
  omega

/-- Settles O16: the fields of STATUS one above the other, and the effect of a write at 0x18. -/
theorem statusFieldsAndClear : Obligations.StatusFieldsAndClear := by
  constructor
  · intro s
    rw [readReg, statusWord_toNat]
    cases s.life <;> cases s.err <;> rfl
  · intro s v
    exact busWrite_regOffset .status v s

end Sys2Proof.Machine
end

section
/-! A word that decodes is its command's encoding (30_encoding.md R54 to R59): the three fields make up the word, and OP
and ID are the command's. -/

namespace Sys2Proof

/-- The fields OP, RSV and ID make up the word (R55). -/
theorem fields_append (w : Word) : opField w ++ (rsvField w ++ idField w : BitVec 24) = w := by
  refine BitVec.eq_of_toNat_eq ?_
  simp only [Machine.toNat_append_eq_add, opField, rsvField, idField, BitVec.extractLsb'_toNat,
    Nat.shiftRight_eq_div_pow]
  omega

/-- The command of an OP value has this OP value (R58). -/
theorem op_of_commandOf {op : BitVec 8} {id : Nat} {i : Instr} (h : commandOf op id = some i) : i.op = op := by
  unfold commandOf at h
  split at h
  case h_15 => cases h
  all_goals next hop => cases h; exact (BitVec.eq_of_toNat_eq hop).symm

/-- The ID of a decoded command is the ID field: PWRITE and PREADC take it, every other OP needs it 0 (R56, R59). -/
theorem idBits_of_commandOf {op : BitVec 8} {id : BitVec 16} {i : Instr} (h : commandOf op id.toNat = some i)
    (hid : ¬ (takesId op = false ∧ id ≠ 0)) : i.idBits = id := by
  obtain rfl := op_of_commandOf h
  have hzero : takesId i.op = false → id = 0#16 := fun ht => by_contra fun hne => hid ⟨ht, hne⟩
  cases i with
  | pwrite k => cases h; exact BitVec.ofNat_toNat .. |>.trans (BitVec.setWidth_eq _)
  | preadc k => cases h; exact BitVec.ofNat_toNat .. |>.trans (BitVec.setWidth_eq _)
  | nop | tofix | toflt | mul | mac | add | dcblk | preset | prepare | rreset | proc | updmod => exact (hzero rfl).symm

/-- A word that decodes to a command is the command's encoding (R55, R58). -/
theorem encode_of_decode {w : Word} {i : Instr} (h : decode w = .command i) : encode i = w := by
  unfold decode at h
  split at h
  · cases h
  · next i' hi =>
    split at h
    · cases h
    · next hrsv =>
      split at h
      · cases h
      · next hid =>
        cases h
        have hrsv : rsvField w = 0#8 := not_not.1 hrsv
        rw [encode, op_of_commandOf hi, idBits_of_commandOf hi hid, ← hrsv, fields_append]

end Sys2Proof
end

section
/-! What one step can do, said once: `StepCase` lists it, `step_cases` says there is nothing else. -/

namespace Sys2Proof.Machine

/-- A bus access of 4 bytes at the register's offset (R12, R37). -/
def AccessNames (off : BitVec 8) (size : Nat) (r : Reg) : Prop := size = 4 ∧ off.toNat = regOffset r

/-- An access names a register exactly when it is well formed and its offset is mapped (R37, R38). -/
theorem accessNames_iff (off : BitVec 8) (size : Nat) (r : Reg) :
    AccessNames off size r ↔ AccessWellFormed off size ∧ regAt off = some r := by
  rw [regAt_eq_some_iff]
  constructor
  · rintro ⟨hsize, hoff⟩
    exact ⟨⟨hsize, hoff ▸ (regOffset_lt r).2⟩, hoff⟩
  · rintro ⟨⟨hsize, -⟩, hoff⟩
    exact ⟨hsize, hoff⟩

/-- A read that names a register returns it and changes no state (R40). -/
theorem busRead_of_names {off : BitVec 8} {size : Nat} {r : Reg} (h : AccessNames off size r) (s : State) :
    busRead off size s = (s, readReg s r) := by
  obtain ⟨rfl, hoff⟩ := h
  rw [eq_ofNat_regOffset hoff, busRead_regOffset]

/-- A write that names a register has its effect (R42). -/
theorem busWrite_of_names {off : BitVec 8} {size : Nat} {r : Reg} (h : AccessNames off size r) (v : Word) (s : State) :
    busWrite off size v s = writeReg v s r := by
  obtain ⟨rfl, hoff⟩ := h
  rw [eq_ofNat_regOffset hoff, busWrite_regOffset]

/-- A read that names no register raises BusError and is answered with 0 (R37, R38). -/
theorem busRead_of_names_none {off : BitVec 8} {size : Nat} (h : ∀ r, ¬ AccessNames off size r) (s : State) :
    busRead off size s = (raise .busError s, 0#32) := by
  unfold busRead
  split
  · next hwf =>
    split
    · rfl
    · next r hr => exact absurd ((accessNames_iff off size r).2 ⟨hwf, hr⟩) (h r)
  · rfl

/-- A write that names no register raises BusError (R37, R38). -/
theorem busWrite_of_names_none {off : BitVec 8} {size : Nat} (h : ∀ r, ¬ AccessNames off size r) (v : Word)
    (s : State) : busWrite off size v s = .done (raise .busError s) := by
  unfold busWrite
  split
  · next hwf =>
    split
    · rfl
    · next r hr => exact absurd ((accessNames_iff off size r).2 ⟨hwf, hr⟩) (h r)
  · rfl

/-- Only a write to CMD runs a command, and it runs the word written (R15, R42). -/
theorem writeReg_eq_command {v w : Word} {s : State} {r : Reg} (h : writeReg v s r = .command w) :
    r = .cmd ∧ w = v := by
  cases r <;> cases h
  exact ⟨rfl, rfl⟩

/-- What a step did that took `s` to a next state: one constructor for each kind of event and what became of it. -/
inductive StepCase (s : State) : State → Prop where
  /-- No event (R144). -/
  | idle : s.port.queue = [] → StepCase s s
  /-- An access while `rst` is asserted (R145). -/
  | ignored {e : PortEvent} {rest : List PortEvent} : s.port.queue = e :: rest → s.port.rst = true →
      (∀ b, e ≠ .rst b) → StepCase s (withQueue rest s)
  /-- `rst` is asserted. -/
  | asserted {rest : List PortEvent} : s.port.queue = .rst true :: rest →
      StepCase s (driveRst true (withQueue rest s))
  /-- `rst` is deasserted (R145). -/
  | deasserted {rest : List PortEvent} : s.port.queue = .rst false :: rest → s.port.rst = true →
      StepCase s (driveRst false (State.powerOn s.build (withQueue rest s).port))
  /-- `rst`, low already, is deasserted (assumption 7). -/
  | stillLow {rest : List PortEvent} : s.port.queue = .rst false :: rest → s.port.rst = false →
      StepCase s (withQueue rest s)
  /-- A read that is answered with a register (R40). -/
  | readAnswered {off : BitVec 8} {size : Nat} {rest : List PortEvent} {r : Reg} : s.port.rst = false →
      s.port.queue = .read off size :: rest → AccessNames off size r → StepCase s (answered s rest (readReg s r))
  /-- A read that raises BusError (R37, R38). -/
  | readFailed {off : BitVec 8} {size : Nat} {rest : List PortEvent} : s.port.rst = false →
      s.port.queue = .read off size :: rest → (∀ r, ¬ AccessNames off size r) →
      StepCase s (raise .busError (answered s rest 0#32))
  /-- A write to a register (R42). -/
  | written {off : BitVec 8} {size : Nat} {v : Word} {j : Bool} {rest : List PortEvent} {r : Reg} {t : State} :
      s.port.rst = false → s.port.queue = .write off size v j :: rest → AccessNames off size r →
      writeReg v (popped s rest j) r = .done t → StepCase s t
  /-- A write that raises BusError (R37, R38). -/
  | writeFailed {off : BitVec 8} {size : Nat} {v : Word} {j : Bool} {rest : List PortEvent} : s.port.rst = false →
      s.port.queue = .write off size v j :: rest → (∀ r, ¬ AccessNames off size r) →
      StepCase s (raise .busError (popped s rest j))
  /-- A write to CMD that runs a command (R59). -/
  | ran {w : Word} {j : Bool} {rest : List PortEvent} {i : Instr} {t : State} : s.port.rst = false →
      s.port.queue = .write 0x00#8 4 w j :: rest → decode w = .command i → exec i (popped s rest j) = .next t →
      StepCase s t
  /-- A write to CMD of a word that encodes no command (R59, R130). -/
  | illegal {w : Word} {j : Bool} {rest : List PortEvent} {e : DecodeError} : s.port.rst = false →
      s.port.queue = .write 0x00#8 4 w j :: rest → decode w = .illegal e →
      StepCase s (raise .illegalCommand (popped s rest j))

/-- A word written to CMD runs the command it encodes, or raises IllegalCommand (R59). -/
theorem stepCase_of_execute {s t : State} {w : Word} {j : Bool} {rest : List PortEvent}
    (hr : s.port.rst = false) (hq : s.port.queue = .write 0x00#8 4 w j :: rest)
    (h : execute w (popped s rest j) = .next t) : StepCase s t := by
  unfold execute at h
  split at h
  · next hdec => exact .ran hr hq hdec h
  · next hdec => cases h; exact .illegal hr hq hdec

/-- Deasserting `rst` gives the power-on values, the port and the build apart (R145). -/
theorem perform_deassert {s : State} (hr : s.port.rst = true) :
    perform (.rst false) s = .next (driveRst false (State.powerOn s.build s.port)) := if_pos hr

/-- Deasserting an `rst` that is low changes nothing (R145, assumption 7). -/
theorem perform_deassert_low {s : State} (hr : s.port.rst = false) : perform (.rst false) s = .next s := by
  simp only [perform, hr]; rfl

/-- What a step does that takes a write with `rst` low. -/
theorem stepCase_of_write {s t : State} {off : BitVec 8} {size : Nat} {v : Word} {j : Bool} {rest : List PortEvent}
    (hr : s.port.rst = false) (hq : s.port.queue = .write off size v j :: rest) (h : step s = .next t) :
    StepCase s t := by
  rw [step_of_write hr hq] at h
  by_cases hname : ∃ r, AccessNames off size r
  · obtain ⟨r, hname⟩ := hname
    rw [busWrite_of_names hname] at h
    cases hreg : writeReg v (popped s rest j) r with
    | done u => rw [hreg] at h; cases h; exact .written hr hq hname hreg
    | command w =>
      rw [hreg] at h
      obtain ⟨rfl, rfl⟩ := writeReg_eq_command hreg
      obtain ⟨rfl, hoff⟩ := hname
      obtain rfl := eq_ofNat_regOffset hoff
      exact stepCase_of_execute hr hq h
  · have hnone := not_exists.1 hname
    rw [busWrite_of_names_none hnone] at h
    cases h
    exact .writeFailed hr hq hnone

/-- What a step does that takes a read with `rst` low. -/
theorem stepCase_of_read {s t : State} {off : BitVec 8} {size : Nat} {rest : List PortEvent}
    (hr : s.port.rst = false) (hq : s.port.queue = .read off size :: rest) (h : step s = .next t) : StepCase s t := by
  rw [step_of_read hr hq] at h
  by_cases hname : ∃ r, AccessNames off size r
  · obtain ⟨r, hname⟩ := hname
    have hport : readReg (withQueue rest s) r = readReg s r := readReg_port s _ r
    rw [busRead_of_names hname, hport] at h
    cases h
    exact .readAnswered hr hq hname
  · have hnone := not_exists.1 hname
    rw [busRead_of_names_none hnone] at h
    cases h
    exact .readFailed hr hq hnone

/-- Nothing but the listed cases: what a step does, from every state. -/
theorem step_cases {s t : State} (h : step s = .next t) : StepCase s t := by
  cases hq : s.port.queue with
  | nil => rw [step_of_idle hq] at h; cases h; exact .idle hq
  | cons e rest =>
    cases e with
    | rst level =>
      rw [step_of_event hq] at h
      cases level with
      | true => cases h; exact .asserted hq
      | false =>
        cases hr : s.port.rst with
        | true => rw [perform_deassert (s := withQueue rest s) hr] at h; cases h; exact .deasserted hq hr
        | false => rw [perform_deassert_low (s := withQueue rest s) hr] at h; cases h; exact .stillLow hq hr
    | read off size =>
      cases hr : s.port.rst with
      | true => rw [step_in_reset hr hq nofun] at h; cases h; exact .ignored hq hr nofun
      | false => exact stepCase_of_read hr hq h
    | write off size v j =>
      cases hr : s.port.rst with
      | true => rw [step_in_reset hr hq nofun] at h; cases h; exact .ignored hq hr nofun
      | false => exact stepCase_of_write hr hq h

/-- Settles O5: a CMD write runs the command its word encodes. -/
theorem stepRunsDecodedCommand : Obligations.StepRunsDecodedCommand := by
  intro s w j rest i hr hq hi
  have hw : busWrite 0x00#8 4 w (popped s rest j) = .command w := busWrite_regOffset .cmd w _
  simp only [step_of_write hr hq, hw, execute, hi]

/-- Every register reads 0 at power-on, R_ATTEN apart (R34). -/
theorem readReg_powerOn (b : Build) (p : Port) (r : Reg) :
    readReg (State.powerOn b p) r = if r = .rAtten then 0x00000E66#32 else 0#32 := by
  cases r with
  | param i | erGain i | erLen i | combLen i | apLen i => exact Vector.getElem_replicate _
  | status => exact BitVec.eq_of_toNat_eq (statusWord_toNat _)
  | cmd | opa | opb | opc | res0 | res1 | poolCursor | lfoPhase | tailLevel | dcs | rAtten | combFb | apCoef
  | dampA | dampB | mixWet | mixDry | pdOffset | pdLen => rfl

/-- Settles O8: the ignored accesses are `step_in_reset`, and the edges of `rst` are `perform`. -/
theorem resetInputRestoresPowerOnState : Obligations.ResetInputRestoresPowerOnState := by
  refine ⟨fun s e rest => step_in_reset, fun s rest hq => step_of_event hq, fun s rest hr hq => ?_⟩
  have hstep : step s = .next (driveRst false (State.powerOn s.build { s.port with queue := rest })) := by
    rw [step_of_event hq, perform_deassert (s := withQueue rest s) hr]; rfl
  refine ⟨_, hstep, rfl, rfl, fun r => (readReg_port _ _ r).trans (readReg_powerOn _ _ r), rfl, rfl, fun _ => rfl, rfl,
    rfl, rfl, rfl, rfl, ?_, ?_, ?_⟩ <;> intro k <;> exact Vector.getElem_replicate _

/-- Settles O54: of the cases of a step that remain, each is an error, an answer or a write to a register. -/
theorem busAccessesKeepFlagsAndHiddenState : Obligations.BusAccessesKeepFlagsAndHiddenState := by
  intro s t e rest hq hstep hrst hcmd
  cases step_cases hstep with
  | idle | ignored | stillLow | readAnswered | readFailed | writeFailed | illegal =>
    exact ⟨rfl, rfl, rfl, rfl, rfl, rfl, rfl, rfl, rfl, rfl⟩
  | asserted hq' | deasserted hq' => rw [hq] at hq'; exact absurd (List.cons.inj hq').1 (hrst _)
  | ran _ hq' => rw [hq] at hq'; exact absurd (List.cons.inj hq').1 (hcmd _ _)
  | written _ _ _ hw =>
    obtain ⟨hpipe, hpool, -, -, hovf, hcont, hpovf, hlife, hres0, hres1, hlfo, htail⟩ := writeReg_frame hw
    exact ⟨hovf, hcont, hpovf, hlife, hres0, hres1, hpipe, hpool, hlfo, htail⟩

/-- PROC turns every STATE but 0 into 2 (R20). -/
theorem lifeAfterProc_of_ne {l : Lifecycle} (h : l ≠ .uninitialized) : lifeAfterProc l = .processing := by
  cases l with
  | uninitialized => exact absurd rfl h
  | prepared | processing => rfl

/-- A command leaves STATE as it is, or is one of the three that change it (R20). -/
theorem exec_life {i : Instr} {s t : State} (h : exec i s = .next t) :
    t.life = s.life ∨ (i = .prepare ∧ t.life = .prepared) ∨
      (i = .proc ∧ s.life ≠ .uninitialized ∧ t.life = .processing) ∨
      (i = .rreset ∧ s.life = .processing ∧ t.life = .prepared) := by
  cases i with
  | prepare =>
    simp only [exec, execPrepare] at h
    split at h <;> cases h
    · exact .inr (.inl ⟨rfl, rfl⟩)
    · exact .inl rfl
  | proc =>
    cases h
    by_cases hl : s.life = .uninitialized
    · exact .inl ((congrArg lifeAfterProc hl).trans hl.symm)
    · exact .inr (.inr (.inl ⟨rfl, hl, lifeAfterProc_of_ne hl⟩))
  | rreset =>
    cases h
    cases hl : s.life with
    | uninitialized | prepared => exact .inl rfl
    | processing => exact .inr (.inr (.inr ⟨rfl, rfl, rfl⟩))
  | tofix | toflt => cases h; exact .inl (setRes0_life ..)
  | mul | mac | add => cases h; exact .inl (setResult_life ..)
  | preadc id => cases h; exact .inl (setRead_life ..)
  | nop | dcblk | pwrite id | preset | updmod => cases h; exact .inl rfl

/-- Settles O55: only a command and the deassertion of `rst` change STATE, and the three commands that do have one word
each. -/
theorem lifecycleTransitionsAreThoseListed : Obligations.LifecycleTransitionsAreThoseListed := by
  refine ⟨fun s t hstep => ?_, fun s hfit => ?_, fun s hl => ?_, fun s hl => ?_⟩
  · cases step_cases hstep with
    | idle | ignored | asserted | stillLow | readAnswered | readFailed | writeFailed | illegal => exact .inl rfl
    | deasserted hq hr => exact .inr (.inr (.inr (.inr ⟨_, hq, hr, rfl⟩)))
    | written _ _ _ hw =>
      obtain ⟨-, -, -, -, -, -, -, hlife, -⟩ := writeReg_frame hw
      exact .inl hlife
    | ran _ hq hdec hexec =>
      obtain rfl := encode_of_decode hdec
      rcases exec_life hexec with hsame | ⟨rfl, hlife⟩ | ⟨rfl, hfrom, hlife⟩ | ⟨rfl, hfrom, hlife⟩
      · exact .inl hsame
      · exact .inr (.inl ⟨_, _, hq, hlife⟩)
      · exact .inr (.inr (.inl ⟨_, _, hq, hfrom, hlife⟩))
      · exact .inr (.inr (.inr (.inl ⟨_, _, hq, hfrom, hlife⟩)))
  · exact ⟨_, if_pos hfit, rfl⟩
  · exact ⟨_, rfl, lifeAfterProc_of_ne hl⟩
  · exact ⟨_, rfl, congrArg lifeAfterRreset hl⟩

/-- PROC's outputs and pipeline come from the coefficients, the pipeline and the two operands, and it keeps the
coefficients (R91, R108). -/
theorem exec_proc_congr {s u : State} (hcoef : s.coef = u.coef) (hpipe : s.pipe = u.pipe) (l r : Word) :
    ∃ s' u', exec .proc { s with opa := l, opb := r } = .next s' ∧ exec .proc { u with opa := l, opb := r } = .next u' ∧
      s'.res0 = u'.res0 ∧ s'.res1 = u'.res1 ∧ s'.coef = u'.coef ∧ s'.pipe = u'.pipe := by
  refine ⟨_, _, rfl, rfl, ?_⟩
  simp [opaFloat, opbFloat, hcoef, hpipe]

/-- A PROC puts out its two results, and the next PROC starts from the state it leaves. -/
theorem procOutputs_cons {s t : State} {l r : Word} (h : exec .proc { s with opa := l, opb := r } = .next t)
    (rest : List (Word × Word)) : procOutputs s ((l, r) :: rest) = (t.res0, t.res1) :: procOutputs t rest := by
  simp only [procOutputs, h]

/-- Settles O52, by induction on the inputs: the two cores agree on coefficients and pipeline after each PROC again. -/
theorem outputsDependOnPipelineAlone : Obligations.OutputsDependOnPipelineAlone := by
  intro s u hcoef hpipe inputs
  induction inputs generalizing s u with
  | nil => exact ⟨rfl, rfl⟩
  | cons input rest ih =>
    obtain ⟨l, r⟩ := input
    obtain ⟨s', u', hs, hu, hres0, hres1, hcoef', hpipe'⟩ := exec_proc_congr hcoef hpipe l r
    obtain ⟨heq, hlen⟩ := ih s' u' hcoef' hpipe'
    rw [procOutputs_cons hs, procOutputs_cons hu, hres0, hres1, heq]
    exact ⟨rfl, congrArg Nat.succ (heq ▸ hlen)⟩

end Sys2Proof.Machine
end

section
/-! Non-negative patterns are ordered as their values are, so that the phase of the LFO is bounded by its value
(10_state.md R23, 42_reverb_control.md R90). -/

namespace Sys2Proof.Machine

/-- The magnitude of the finite pattern `n` with sign bit 0, in units of 2^-149 (R10). -/
def magOfBits (n : Nat) : Nat :=
  if n / 2 ^ 23 = 0 then n % 2 ^ 23 else (2 ^ 23 + n % 2 ^ 23) * 2 ^ (n / 2 ^ 23 - 1)

/-- The magnitude from the exponent and fraction fields (R10). -/
theorem magOfBits_fields (e : Nat) {frac : Nat} (h : frac < 2 ^ 23) :
    magOfBits (e * 2 ^ 23 + frac) = if e = 0 then frac else (2 ^ 23 + frac) * 2 ^ (e - 1) := by
  have hdiv : (e * 2 ^ 23 + frac) / 2 ^ 23 = e := by omega
  have hmod : (e * 2 ^ 23 + frac) % 2 ^ 23 = frac := by omega
  rw [magOfBits, hdiv, hmod]

/-- A pattern with a finite value that is not negative has that magnitude. -/
theorem eq_magOfBits_of_unpack32 {w : Word} {m : Nat} (h : unpack32 w = .fin false m) : m = magOfBits w.toNat := by
  obtain ⟨neg, e, frac, he, hf, hw⟩ := exists_fields w
  rw [unpack32_of_fields he hf hw] at h
  have hinf : e ≠ 255 := by rintro rfl; rw [if_pos rfl] at h; split at h <;> cases h
  rw [if_neg hinf] at h
  obtain rfl : neg = false := by split at h <;> exact (FVal.fin.inj h).1
  rw [hw, if_neg Bool.false_ne_true, Nat.zero_add, magOfBits_fields e hf]
  split at h
  · next hsub => rw [if_pos hsub]; exact (FVal.fin.inj h).2.symm
  · next hnormal => rw [if_neg hnormal]; exact (FVal.fin.inj h).2.symm

/-- A finite pattern with sign bit 0 has the value `magOfBits`. -/
theorem unpack32_of_lt_inf {w : Word} (h : w.toNat < 0x7F800000) : unpack32 w = .fin false (magOfBits w.toNat) := by
  rw [unpack32_of_fields (neg := false) (e := w.toNat / 2 ^ 23) (frac := w.toNat % 2 ^ 23) (by omega)
    (Nat.mod_lt _ (by decide)) (by simp; omega), if_neg (by omega), magOfBits]
  split <;> rfl

/-- The next pattern is the next larger value: a full fraction carries into the exponent. -/
theorem magOfBits_lt_succ (n : Nat) : magOfBits n < magOfBits (n + 1) := by
  obtain ⟨e, frac, hf, rfl⟩ : ∃ e frac, frac < 2 ^ 23 ∧ n = e * 2 ^ 23 + frac :=
    ⟨n / 2 ^ 23, n % 2 ^ 23, Nat.mod_lt _ (by decide), (Nat.div_add_mod' n _).symm⟩
  rw [magOfBits_fields e hf]
  by_cases hcarry : frac + 1 = 2 ^ 23
  · have hnext : e * 2 ^ 23 + frac + 1 = (e + 1) * 2 ^ 23 + 0 := by rw [Nat.add_assoc, hcarry]; ring
    rw [hnext, magOfBits_fields (e + 1) (by decide), if_neg (Nat.succ_ne_zero e), Nat.add_sub_cancel, Nat.add_zero]
    cases e with
    | zero => rw [if_pos rfl, Nat.pow_zero, Nat.mul_one]; exact hf
    | succ e =>
      rw [if_neg (Nat.succ_ne_zero e), Nat.add_sub_cancel, Nat.pow_succ 2 e, Nat.mul_comm (2 ^ e) 2, ← Nat.mul_assoc]
      exact Nat.mul_lt_mul_of_pos_right (by omega) (Nat.two_pow_pos e)
  · rw [Nat.add_assoc, magOfBits_fields e (by omega)]
    split
    · exact Nat.lt_succ_self frac
    · exact Nat.mul_lt_mul_of_pos_right (Nat.lt_succ_self _) (Nat.two_pow_pos _)

/-- A larger pattern is a larger value. -/
theorem magOfBits_strictMono : StrictMono magOfBits := strictMono_nat_of_lt_succ magOfBits_lt_succ

/-- KTWOPI in units of 2^-149. -/
def twoPiMag : Nat := magOfBits kTwoPi.toNat

/-- The phase is below KTWOPI as a pattern exactly when its value is finite, not negative and below that of KTWOPI
(R23). -/
theorem toNat_lt_kTwoPi_iff (w : Word) : w.toNat < kTwoPi.toNat ↔ ∃ m < twoPiMag, unpack32 w = .fin false m := by
  constructor
  · intro h
    have hinf : w.toNat < 0x7F800000 := h.trans (by decide)
    exact ⟨_, magOfBits_strictMono h, unpack32_of_lt_inf hinf⟩
  · rintro ⟨m, hm, hw⟩
    rw [eq_magOfBits_of_unpack32 hw] at hm
    exact magOfBits_strictMono.lt_iff_lt.1 hm

/-- Rounding does not pass a magnitude of the format. -/
theorem roundMag_le_of_isMag {f : FFmt} (hf : 0 < f.prec) {m x : Nat} (hx : IsMag f x) (h : m ≤ x) :
    roundMag f m 0 ≤ x := by
  by_contra hlt
  obtain ⟨-, hnear⟩ := roundMag_nearestEven hf m 0
  have := hnear x hx (by omega)
  simp only [pow_zero, mul_one] at this
  omega

/-- A natural number has no sign, zero included. -/
theorem sign_of_natCast (z : Nat) : (if (z : Int) = 0 then false else decide ((z : Int) < 0)) = false := by
  split
  · rfl
  · exact decide_eq_false (by omega)

/-- A sum of two values that are not negative stays below a magnitude of binary32 that bounds the exact sum. -/
theorem faddV_nonneg_le {m n x : Nat} (hx : IsMag binary32 x) (htop : x < 2 ^ binary32.topExp) (h : m + n ≤ x) :
    ∃ r ≤ x, faddV binary32 (.fin false m) (.fin false n) = .fin false r := by
  have hr := roundMag_le_of_isMag (by decide) hx h
  refine ⟨_, hr, ?_⟩
  have hz : signed false m + signed false n = ((m + n : Nat) : Int) := by simp [signed]
  rw [faddV_fin]
  simp only [hz, Bool.and_false, sign_of_natCast, Int.natAbs_natCast]
  exact if_neg (by omega)

/-- A difference that is not negative stays below a magnitude of binary32 that bounds the exact difference. -/
theorem fsubV_nonneg_le {m n x : Nat} (hx : IsMag binary32 x) (htop : x < 2 ^ binary32.topExp) (hnm : n ≤ m)
    (h : m - n ≤ x) : ∃ r ≤ x, fsubV binary32 (.fin false m) (.fin false n) = .fin false r := by
  have hr := roundMag_le_of_isMag (by decide) hx h
  refine ⟨_, hr, ?_⟩
  have hz : signed false m + signed true n = ((m - n : Nat) : Int) := by simp [signed]; omega
  rw [fsubV, fneg, Bool.not_false, faddV_fin]
  simp only [hz, Bool.false_and, sign_of_natCast, Int.natAbs_natCast]
  exact if_neg (by omega)

theorem unpack32_kTwoPi : unpack32 kTwoPi = .fin false twoPiMag := unpack32_of_lt_inf (by decide)

theorem unpack32_k005 : unpack32 k005 = .fin false (magOfBits k005.toNat) := unpack32_of_lt_inf (by decide)

/-- One comparison of values that are not negative. -/
theorem fgeV_nonneg (m n : Nat) : fgeV (.fin false m) (.fin false n) = true ↔ n ≤ m := by
  simp [fgeV, fltV, signed]

/-- An update keeps the phase below KTWOPI (R23, R90): a sum that reaches KTWOPI is below 8, and a difference from it is
then below 4. -/
theorem lfoStepV_lt {m : Nat} (h : m < twoPiMag) : ∃ r < twoPiMag, lfoStepV (.fin false m) = .fin false r := by
  have hmag : ∀ k, IsMag binary32 (2 ^ k) := fun k => ⟨1, k, (Nat.one_mul _).symm, by decide⟩
  have htop : ∀ k < 277, 2 ^ k < 2 ^ binary32.topExp := fun k hk => Nat.pow_lt_pow_right (by decide) hk
  have hsum : twoPiMag + magOfBits k005.toNat ≤ 2 ^ 152 := by decide
  have hfour : 2 ^ 151 < twoPiMag := by decide
  have hbound : m + magOfBits k005.toNat ≤ 2 ^ 152 := by omega
  obtain ⟨q, hq, hadd⟩ := faddV_nonneg_le (hmag 152) (htop 152 (by decide)) hbound
  simp only [lfoStepV, unpack32_k005, unpack32_kTwoPi, hadd, fgeV_nonneg]
  split
  · next hge =>
    obtain ⟨r, hr, hsub⟩ := fsubV_nonneg_le (hmag 151) (htop 151 (by decide)) hge (by omega)
    exact ⟨r, by omega, hsub⟩
  · next hlt => exact ⟨q, by omega, rfl⟩

/-- An update's value can be held by a pattern: it is a sum or a difference. -/
theorem holds32_lfoStepV (p : FVal) : Holds32 (lfoStepV p) := by
  unfold lfoStepV
  extract_lets q
  split
  · exact holds32_faddV _ _
  · exact holds32_faddV _ _

/-- The phase +0.0 is below KTWOPI. -/
theorem zero_lt_kTwoPi : (0#32 : Word).toNat < kTwoPi.toNat := by decide

/-- UPDMOD keeps LFO_PHASE "a non-negative binary32 below KTWOPI" (R23, R90). -/
theorem lfoStep_toNat_lt {w : Word} (h : w.toNat < kTwoPi.toNat) : (lfoStep w).toNat < kTwoPi.toNat := by
  obtain ⟨m, hm, hw⟩ := (toNat_lt_kTwoPi_iff w).1 h
  obtain ⟨r, hr, hstep⟩ := lfoStepV_lt hm
  refine (toNat_lt_kTwoPi_iff _).2 ⟨r, hr, ?_⟩
  rw [lfoStep, unpack32_pack32 (unpack32_nanWordOf _ _) (holds32_lfoStepV _), hw, hstep]

end Sys2Proof.Machine
end

section
/-! The storage invariant part by part: what the pool's write port, a clear, a latch and a tick keep (10_state.md R22,
R29 to R31). -/

namespace Sys2Proof.Machine

/-- The pool's part of `Inv`. -/
structure PoolOk (b : Build) (p : Pool) : Prop where
  canonical : Memory.wf p.mem
  inside : ∀ c ∈ p.mem, c.1 < poolLen b
  cursor : p.cur < poolLen b

/-- A line of a bank and the capacity of its buffer: the part of `Inv` about one line. -/
def TapOk (cap : Nat) (l : Line) : Prop := LineOk (lineWords l.active) l ∧ lineWords l.active ≤ cap

/-- The pipeline's part of `Inv`. -/
structure PipeOk (b : Build) (p : Pipe) : Prop where
  pd : LineOk (u32 p.pd.active) p.pd ∧ u32 p.pd.active ≤ b.capPd
  er : ∀ k (h : k < 8), TapOk b.capEr p.er[k]
  comb : ∀ k (h : k < 4), TapOk b.capComb p.comb[k]
  ap : ∀ k (h : k < 2), TapOk b.capAp p.ap[k]
  rvDcs : ∃ n : Int, -524288 ≤ n ∧ n ≤ 524287 ∧ p.rvDcs = toFloat n
  dmpL : Clamped p.dmpL
  dmpR : Clamped p.dmpR

/-- The invariant is its four parts: the pool, the pipeline, the phase and the PARAM registers. -/
theorem inv_iff (s : State) : Inv s ↔ PoolOk s.build s.pool ∧ PipeOk s.build s.pipe ∧
    s.lfoPhase.toNat < kTwoPi.toNat ∧ ∀ i : Fin 7, pclamp s.param[i] = s.param[i] := by
  constructor
  · intro h
    exact ⟨⟨h.poolCanonical, h.poolInside, h.cursor⟩,
      ⟨h.pd, fun k hk => h.er ⟨k, hk⟩, fun k hk => h.comb ⟨k, hk⟩, fun k hk => h.ap ⟨k, hk⟩, h.rvDcs, h.dmpL, h.dmpR⟩,
      h.lfo, h.param⟩
  · rintro ⟨hpool, hpipe, hlfo, hparam⟩
    exact ⟨hpool.canonical, hpool.inside, hpool.cursor, hpipe.pd, fun k => hpipe.er k k.isLt,
      fun k => hpipe.comb k k.isLt, fun k => hpipe.ap k k.isLt, hpipe.rvDcs, hpipe.dmpL, hpipe.dmpR, hlfo, hparam⟩

/-- A number of the 20-bit domain is stored as a clamped sample (R9). -/
theorem clamped_w32 {v : Int} (h : -524288 ≤ v ∧ v ≤ 524287) : Clamped (w32 v) := by
  rw [Clamped, s32_w32 h]; exact h

theorem poolOk_reset (b : Build) : PoolOk b poolReset :=
  ⟨wf_nil, fun _ h => absurd h List.not_mem_nil, poolLen_pos b⟩

/-- A write at an index of the pool lists words of the pool only. -/
theorem inside_writeWord {n a : Nat} {m : Memory} (h : ∀ c ∈ m, c.1 < n) (ha : a < n) (v : Word) :
    ∀ c ∈ writeWord m a v, c.1 < n := by
  intro c hc
  rcases mem_writeWord hc with rfl | hc
  · exact ha
  · exact h c hc

/-- The pool's write port keeps the pool in form (R31, R79, R83). -/
theorem poolOk_poolWrite {b : Build} {p : Pool} (h : PoolOk b p) (inj : Bool) (v : Word) :
    PoolOk b (poolWrite b inj v p) := by
  refine ⟨wf_poolWrite b inj v h.canonical, ?_, nextCursor_lt b p⟩
  have hwritten := inside_writeWord h.inside h.cursor v
  cases inj with
  | false => exact hwritten
  | true => exact inside_writeWord hwritten (nextCursor_lt b p) _

/-- An empty line has every size of buffer, its index at 0 (R30, R86). -/
theorem lineOk_of_empty {n : Nat} {l : Line} (hbuf : l.buf = []) (hidx : l.widx = 0#32) : LineOk n l := by
  refine ⟨hbuf ▸ wf_nil, by simp [hbuf], ?_⟩
  simp only [hidx]
  split
  · rfl
  · exact Nat.pos_of_ne_zero ‹_›

/-- Storing a clamped sample in the buffer, with the index in it, keeps a line in form (R29, R30). -/
theorem lineOk_store {n i : Nat} {l : Line} {v w : Word} (h : LineOk n l) (hi : i < n) (hv : Clamped v)
    (hw : u32 w < n) : LineOk n { l with buf := writeWord l.buf i v, widx := w } := by
  refine ⟨wf_writeWord h.canonical i v, fun c hc => ?_, by rw [if_neg (by omega)]; exact hw⟩
  rcases mem_writeWord hc with rfl | hc
  · exact ⟨hi, hv⟩
  · exact h.inBuffer c hc

/-- A number below one that a word holds survives being stored. -/
theorem u32_ofNat_of_lt {n : Nat} {w : Word} (h : n ≤ u32 w) : u32 (BitVec.ofNat 32 n) = n :=
  (BitVec.toNat_ofNat _ _).trans (Nat.mod_eq_of_lt (Nat.lt_of_le_of_lt h w.isLt))

/-- A write to an active line keeps it in form (R95). -/
theorem tapOk_lineWrite {cap : Nat} {l : Line} (h : TapOk cap l) (hactive : u32 l.active ≠ 0) {v : Int}
    (hv : -524288 ≤ v ∧ v ≤ 524287) : TapOk cap (lineWrite l v) := by
  obtain ⟨hline, hcap⟩ := h
  refine ⟨?_, hcap⟩
  have hwords : lineWords l.active = u32 l.active + 1 := if_neg hactive
  have hidx := hline.index
  rw [if_neg (by omega)] at hidx
  have hnext : u32 (lineWrite l v).widx < lineWords l.active := by
    rw [lineWrite_widx, hwords]; exact Nat.mod_lt _ (Nat.succ_pos _)
  exact lineOk_store hline hidx (clamped_w32 hv) hnext

/-- One line of a bank keeps its form in a tick (R94 to R96). -/
theorem tapOk_tapStep {cap : Nat} {l : Line} (h : TapOk cap l) (xin gain : Int) :
    TapOk cap (tapStep xin l gain).line := by
  by_cases hactive : u32 l.active = 0
  · rw [tapStep_inactive hactive]; exact h
  · rw [tapStep_active hactive]; exact tapOk_lineWrite h hactive (macq_range _ _ _)

/-- One allpass stage keeps its line's form in a tick (R102). -/
theorem tapOk_allpassStage {cap : Nat} {l : Line} (h : TapOk cap l) (c run : Int) :
    TapOk cap (allpassStage c l run).line := by
  unfold allpassStage
  split
  · exact h
  · next hactive => exact tapOk_lineWrite h hactive (macq_range _ _ _)

/-- The pre-delay keeps its line in form and its length (R99). -/
theorem preDelay_ok {cap : Nat} {l : Line} (h : LineOk (u32 l.active) l ∧ u32 l.active ≤ cap) (offset : Word) {dc : Int}
    (hdc : -524288 ≤ dc ∧ dc ≤ 524287) :
    LineOk (u32 (preDelay offset l dc).1.active) (preDelay offset l dc).1 ∧
      u32 (preDelay offset l dc).1.active ≤ cap := by
  obtain ⟨hline, hcap⟩ := h
  unfold preDelay
  extract_lets n buf off
  split
  · exact ⟨hline, hcap⟩
  · next hn =>
    have hidx := hline.index
    rw [if_neg hn] at hidx
    have hlt : (u32 l.widx + 1) % n < n := Nat.mod_lt _ (Nat.pos_of_ne_zero hn)
    exact ⟨lineOk_store hline hidx (clamped_w32 hdc) (by rw [u32_ofNat_of_lt hlt.le]; exact hlt), hcap⟩

/-- A damping accumulator is a sample (R64, R103). -/
theorem damp_range (a b dmp ap : Int) : -524288 ≤ (damp a b dmp ap).value ∧ (damp a b dmp ap).value ≤ 524287 :=
  macq_range _ _ _

/-- A tick stores the float of the mono mean in RV_DCS (R98). -/
theorem tick_rvDcs (c : Coeffs) (p : Pipe) (inL inR : FVal) :
    (tick c p inL inR).pipe.rvDcs = toFloat (monoMean (toFixed inL) (toFixed inR)) := by
  simp only [tick]

/-- A tick keeps the pipeline in form (R108). -/
theorem pipeOk_tick {b : Build} {p : Pipe} (h : PipeOk b p) (c : Coeffs) (inL inR : FVal) :
    PipeOk b (tick c p inL inR).pipe where
  pd := preDelay_ok h.pd _ (toFixed_range _)
  er k hk := by rw [tick, bank_lines_get]; exact tapOk_tapStep (h.er k hk) _ _
  comb k hk := by rw [tick, bank_lines_get]; exact tapOk_tapStep (h.comb k hk) _ _
  ap k hk := by
    rcases k with _ | _ | k
    · exact tapOk_allpassStage (h.ap 0 hk) _ _
    · exact tapOk_allpassStage (h.ap 1 hk) _ _
    · omega
  rvDcs := by
    obtain ⟨hlo, hhi⟩ := monoMean_range (toFixed_range inL) (toFixed_range inR)
    exact ⟨_, hlo, hhi, tick_rvDcs c p inL inR⟩
  dmpL := clamped_w32 (damp_range _ _ _ _)
  dmpR := clamped_w32 (damp_range _ _ _ _)

/-- The float of 0 is +0.0 (R71). -/
theorem toFloat_zero : toFloat 0 = 0#32 := by
  have hv : toFloatV 0 = .fin false 0 := by
    simp only [toFloatV, froundMag, Int.natAbs_zero, Nat.zero_mul, roundMag_zero]
    exact if_neg (Nat.not_le.2 (Nat.two_pow_pos _))
  rw [toFloat, hv]; rfl

/-- A cleared pipeline is in form when its active lengths fit (R86). -/
theorem pipeOk_clearPipe {b : Build} {p : Pipe} (hpd : u32 p.pd.active ≤ b.capPd)
    (her : ∀ k (h : k < 8), lineWords p.er[k].active ≤ b.capEr)
    (hcomb : ∀ k (h : k < 4), lineWords p.comb[k].active ≤ b.capComb)
    (hap : ∀ k (h : k < 2), lineWords p.ap[k].active ≤ b.capAp) : PipeOk b (clearPipe p) where
  pd := ⟨lineOk_of_empty rfl rfl, hpd⟩
  er k hk := by rw [clearPipe_er]; exact ⟨lineOk_of_empty rfl rfl, her k hk⟩
  comb k hk := by rw [clearPipe_comb]; exact ⟨lineOk_of_empty rfl rfl, hcomb k hk⟩
  ap k hk := by rw [clearPipe_ap]; exact ⟨lineOk_of_empty rfl rfl, hap k hk⟩
  rvDcs := ⟨0, by decide, by decide, toFloat_zero.symm⟩
  dmpL := by rw [clearPipe_dmpL]; decide
  dmpR := by rw [clearPipe_dmpR]; decide

/-- Every staged buffer fits its capacity (R88). -/
theorem lengthsFit_iff (b : Build) (n : Lengths) : lengthsFit b n = true ↔
    u32 n.pd ≤ b.capPd ∧ (∀ k (h : k < 8), lineWords n.er[k] ≤ b.capEr) ∧
      (∀ k (h : k < 4), lineWords n.comb[k] ≤ b.capComb) ∧ ∀ k (h : k < 2), lineWords n.ap[k] ≤ b.capAp := by
  simp [lengthsFit, and_assoc]

/-- A successful PREPARE leaves the pipeline in form (R88). -/
theorem pipeOk_prepare {b : Build} {n : Lengths} (h : lengthsFit b n = true) (p : Pipe) :
    PipeOk b (clearPipe (latchLengths n p)) := by
  obtain ⟨hpd, her, hcomb, hap⟩ := (lengthsFit_iff b n).1 h
  refine pipeOk_clearPipe hpd ?_ ?_ ?_
  · intro k hk; rw [latchLengths_er]; exact her k hk
  · intro k hk; rw [latchLengths_comb]; exact hcomb k hk
  · intro k hk; rw [latchLengths_ap]; exact hap k hk

/-- RRESET leaves the pipeline in form (R89). -/
theorem pipeOk_rreset {b : Build} {p : Pipe} (h : PipeOk b p) : PipeOk b (clearPipe p) :=
  pipeOk_clearPipe h.pd.2 (fun k hk => (h.er k hk).2) (fun k hk => (h.comb k hk).2) fun k hk => (h.ap k hk).2

/-- The pipeline at power-on is in form (R34). -/
theorem pipeOk_reset (b : Build) : PipeOk b Pipe.reset where
  pd := ⟨lineOk_of_empty rfl rfl, Nat.zero_le _⟩
  er k hk := by rw [Pipe.reset, Vector.getElem_replicate]; exact ⟨lineOk_of_empty rfl rfl, Nat.zero_le _⟩
  comb k hk := by rw [Pipe.reset, Vector.getElem_replicate]; exact ⟨lineOk_of_empty rfl rfl, Nat.zero_le _⟩
  ap k hk := by rw [Pipe.reset, Vector.getElem_replicate]; exact ⟨lineOk_of_empty rfl rfl, Nat.zero_le _⟩
  rvDcs := ⟨0, by decide, by decide, toFloat_zero.symm⟩
  dmpL := by decide
  dmpR := by decide

/-- `pclamp` leaves what it gives alone (R111). -/
theorem pclamp_pclamp (v : Word) : pclamp (pclamp v) = pclamp v := by
  have hzero : pclamp 0x00000000#32 = 0x00000000#32 := by decide
  have hone : pclamp 0x3F800000#32 = 0x3F800000#32 := by decide
  have hcases : pclamp v = 0x00000000#32 ∨ pclamp v = 0x3F800000#32 ∨ pclamp v = v := by
    unfold pclamp
    extract_lets f
    split
    · exact .inl rfl
    · split
      · exact .inl rfl
      · split
        · exact .inr (.inl rfl)
        · exact .inr (.inr rfl)
  rcases hcases with h | h | h
  · rw [h, hzero]
  · rw [h, hone]
  · rw [h, h]

end Sys2Proof.Machine
end

section
/-! The storage invariant: it holds at power-on, every register write and every command keeps it, so every step does. -/

namespace Sys2Proof.Machine

theorem inv_powerOn (b : Build) (p : Port) : Inv (State.powerOn b p) := by
  refine (inv_iff _).2 ⟨poolOk_reset b, pipeOk_reset b, zero_lt_kTwoPi, fun i => ?_⟩
  rw [show (State.powerOn b p).param[i] = 0#32 from Vector.getElem_replicate _]
  decide

/-- Settles O58. -/
theorem powerOnStateHasInvariant : Obligations.PowerOnStateHasInvariant := ⟨inv_powerOn _ _, inv_powerOn⟩

/-- The invariant is about the pool, the pipeline, the phase, the PARAM registers and the build alone. -/
theorem inv_of_same_storage {s t : State} (h : Inv s) (hpool : t.pool = s.pool) (hpipe : t.pipe = s.pipe)
    (hlfo : t.lfoPhase = s.lfoPhase) (hparam : t.param = s.param) (hbuild : t.build = s.build) : Inv t := by
  rw [inv_iff] at h ⊢
  rw [hpool, hpipe, hlfo, hparam, hbuild]
  exact h

/-- A PARAM register after a write to one holds a word that `pclamp` leaves alone (R111). -/
theorem pclamp_set {param : Vector Word 7} (h : ∀ i : Fin 7, pclamp param[i] = param[i]) (j : Fin 7) (v : Word)
    (i : Fin 7) : pclamp (param.set j (pclamp v))[i] = (param.set j (pclamp v))[i] := by
  by_cases hij : j.val = i.val
  · simp only [Fin.getElem_fin, ← hij, Vector.getElem_set_self, pclamp_pclamp]
  · simpa only [Fin.getElem_fin, Vector.getElem_set_ne _ _ hij] using h i

/-- A write to a register keeps the invariant: only a write to PARAM touches it, and it stores a clamped word. -/
theorem inv_writeReg {r : Reg} {v : Word} {s t : State} (hs : Inv s) (h : writeReg v s r = .done t) : Inv t := by
  obtain ⟨hpipe, hpool, -, hbuild, -, -, -, -, -, -, hlfo, -⟩ := writeReg_frame h
  cases r with
  | param j =>
    cases h
    obtain ⟨hpoolOk, hpipeOk, hphase, hparam⟩ := (inv_iff s).1 hs
    exact (inv_iff _).2 ⟨hpoolOk, hpipeOk, hphase, pclamp_set hparam j v⟩
  | cmd => cases h
  | _ => exact inv_of_same_storage hs hpool hpipe hlfo (by cases h; rfl) hbuild

/-- Every command keeps the invariant (R22, R23, R29 to R31). -/
theorem inv_exec {i : Instr} {s t : State} (hs : Inv s) (h : exec i s = .next t) : Inv t := by
  obtain ⟨hpool, hpipe, hphase, hparam⟩ := (inv_iff s).1 hs
  cases i with
  | nop => cases h; exact hs
  | tofix | toflt =>
    cases h
    exact inv_of_same_storage hs (setRes0_pool ..) (setRes0_pipe ..) (setRes0_lfoPhase ..) (setRes0_param ..)
      (setRes0_build ..)
  | mul | mac | add =>
    cases h
    exact inv_of_same_storage hs (setResult_pool ..) (setResult_pipe ..) (setResult_lfoPhase ..)
      (setResult_param ..) (setResult_build ..)
  | preadc id =>
    cases h
    exact inv_of_same_storage hs (setRead_pool ..) (setRead_pipe ..) (setRead_lfoPhase ..) (setRead_param ..)
      (setRead_build ..)
  | dcblk => cases h; exact inv_of_same_storage hs rfl rfl rfl rfl rfl
  | pwrite id => cases h; exact (inv_iff _).2 ⟨poolOk_poolWrite hpool _ _, hpipe, hphase, hparam⟩
  | preset => cases h; exact (inv_iff _).2 ⟨poolOk_reset _, hpipe, hphase, hparam⟩
  | prepare =>
    simp only [exec, execPrepare] at h
    split at h <;> cases h
    · next hfit => exact (inv_iff _).2 ⟨hpool, pipeOk_prepare hfit _, zero_lt_kTwoPi, hparam⟩
    · exact inv_of_same_storage hs rfl rfl rfl rfl rfl
  | rreset => cases h; exact (inv_iff _).2 ⟨hpool, pipeOk_rreset hpipe, zero_lt_kTwoPi, hparam⟩
  | proc => cases h; exact (inv_iff _).2 ⟨hpool, pipeOk_tick hpipe _ _ _, hphase, hparam⟩
  | updmod => cases h; exact (inv_iff _).2 ⟨hpool, hpipe, lfoStep_toNat_lt hphase, hparam⟩

/-- The event taken and the pin `inj` sampled leave the storage as it is. -/
theorem inv_popped {s : State} (hs : Inv s) (rest : List PortEvent) (j : Bool) : Inv (popped s rest j) :=
  inv_of_same_storage hs rfl rfl rfl rfl rfl

/-- Settles O57: power-on has the invariant, a command and a register write keep it, and in every other case of a step
the storage is as it was. -/
theorem everyStepKeepsInvariant : Obligations.EveryStepKeepsInvariant := by
  intro s t hs hstep
  cases step_cases hstep with
  | idle => exact hs
  | ignored | asserted | stillLow | readAnswered | readFailed | writeFailed | illegal =>
    exact inv_of_same_storage hs rfl rfl rfl rfl rfl
  | deasserted => exact inv_of_same_storage (inv_powerOn s.build s.port) rfl rfl rfl rfl rfl
  | written _ _ _ hw => exact inv_writeReg (inv_popped hs _ _) hw
  | ran _ _ _ hexec => exact inv_exec (inv_popped hs _ _) hexec

end Sys2Proof.Machine
end

section
/-! Bus accesses, one step at a time (20_memory.md R37 to R42, R48): what an access that names no register and a write to
a read-only register do, which write is a command, and that a step takes one event. -/

namespace Sys2Proof.Machine

/-- A command changes neither the port nor the build (R6, R48). -/
theorem exec_port_build {i : Instr} {s t : State} (h : exec i s = .next t) : t.port = s.port ∧ t.build = s.build := by
  cases i with
  | prepare =>
    simp only [exec, execPrepare] at h
    split at h <;> cases h <;> exact ⟨rfl, rfl⟩
  | tofix | toflt => cases h; exact ⟨setRes0_port .., setRes0_build ..⟩
  | mul | mac | add => cases h; exact ⟨setResult_port .., setResult_build ..⟩
  | preadc id => cases h; exact ⟨setRead_port .., setRead_build ..⟩
  | nop | dcblk | pwrite id | preset | rreset | proc | updmod => cases h; exact ⟨rfl, rfl⟩

/-- Settles O9: of the cases of a step only the two of a read add a reply, and each takes the event it names. -/
theorem stepTakesOneEvent : Obligations.StepTakesOneEvent := by
  intro s t hstep
  cases step_cases hstep with
  | idle hq => rw [hq]; exact ⟨rfl, rfl, .inl rfl⟩
  | ignored hq | asserted hq | deasserted hq | stillLow hq | writeFailed _ hq | illegal _ hq =>
    rw [hq]; exact ⟨rfl, rfl, .inl rfl⟩
  | readAnswered _ hq | readFailed _ hq => rw [hq]; exact ⟨rfl, rfl, .inr ⟨_, _, _, rfl, rfl⟩⟩
  | written _ hq _ hw =>
    obtain ⟨-, -, hport, hbuild, -⟩ := writeReg_frame hw
    rw [hq, hport]
    exact ⟨hbuild, rfl, .inl rfl⟩
  | ran _ hq _ hexec =>
    obtain ⟨hport, hbuild⟩ := exec_port_build hexec
    rw [hq, hport]
    exact ⟨hbuild, rfl, .inl rfl⟩

/-- A write is a command exactly when it writes 4 bytes to CMD, and the command word is the one written (R15, R42). -/
theorem busWrite_eq_command_iff (off : BitVec 8) (size : Nat) (v w : Word) (s : State) :
    busWrite off size v s = .command w ↔ off = 0x00#8 ∧ size = 4 ∧ w = v := by
  constructor
  · intro h
    by_cases hname : ∃ r, AccessNames off size r
    · obtain ⟨r, hname⟩ := hname
      rw [busWrite_of_names hname] at h
      obtain ⟨rfl, rfl⟩ := writeReg_eq_command h
      obtain ⟨hsize, hoff⟩ := hname
      exact ⟨eq_ofNat_regOffset hoff, hsize, rfl⟩
    · rw [busWrite_of_names_none (not_exists.1 hname)] at h
      cases h
  · rintro ⟨rfl, rfl, rfl⟩
    exact busWrite_regOffset .cmd w s

/-- Settles O6: each clause is what a step does that takes a write, a read or no event. -/
theorem stepPerformsOneAccess : Obligations.StepPerformsOneAccess := by
  refine ⟨fun s off size v j rest t hr hq hdone => ?_, fun s off size v w j rest hr hq hcmd => ?_,
    fun s off size v w => busWrite_eq_command_iff off size v w s, fun s off size rest => step_of_read,
    fun s off size rest r hr hq hwf hreg => ?_, fun s => step_of_idle⟩
  · rw [step_of_write hr hq, hdone]
  · rw [step_of_write hr hq, hcmd]
  · obtain ⟨rfl, hoff⟩ := (accessNames_iff off size r).2 ⟨hwf, hreg⟩
    exact step_of_mapped_read hr hq hoff

/-- A step that takes an access which names no register raises BusError: a write does nothing else, a read is answered
with 0 (R37, R38). -/
theorem step_of_names_none {s : State} {off : BitVec 8} {size : Nat} {v : Word} {j : Bool} {rest : List PortEvent}
    (hr : s.port.rst = false) (hnone : ∀ r, ¬ AccessNames off size r) :
    (s.port.queue = .write off size v j :: rest → step s = .next { popped s rest j with err := .busError }) ∧
    (s.port.queue = .read off size :: rest → step s = .next { answered s rest 0#32 with err := .busError }) := by
  constructor
  · intro hq
    rw [step_of_write hr hq, busWrite_of_names_none hnone]
    rfl
  · intro hq
    rw [step_of_read hr hq, busRead_of_names_none hnone]
    rfl

/-- Settles O10: an access that names a register is well formed. -/
theorem malformedAccessRaisesBusError : Obligations.MalformedAccessRaisesBusError := by
  intro s off size v j rest hr hbad
  refine step_of_names_none hr fun r hname => ?_
  obtain ⟨⟨hsize, halign⟩, -⟩ := (accessNames_iff off size r).1 hname
  exact hbad.elim (· hsize) (· halign)

/-- The registers lie in three blocks of the window, with gaps after each (R12). -/
theorem regOffset_in_blocks (r : Reg) : regOffset r ≤ 0x48 ∨ (0x80 ≤ regOffset r ∧ regOffset r ≤ 0xB8) ∨
    (0xC0 ≤ regOffset r ∧ regOffset r ≤ 0xF8) := by
  cases r with
  | param i | erGain i | erLen i | combLen i | apLen i => simp only [regOffset]; omega
  | cmd | opa | opb | opc | res0 | res1 | status | poolCursor | lfoPhase | tailLevel | dcs | rAtten | combFb | apCoef
  | dampA | dampB | mixWet | mixDry | pdOffset | pdLen => decide

/-- Settles O11: the unmapped offsets lie in the gaps between the blocks of registers. -/
theorem unmappedAccessRaisesBusError : Obligations.UnmappedAccessRaisesBusError := by
  intro s off v j rest hr _ hgap
  refine step_of_names_none hr fun r hname => ?_
  obtain ⟨-, hoff⟩ := hname
  have hblock := regOffset_in_blocks r
  omega

/-- A write to a read-only register raises BusError and does nothing else (R39). -/
theorem writeReg_of_ro {r : Reg} (h : accessCode r = .ro) (v : Word) (s : State) :
    writeReg v s r = .done (raise .busError s) := by
  cases r with
  | res0 | res1 | poolCursor | lfoPhase | tailLevel | rAtten => rfl
  | _ => cases h

/-- The six offsets of R39 are those of read-only registers. -/
theorem exists_ro_of_mem {n : Nat} (h : n ∈ [0x10, 0x14, 0x1C, 0x20, 0x24, 0x2C]) :
    ∃ r, accessCode r = .ro ∧ n = regOffset r := by
  simp only [List.mem_cons, List.not_mem_nil, or_false] at h
  rcases h with rfl | rfl | rfl | rfl | rfl | rfl
  · exact ⟨.res0, rfl, rfl⟩
  · exact ⟨.res1, rfl, rfl⟩
  · exact ⟨.poolCursor, rfl, rfl⟩
  · exact ⟨.lfoPhase, rfl, rfl⟩
  · exact ⟨.tailLevel, rfl, rfl⟩
  · exact ⟨.rAtten, rfl, rfl⟩

/-- Settles O12: each of the six offsets names a read-only register, and the write has that register's effect. -/
theorem readOnlyWriteRaisesBusError : Obligations.ReadOnlyWriteRaisesBusError := by
  intro s off v j rest hr hq hmem
  obtain ⟨r, hro, hoff⟩ := exists_ro_of_mem hmem
  rw [step_of_write hr hq, busWrite_of_names ⟨rfl, hoff⟩, writeReg_of_ro hro]
  rfl

end Sys2Proof.Machine
end

section
/-! Decoding and encoding are inverse to each other, and a word decodes exactly when it matches one row of the opcode map
(30_encoding.md R54 to R59). -/

namespace Sys2Proof

/-- The checks of R59 as one condition: OP is assigned, RSV is 0, and ID is 0 unless the command takes it. -/
theorem decode_eq_command_iff (w : Word) (i : Instr) : decode w = .command i ↔
    commandOf (opField w) (idField w).toNat = some i ∧ rsvField w = 0#8 ∧
      (takesId (opField w) = false → idField w = 0#16) := by
  unfold decode
  split
  · next hnone => simp [hnone]
  · next i' hi' =>
    split_ifs with hrsv hid
    · simp [show rsvField w ≠ 0#8 from hrsv]
    · simp [hid.1, show idField w ≠ 0#16 from hid.2]
    · have hrsv : rsvField w = 0#8 := not_not.1 hrsv
      have hid : takesId (opField w) = false → idField w = 0#16 := fun ht => by_contra fun hne => hid ⟨ht, hne⟩
      simpa [hi', hrsv] using fun _ => hid

/-- The OP value and the ID of a well-formed command give the command back (R55, R56, R58). -/
theorem commandOf_op_idBits {i : Instr} (h : i.WellFormed) : commandOf i.op i.idBits.toNat = some i := by
  cases i with
  | pwrite id => exact congrArg (some ∘ Instr.pwrite) (Nat.mod_eq_of_lt h)
  | preadc id => exact congrArg (some ∘ Instr.preadc) (Nat.mod_eq_of_lt h)
  | nop | tofix | toflt | mul | mac | add | dcblk | preset | prepare | rreset | proc | updmod => rfl

/-- A command that takes no ID is encoded with ID 0 (R55). -/
theorem idBits_of_takesId_eq_false {i : Instr} (h : takesId i.op = false) : i.idBits = 0#16 := by
  cases i with
  | pwrite id | preadc id => cases h
  | nop | tofix | toflt | mul | mac | add | dcblk | preset | prepare | rreset | proc | updmod => rfl

/-- A well-formed command is what its encoding decodes to. -/
theorem decode_encode {i : Instr} (h : i.WellFormed) : decode (encode i) = .command i := by
  rw [decode_eq_command_iff, opField_encode, rsvField_encode, idField_encode]
  exact ⟨commandOf_op_idBits h, rfl, idBits_of_takesId_eq_false⟩

/-- The four byte lanes of a word hold the word (R43). -/
theorem wordOfLanes_extract (w : Word) : wordOfLanes (w.extractLsb' 0 8) (w.extractLsb' 8 8) (w.extractLsb' 16 8)
    (w.extractLsb' 24 8) = w := by
  refine BitVec.eq_of_toNat_eq ?_
  simp only [wordOfLanes, Machine.toNat_append_eq_add, BitVec.extractLsb'_toNat, Nat.shiftRight_eq_div_pow]
  omega

/-- A word decodes from its byte lanes as it does itself, whatever bytes follow (R43, R54). -/
theorem decodeBytes_lanesOf (w : Word) (rest : List Byte) : decodeBytes (lanesOf w ++ rest) = decode w :=
  congrArg decode (wordOfLanes_extract w)

/-- An ID of 16 bits gives well-formed commands only (R55). -/
theorem wellFormed_of_commandOf {op : BitVec 8} {id : Nat} {i : Instr} (h : commandOf op id = some i)
    (hid : id < 2 ^ 16) : i.WellFormed := by
  obtain rfl := op_of_commandOf h
  cases i with
  | pwrite k | preadc k => cases h; exact hid
  | nop | tofix | toflt | mul | mac | add | dcblk | preset | prepare | rreset | proc | updmod => trivial

/-- A word decodes to well-formed commands only. -/
theorem wellFormed_of_decode {w : Word} {i : Instr} (h : decode w = .command i) : i.WellFormed := by
  obtain ⟨hcmd, -, -⟩ := (decode_eq_command_iff w i).1 h
  exact wellFormed_of_commandOf hcmd (idField w).isLt

/-- Settles O1. -/
theorem encodeAndDecodeAreInverse : Obligations.EncodeAndDecodeAreInverse :=
  ⟨fun _ => decode_encode, fun i rest h => (decodeBytes_lanesOf (encode i) rest).trans (decode_encode h),
    fun _ _ h => ⟨wellFormed_of_decode h, encode_of_decode h⟩⟩

/-- Settles O4: each word is its command's encoding. -/
theorem writtenWordsDecode : Obligations.WrittenWordsDecode :=
  ⟨decode_encode (i := .nop) trivial, decode_encode (i := .mul) trivial,
    decode_encode (i := .pwrite 65535) (by decide), decode_encode (i := .preadc 5) (by decide),
    decode_encode (i := .proc) trivial⟩

/-- The row of the opcode map for a command: OP and RSV are fixed, and ID too unless the command takes it (R58). -/
def Instr.row (i : Instr) : OpcodeRow where
  mnemonic := i.mnemonic
  pattern := i.op ++ (0#8 ++ 0#16 : BitVec 24)
  mask := 0xFF#8 ++ (0xFF#8 ++ (if takesId i.op then 0#16 else 0xFFFF#16) : BitVec 24)

/-- The rows of the opcode map are those of the commands (R58). -/
theorem mem_opcodeMap_iff (r : OpcodeRow) : r ∈ opcodeMap ↔ ∃ i : Instr, i.row = r := by
  constructor
  · have hmap : opcodeMap = [Instr.nop, .tofix, .toflt, .mul, .mac, .add, .dcblk, .pwrite 0, .preadc 0, .preset,
      .prepare, .rreset, .proc, .updmod].map Instr.row := by decide
    rw [hmap]
    intro h
    obtain ⟨i, -, hi⟩ := List.mem_map.1 h
    exact ⟨i, hi⟩
  · rintro ⟨i, rfl⟩
    cases i with
    | pwrite id => exact show (Instr.pwrite 0).row ∈ opcodeMap by decide
    | preadc id => exact show (Instr.preadc 0).row ∈ opcodeMap by decide
    | nop | tofix | toflt | mul | mac | add | dcblk | preset | prepare | rreset | proc | updmod => decide

/-- Words put together from three fields are equal exactly when the fields are (R55). -/
theorem append_fields_inj {op op' rsv rsv' : BitVec 8} {id id' : BitVec 16} :
    op ++ (rsv ++ id : BitVec 24) = op' ++ (rsv' ++ id' : BitVec 24) ↔ op = op' ∧ rsv = rsv' ∧ id = id' := by
  simp only [← BitVec.toNat_inj, Machine.toNat_append_eq_add]
  omega

/-- A mask put together from three fields masks each field of a word. -/
theorem and_append_fields (w : Word) (op rsv : BitVec 8) (id : BitVec 16) :
    w &&& (op ++ (rsv ++ id : BitVec 24)) =
      (opField w &&& op) ++ ((rsvField w &&& rsv) ++ (idField w &&& id) : BitVec 24) := by
  rw [← BitVec.and_append, ← BitVec.and_append, fields_append]

/-- A word matches a command's row exactly when it passes the checks of R59 with the command's OP. -/
theorem matches_row_iff (w : Word) (i : Instr) : w &&& i.row.mask = i.row.pattern ↔
    opField w = i.op ∧ rsvField w = 0#8 ∧ (takesId i.op = false → idField w = 0#16) := by
  have hmask : w &&& i.row.mask = (opField w &&& BitVec.allOnes 8) ++ ((rsvField w &&& BitVec.allOnes 8) ++
      (idField w &&& if takesId i.op then 0#16 else BitVec.allOnes 16) : BitVec 24) := and_append_fields w _ _ _
  rw [hmask, BitVec.and_allOnes, BitVec.and_allOnes]
  refine append_fields_inj.trans ?_
  cases takesId i.op with
  | true => simp
  | false => simp only [Bool.false_eq_true, if_false, BitVec.and_allOnes, true_implies]

/-- The rows a word matches are those of the commands with its OP, if it passes the checks of R59. -/
theorem mem_matchingRows_iff (w : Word) (r : OpcodeRow) : r ∈ matchingRows w ↔ ∃ i : Instr, i.row = r ∧
    opField w = i.op ∧ rsvField w = 0#8 ∧ (takesId i.op = false → idField w = 0#16) := by
  rw [matchingRows, List.mem_filter, mem_opcodeMap_iff, beq_iff_eq]
  constructor
  · rintro ⟨⟨i, rfl⟩, hmatch⟩; exact ⟨i, rfl, (matches_row_iff w i).1 hmatch⟩
  · rintro ⟨i, rfl, hfields⟩; exact ⟨⟨i, rfl⟩, (matches_row_iff w i).2 hfields⟩

/-- OP is bits 31:24 of a command's row (R55, R58). -/
theorem opField_row (i : Instr) : opField i.row.pattern = i.op := BitVec.extractLsb'_append_eq_left

/-- No two rows of the opcode map have one OP, so no word matches two (R58). -/
theorem length_matchingRows_le_one (w : Word) : (matchingRows w).length ≤ 1 := by
  have hdistinct : (opcodeMap.map fun r => opField r.pattern).Nodup := by decide
  have hnodup : ((matchingRows w).map fun r => opField r.pattern).Nodup :=
    hdistinct.sublist (List.filter_sublist.map _)
  have hsame : (matchingRows w).map (fun r => opField r.pattern) = List.replicate (matchingRows w).length (opField w) := by
    refine List.map_eq_replicate_iff.2 fun r hr => ?_
    obtain ⟨i, rfl, hop, -⟩ := (mem_matchingRows_iff w r).1 hr
    rw [opField_row, hop]
  rw [hsame] at hnodup
  exact List.nodup_replicate.1 hnodup

/-- A word that decodes matches the row of its command and no other (R58). -/
theorem matchingRows_of_decode {w : Word} {i : Instr} (h : decode w = .command i) : matchingRows w = [i.row] := by
  obtain ⟨hcmd, hchecks⟩ := (decode_eq_command_iff w i).1 h
  rw [← op_of_commandOf hcmd] at hchecks
  have hmem : i.row ∈ matchingRows w :=
    (mem_matchingRows_iff w i.row).2 ⟨i, rfl, (op_of_commandOf hcmd).symm, hchecks⟩
  obtain ⟨r, hr⟩ := List.length_eq_one_iff.1
    (Nat.le_antisymm (length_matchingRows_le_one w) (List.length_pos_of_mem hmem))
  rw [hr, List.mem_singleton] at hmem
  rw [hr, hmem]

/-- The OP of a command is assigned, whatever the ID (R58). -/
theorem exists_commandOf_op (i : Instr) (id : Nat) : ∃ i', commandOf i.op id = some i' := by
  cases i <;> exact ⟨_, rfl⟩

/-- A word that matches a row encodes a command (R58). -/
theorem exists_decode_of_mem_matchingRows {w : Word} {r : OpcodeRow} (h : r ∈ matchingRows w) :
    ∃ i, decode w = .command i := by
  obtain ⟨i, -, hop, hchecks⟩ := (mem_matchingRows_iff w r).1 h
  obtain ⟨i', hcmd⟩ := exists_commandOf_op i (idField w).toNat
  rw [← hop] at hcmd hchecks
  exact ⟨i', (decode_eq_command_iff w i').2 ⟨hcmd, hchecks⟩⟩

/-- Settles O2: a word that decodes matches the row of its command, and no other. -/
theorem decodeMatchesOneOpcodeRow : Obligations.DecodeMatchesOneOpcodeRow := by
  refine ⟨fun w => ⟨?_, ?_⟩, length_matchingRows_le_one, fun w i h => ?_⟩
  · rintro ⟨i, h⟩
    exact ⟨i.row, matchingRows_of_decode h⟩
  · rintro ⟨r, hr⟩
    exact exists_decode_of_mem_matchingRows (hr ▸ List.mem_singleton_self r)
  · rw [matchingRows_of_decode h]
    rfl

end Sys2Proof
end

section
/-! What each command writes (30_encoding.md R57). -/

namespace Sys2Proof.Machine

/-- The write column of R57: the parts of the state a command replaces, with the values it writes left open. -/
inductive WriteColumn (s : State) : Instr → State → Prop where
  | nop : WriteColumn s .nop s
  | tofix (res0 : Word) : WriteColumn s .tofix { s with res0 }
  | toflt (res0 : Word) : WriteColumn s .toflt { s with res0 }
  | mul (res0 : Word) (ovf : Bool) : WriteColumn s .mul { s with res0, ovf }
  | mac (res0 : Word) (ovf : Bool) : WriteColumn s .mac { s with res0, ovf }
  | add (res0 : Word) (ovf : Bool) : WriteColumn s .add { s with res0, ovf }
  | dcblk (res0 dcs : Word) : WriteColumn s .dcblk { s with res0, dcs }
  | pwrite (id : Nat) (pool : Pool) : WriteColumn s (.pwrite id) { s with pool }
  | preadc (id : Nat) (res0 : Word) (cont : Bool) : WriteColumn s (.preadc id) { s with res0, cont }
  | preset (pool : Pool) : WriteColumn s .preset { s with pool }
  | prepare (pipe : Pipe) (lfoPhase tailLevel : Word) (life : Lifecycle) :
      WriteColumn s .prepare { s with pipe, lfoPhase, tailLevel, life }
  | prepareFailed : WriteColumn s .prepare { s with err := .allocFail }
  | rreset (pipe : Pipe) (lfoPhase tailLevel : Word) (life : Lifecycle) :
      WriteColumn s .rreset { s with pipe, lfoPhase, tailLevel, life }
  | proc (pipe : Pipe) (res0 res1 tailLevel : Word) (povf : Bool) (life : Lifecycle) :
      WriteColumn s .proc { s with pipe, res0, res1, tailLevel, povf, life }
  | updmod (lfoPhase : Word) : WriteColumn s .updmod { s with lfoPhase }

/-- Every command writes what the table gives it and nothing else (R57). -/
theorem writeColumn_of_exec {i : Instr} {s t : State} (h : exec i s = .next t) : WriteColumn s i t := by
  cases i with
  | prepare =>
    simp only [exec, execPrepare] at h
    split at h <;> cases h
    · exact .prepare ..
    · exact .prepareFailed
  | nop => cases h; exact .nop
  | tofix => cases h; exact .tofix _
  | toflt => cases h; exact .toflt _
  | mul => cases h; exact .mul ..
  | mac => cases h; exact .mac ..
  | add => cases h; exact .add ..
  | dcblk => cases h; exact .dcblk ..
  | pwrite id => cases h; exact .pwrite ..
  | preadc id => cases h; exact .preadc ..
  | preset => cases h; exact .preset _
  | rreset => cases h; exact .rreset ..
  | proc => cases h; exact .proc ..
  | updmod => cases h; exact .updmod _

/-- Settles O53: row by row of the table, an item is as it was or the command is one of those named for it. -/
theorem commandsWriteOnlyTheirRegisters : Obligations.CommandsWriteOnlyTheirRegisters := by
  intro i s t h
  cases writeColumn_of_exec h with
  | nop | tofix | toflt | mul | mac | add | dcblk | pwrite | preadc | preset | prepare | prepareFailed | rreset | proc
  | updmod => simp

end Sys2Proof.Machine
end

section
/-! The pseudo-instructions of 30_encoding.md (R61, R62): each SET is one step, and the last access runs the command. -/

namespace Sys2Proof.Machine

/-- A run that starts with a SET goes on from the register write's result (R62). -/
theorem stepMany_of_setReg {s t : State} {r : Reg} {v : Word} {j : Bool} {rest : List PortEvent} (n : Nat)
    (hr : s.port.rst = false) (hq : s.port.queue = setReg r v j :: rest)
    (hdone : writeReg v (popped s rest j) r = .done t) : stepMany (n + 1) s = stepMany n t :=
  stepMany_succ n (by rw [step_of_setReg hr hq, hdone])

/-- A word written to CMD is executed (R59, R62). -/
theorem stepMany_of_setCmd {s : State} {w : Word} {j : Bool} {rest : List PortEvent} (hr : s.port.rst = false)
    (hq : s.port.queue = setReg .cmd w j :: rest) : stepMany 1 s = execute w (popped s rest j) :=
  (stepMany_one s).trans (step_of_setReg hr hq)

/-- A well-formed command's encoding executes as the command (R59). -/
theorem execute_encode {i : Instr} (hi : i.WellFormed) (s : State) : execute (encode i) s = exec i s := by
  rw [execute, decode_encode hi]

/-- A bare command runs in one step (R61). -/
theorem stepMany_of_bare {s : State} {i : Instr} {j : Bool} {rest : List PortEvent} (hi : i.WellFormed)
    (hr : s.port.rst = false) (hq : s.port.queue = setReg .cmd (encode i) j :: rest) :
    stepMany 1 s = exec i (popped s rest j) :=
  (stepMany_of_setCmd hr hq).trans (execute_encode hi _)

/-- The number of a register's offset is the offset itself, which fits the window (R12). -/
theorem toNat_ofNat_regOffset (r : Reg) : (BitVec.ofNat 8 (regOffset r)).toNat = regOffset r :=
  (regAt_eq_some_iff _ r).1 (regAt_regOffset r)

/-- Settles O19: an operand's SET leaves `rst` low and the rest of the expansion at the head of the queue, so the next access
finds what its own lemma asks for. -/
theorem pseudoInstructionSetsOperandsThenRuns : Obligations.PseudoInstructionSetsOperandsThenRuns := by
  intro s rest hr
  refine ⟨fun i j hi hq => stepMany_of_bare hi hr hq, fun i a j hi hq => ?_, fun i a b j hi hq => ?_,
    fun i a b c j hi hq => ?_, fun w j hq => stepMany_of_setCmd hr hq, fun r v t hq hdone => ?_, fun r hq => ?_,
    fun hq => ?_⟩
  · calc stepMany 2 s
        = stepMany 1 _ := stepMany_of_setReg 1 hr hq rfl
      _ = exec i { popped s rest j with opa := a } := stepMany_of_bare hi hr rfl
  · calc stepMany 3 s
        = stepMany 2 _ := stepMany_of_setReg 2 hr hq rfl
      _ = stepMany 1 _ := stepMany_of_setReg 1 hr rfl rfl
      _ = exec i { popped s rest j with opa := a, opb := b } := stepMany_of_bare hi hr rfl
  · calc stepMany 4 s
        = stepMany 3 _ := stepMany_of_setReg 3 hr hq rfl
      _ = stepMany 2 _ := stepMany_of_setReg 2 hr rfl rfl
      _ = stepMany 1 _ := stepMany_of_setReg 1 hr rfl rfl
      _ = exec i { popped s rest j with opa := a, opb := b, opc := c } := stepMany_of_bare hi hr rfl
  · rw [busWrite_regOffset] at hdone
    exact stepMany_of_setReg 0 hr hq hdone
  · exact (stepMany_one s).trans (step_of_mapped_read hr hq (toNat_ofNat_regOffset r))
  · exact stepMany_of_setReg 0 hr hq rfl

end Sys2Proof.Machine
end

section
/-! The saturating commands of the FixedPointUnit (40_fixed_point.md R64 to R67, R72 to R74): the clamp and its overflow
output are the domain's own by cases, and the floor shift is the floor of the division by 4096. -/

namespace Sys2Proof.Machine

/-- The clamp brings a value into the domain (R9). -/
theorem clamp20_eq_toDomain (v : Int) : clamp20 v = toDomain v := clamp20_eq v

/-- The overflow output says that a value lies outside the domain (R9). -/
theorem out20_eq_outsideDomain (v : Int) : out20 v = outsideDomain v := by
  simp only [out20, outsideDomain, Bool.decide_or]

/-- The arithmetic shift by 12 is the floor of the division by 4096 (R66). -/
theorem sra12_eq_fdiv (p : Int) : sra12 p = p.fdiv 4096 := (Int.fdiv_eq_ediv_of_nonneg p (by decide)).symm

/-- A saturated result writes RES0 and OVF alone (R17). -/
theorem setResult_sat (v : Int) (s : State) :
    setResult (sat v) s = { s with res0 := w32 (toDomain v), ovf := outsideDomain v } := by
  rw [← clamp20_eq_toDomain, ← out20_eq_outsideDomain]; rfl

/-- MUL saturates the floored product (R72). -/
theorem exec_mul (s : State) : exec .mul s = .next (setResult (sat ((s32 s.opa * s32 s.opb).fdiv 4096)) s) := by
  rw [← sra12_eq_fdiv]; rfl

/-- MAC saturates the floored product plus the addend (R73). -/
theorem exec_mac (s : State) :
    exec .mac s = .next (setResult (sat ((s32 s.opa * s32 s.opb).fdiv 4096 + s32 s.opc)) s) := by
  rw [← sra12_eq_fdiv]; rfl

/-- ADD saturates the sum (R74). -/
theorem exec_add (s : State) : exec .add s = .next (setResult (sat (s32 s.opa + s32 s.opb)) s) := rfl

/-- Settles O25: MUL's result is one saturated value. -/
theorem mulWritesSaturatedProduct : Obligations.MulWritesSaturatedProduct :=
  ⟨rfl, fun s => by rw [exec_mul, setResult_sat]⟩

/-- Settles O26: MAC's result is one saturated value. -/
theorem macWritesSaturatedSum : Obligations.MacWritesSaturatedSum :=
  ⟨rfl, fun s => by rw [exec_mac, setResult_sat]⟩

/-- The product by 4096, floored after the division by 4096, is the other factor (R74). -/
theorem fdiv_mul_s32_4096 (a : Int) : (a * s32 4096#32).fdiv 4096 = a := Int.mul_fdiv_cancel a (by decide)

/-- Settles O27: with the factor 4096 MAC saturates the sum that ADD saturates. -/
theorem addWritesSaturatedSum : Obligations.AddWritesSaturatedSum := by
  refine ⟨rfl, fun s => by rw [exec_add, setResult_sat], fun s => ⟨_, _, by rw [exec_add, setResult_sat], ?_⟩⟩
  rw [exec_mac, setResult_sat, fdiv_mul_s32_4096]

/-- Settles O28: MUL, MAC and ADD write a clamped value, TOFIX and DCBLK a value of `toFixed`. -/
theorem fixedPointResultsAreClamped : Obligations.FixedPointResultsAreClamped := by
  intro s i hi
  have hsat : ∀ v, Clamped (setResult (sat v) s).res0 := fun v => clamped_w32 (clamp20_range v)
  have hfixed : ∀ f, Clamped (w32 (toFixed f)) := fun f => clamped_w32 (toFixed_range f)
  simp only [List.mem_cons, List.not_mem_nil, or_false] at hi
  rcases hi with rfl | rfl | rfl | rfl | rfl
  · exact ⟨_, rfl, hfixed _⟩
  · exact ⟨_, exec_mul s, hsat _⟩
  · exact ⟨_, exec_mac s, hsat _⟩
  · exact ⟨_, exec_add s, hsat _⟩
  · exact ⟨_, rfl, hfixed _⟩

end Sys2Proof.Machine
end

section
/-! TOFIX reads a pattern by its fields, and TOFLT rounds once (40_fixed_point.md R70, R71); a magnitude below 2^24 steps
is one of the format, so rounding leaves it alone. -/

namespace Sys2Proof.Machine

/-- A magnitude of the format is rounded to itself. -/
theorem roundMag_of_isMag {f : FFmt} (hf : 0 < f.prec) {m : Nat} (h : IsMag f m) : roundMag f m 0 = m := by
  by_contra hne
  obtain ⟨-, hnear⟩ := roundMag_nearestEven hf m 0
  have := hnear m h (Ne.symm hne)
  simp only [pow_zero, mul_one] at this
  omega

/-- A pattern is its bit 31, its exponent field and its fraction field (R10). -/
theorem toNat_eq_fields (w : Word) : w.toNat =
    (if w.getLsbD 31 then 2 ^ 31 else 0) + (w.toNat / 2 ^ 23 % 2 ^ 8 * 2 ^ 23 + w.toNat % 2 ^ 23) := by
  have hlt := w.isLt
  have hsign : w.getLsbD 31 = decide (2 ^ 31 ≤ w.toNat) := BitVec.msb_eq_decide w
  simp only [hsign, decide_eq_true_eq]
  split <;> omega

/-- Scaling by `2^(e - 1)` in units of 2^-149 is scaling by `2^e` in half units. -/
theorem mul_two_pow_pred_div (sig : Nat) {e : Nat} (he : e ≠ 0) :
    sig * 2 ^ (e - 1) / 2 ^ 137 = sig * 2 ^ e / 2 ^ 138 := by
  obtain ⟨k, rfl⟩ := Nat.exists_eq_succ_of_ne_zero he
  calc sig * 2 ^ k / 2 ^ 137
      = sig * 2 ^ k * 2 / (2 ^ 137 * 2) := (Nat.mul_div_mul_right _ _ (by decide)).symm
    _ = sig * 2 ^ (k + 1) / 2 ^ 138 := by rw [Nat.mul_assoc, ← Nat.pow_succ, ← Nat.pow_succ]

/-- A finite value is truncated to whole steps and brought into the domain (R70). -/
theorem toFixed_fin (neg : Bool) (m : Nat) :
    toFixed (.fin neg m) = toDomain (if neg then -((m / 2 ^ 137 : Nat) : Int) else (m / 2 ^ 137 : Nat)) :=
  clamp20_eq_toDomain _

/-- Settles O23: the cases of a pattern's fields are the cases of `toFixed`. -/
theorem tofixTruncatesAndClamps : Obligations.TofixTruncatesAndClamps := by
  refine ⟨rfl, fun s => ?_⟩
  extract_lets neg e frac sig mag q
  have hq : toFixed (unpack32 s.opa) = q := by
    rw [unpack32_of_fields (neg := neg) (e := e) (frac := frac) (Nat.mod_lt _ (by decide)) (Nat.mod_lt _ (by decide))
      (toNat_eq_fields s.opa)]
    by_cases hspecial : e = 255
    · by_cases hinf : frac = 0
      · simp only [q, hspecial, hinf, if_true, ne_eq, not_true_eq_false, if_false]
        cases neg <;> rfl
      · simp only [q, hspecial, hinf, if_true, ne_eq, not_false_eq_true, if_false, toFixed]
    · by_cases hsub : e = 0
      · have hmag : frac / 2 ^ 137 = sig * 2 ^ max e 1 / 2 ^ 138 := by
          simp only [sig, hsub, if_true, Nat.zero_max, pow_one]; omega
        simp only [q, mag, hspecial, if_false, ← hmag]
        rw [if_pos hsub, toFixed_fin]
      · have hmag : (2 ^ 23 + frac) * 2 ^ (e - 1) / 2 ^ 137 = sig * 2 ^ max e 1 / 2 ^ 138 := by
          rw [mul_two_pow_pred_div _ hsub, Nat.max_eq_left (Nat.one_le_iff_ne_zero.2 hsub)]
          simp only [sig, hsub, if_false]
        simp only [q, mag, hspecial, if_false, ← hmag]
        rw [if_neg hsub, toFixed_fin]
  rw [← hq]; rfl

/-- A 32-bit integer's magnitude is at most 2^31. -/
theorem natAbs_s32_le (w : Word) : (s32 w).natAbs ≤ 2 ^ 31 := by
  have hlo := BitVec.le_toInt w
  have hhi := BitVec.toInt_lt (x := w)
  simp only [s32] at *
  omega

/-- The magnitude of a 32-bit integer's steps is below binary32's overflow. -/
theorem lt_overflow_of_le {m : Nat} (h : m ≤ 2 ^ 31 * 2 ^ 137) : m < 2 ^ binary32.topExp := by
  rw [← Nat.pow_add] at h
  exact h.trans_lt (Nat.pow_lt_pow_right (by decide) (by decide))

/-- The float of a 32-bit integer is finite: its magnitude is rounded once and stays below the overflow (R71). -/
theorem toFloatV_eq_fin {n : Int} (h : n.natAbs ≤ 2 ^ 31) :
    toFloatV n = .fin (decide (n < 0)) (roundMag binary32 (n.natAbs * 2 ^ 137) 0) := by
  have hr : roundMag binary32 (n.natAbs * 2 ^ 137) 0 ≤ 2 ^ 31 * 2 ^ 137 :=
    roundMag_le_of_isMag (by decide) ⟨1, 168, by norm_num, by decide⟩ (Nat.mul_le_mul_right _ h)
  rw [toFloatV, froundMag]
  exact if_neg (Nat.not_le.2 (lt_overflow_of_le hr))

/-- A number of quantization steps with at most 24 bits is a magnitude of binary32. -/
theorem isMag_steps {k : Nat} (h : k < 2 ^ 24) : IsMag binary32 (k * 2 ^ 137) := ⟨k, 137, rfl, h⟩

/-- The conversion to a float is exact below 2^24 steps (R71). -/
theorem toFloatV_of_lt {n : Int} (h : n.natAbs < 2 ^ 24) : toFloatV n = .fin (decide (n < 0)) (n.natAbs * 2 ^ 137) := by
  rw [toFloatV_eq_fin (by omega), roundMag_of_isMag (by decide) (isMag_steps h)]

/-- Settles O24: a 32-bit integer's float is finite and rounded to nearest. -/
theorem tofltRoundsToNearestEven : Obligations.TofltRoundsToNearestEven := by
  refine ⟨rfl, fun s => ⟨toFloat (s32 s.opa), _, rfl, ?_, roundMag_nearestEven (by decide) _ 0, fun h => ?_, fun h => ?_⟩⟩
  · rw [unpack32_toFloat, toFloatV_eq_fin (natAbs_s32_le s.opa)]
  · exact roundMag_of_isMag (by decide) (isMag_steps h)
  · rw [h, toFloat_zero]

end Sys2Proof.Machine
end

section
/-! Samples and floats (40_fixed_point.md R75, R76): a sample's float is exact and comes back, a float of the Q12 range
loses less than one step, and the DC block's formula on the states +0.0, infinity and NaN. -/

namespace Sys2Proof.Machine

/-- A sign and a magnitude make up an integer. -/
theorem signed_natAbs (n : Int) : signed (decide (n < 0)) n.natAbs = n := by
  simp only [signed, decide_eq_true_eq]
  split <;> omega

/-- Negating and scaling commute. -/
theorem signed_mul (neg : Bool) (m k : Nat) : signed neg (m * k) = signed neg m * k := by
  cases neg <;> simp [signed]

/-- A whole number of steps is clamped and not truncated (R70). -/
theorem toFixed_steps (n : Int) : toFixed (.fin (decide (n < 0)) (n.natAbs * 2 ^ 137)) = clamp20 n := by
  rw [toFixed, Nat.mul_div_cancel _ (Nat.two_pow_pos _), signed_natAbs]

/-- A sample survives the way to a float and back (R76). -/
theorem toFixedF_toFloat {n : Int} (h : -524288 ≤ n ∧ n ≤ 524287) : toFixedF (toFloat n) = n := by
  rw [toFixedF, unpack32_toFloat, toFloatV_of_lt (by omega), toFixed_steps, clamp20_of_range h]

/-- The float of a sample is the sample in units of 2^-149 (R71). -/
theorem hasUnits_toFloat {n : Int} (h : n.natAbs < 2 ^ 24) : HasUnits (toFloat n) (n * 2 ^ 137) := by
  refine ⟨_, _, (unpack32_toFloat n).trans (toFloatV_of_lt h), ?_⟩
  rw [signed_mul, signed_natAbs]; push_cast; rfl

/-- A value of the Q12 range is truncated, not clamped, and the truncation takes less than one step off it (R70, R76). -/
theorem toFixed_of_q12_range {neg : Bool} {m : Nat} (hlo : -524288 * 2 ^ 137 ≤ signed neg m)
    (hhi : signed neg m ≤ 524287 * 2 ^ 137) :
    toFixed (.fin neg m) = signed neg (m / 2 ^ 137) ∧
      (signed neg (m / 2 ^ 137) * 2 ^ 137 - signed neg m).natAbs < 2 ^ 137 := by
  have hbound : -524288 ≤ signed neg (m / 2 ^ 137) ∧ signed neg (m / 2 ^ 137) ≤ 524287 := by
    cases neg <;> simp only [signed, if_true, Bool.false_eq_true, if_false] at * <;> omega
  refine ⟨clamp20_of_range hbound, ?_⟩
  cases neg <;> simp only [signed, if_true, Bool.false_eq_true, if_false] <;> omega

/-- Settles O30: both ways go through an exact float. -/
theorem fixedPointRoundTripWithinOneStep : Obligations.FixedPointRoundTripWithinOneStep := by
  refine ⟨?_, fun n hlo hhi => toFixedF_toFloat ⟨hlo, hhi⟩⟩
  rintro f _ ⟨neg, m, hf, rfl⟩ hlo hhi
  obtain ⟨htrunc, hstep⟩ := toFixed_of_q12_range hlo hhi
  have hrange := toFixed_range (.fin neg m)
  refine ⟨_, hasUnits_toFloat (n := toFixedF f) ?_, ?_⟩
  · rw [toFixedF, hf]; omega
  · rwa [toFixedF, hf, htrunc]

/-- DCBLK's result is the formula on patterns (R75). -/
theorem dcBlock_eq_formula (x : Int) (st : Word) :
    dcBlock x st = toFixedF (fadd (fsub (toFloat x) st) (fmul k999 st)) := by
  rw [toFixedF, unpack32_fadd, unpack32_fsub, unpack32_fmul, unpack32_toFloat]; rfl

/-- DCBLK writes its result to RES0 and the float of OPA to DCS (R75). -/
theorem exec_dcblk (s : State) :
    exec .dcblk s = .next { s with res0 := w32 (dcBlock (s32 s.opa) s.dcs), dcs := toFloat (s32 s.opa) } := rfl

/-- A pattern from infinity on, without the sign bit, is an infinity or a NaN (R10). -/
theorem unpack32_of_not_finite {w : Word} (h : 0x7F800000 ≤ w.toNat % 2 ^ 31) :
    unpack32 w = .nan ∨ ∃ neg, unpack32 w = .inf neg := by
  obtain ⟨neg, e, frac, he, hf, hw⟩ := exists_fields w
  have hmax : e = 255 := by split at hw <;> omega
  rw [unpack32_of_fields he hf hw, if_pos hmax]
  split
  · exact .inr ⟨neg, rfl⟩
  · exact .inl rfl

/-- A sum with a NaN on the right is a NaN. -/
theorem faddV_nan_right (f : FFmt) (v : FVal) : faddV f v .nan = .nan := by
  cases v <;> rfl

/-- K999 is a positive number (R11). -/
theorem unpack32_k999 : unpack32 k999 = .fin false (magOfBits k999.toNat) := unpack32_of_lt_inf (by decide)

/-- K999 times an infinity is that infinity. -/
theorem fmulV_k999_inf (neg : Bool) : fmulV binary32 (unpack32 k999) (.inf neg) = .inf neg := by
  have hpos : magOfBits k999.toNat ≠ 0 := by decide
  rw [unpack32_k999, fmulV, if_neg hpos]; cases neg <;> rfl

/-- K999 times +0.0 is +0.0. -/
theorem fmulV_k999_zero : fmulV binary32 (unpack32 k999) (.fin false 0) = .fin false 0 := by
  rw [unpack32_k999, fmulV, Nat.mul_zero, froundMag, roundMag_zero]
  exact if_neg (Nat.not_le.2 (Nat.two_pow_pos _))

/-- A NaN as the state makes the DC block's output a NaN. -/
theorem dcBlockV_nan (x : Int) : dcBlockV x .nan = .nan := by
  have hprod : fmulV binary32 (unpack32 k999) .nan = .nan := by rw [unpack32_k999]; rfl
  rw [dcBlockV, hprod, faddV_nan_right]

/-- An infinite state makes the DC block's output a NaN: the difference and the product are infinities of unlike signs. -/
theorem dcBlockV_inf {x : Int} (h : x.natAbs ≤ 2 ^ 31) (neg : Bool) : dcBlockV x (.inf neg) = .nan := by
  have hdiff : fsubV binary32 (toFloatV x) (.inf neg) = .inf (!neg) := by rw [toFloatV_eq_fin h]; rfl
  rw [dcBlockV, hdiff, fmulV_k999_inf]; cases neg <;> rfl

/-- Adding a zero gives the value back, unless the value is the zero of the other sign. -/
theorem faddV_zero_right {s t : Bool} {m : Nat} (hm : IsMag binary32 m) (htop : m < 2 ^ binary32.topExp)
    (hzero : m = 0 → (s && t) = s) : faddV binary32 (.fin s m) (.fin t 0) = .fin s m := by
  have hz : signed s m + signed t 0 = signed s m := by cases t <;> simp [signed]
  have habs : (signed s m).natAbs = m := by cases s <;> simp [signed]
  have hsign : (if signed s m = 0 then s && t else decide (signed s m < 0)) = s := by
    split
    · exact hzero (by omega)
    · next hne =>
      cases s
      · exact decide_eq_false (by simp [signed])
      · exact decide_eq_true (by simp only [signed, if_true] at hne ⊢; omega)
  rw [faddV_fin]
  simp only [hz, hsign, habs, roundMag_of_isMag (show 0 < binary32.prec by decide) hm]
  exact if_neg (by omega)

/-- With the state +0.0 the DC block gives a sample's float back (R75): both sums add a zero. -/
theorem dcBlockV_zero {x : Int} (h : x.natAbs < 2 ^ 24) : dcBlockV x (.fin false 0) = toFloatV x := by
  have hm := isMag_steps h
  have htop : x.natAbs * 2 ^ 137 < 2 ^ binary32.topExp := lt_overflow_of_le (by omega)
  have hzero : x.natAbs * 2 ^ 137 = 0 → decide (x < 0) = false := fun h0 => decide_eq_false (by omega)
  rw [dcBlockV, fmulV_k999_zero, fsubV, fneg, toFloatV_of_lt h, Bool.not_false,
    faddV_zero_right hm htop fun _ => Bool.and_true _,
    faddV_zero_right hm htop fun h0 => by rw [hzero h0, Bool.and_false]]

/-- Settles O29: the formula on patterns, and its value for each kind of state. -/
theorem dcblkFollowsFormula : Obligations.DcblkFollowsFormula := by
  refine ⟨rfl, fun s => ?_, fun s hdcs => ?_, fun s hdcs hopa => ?_⟩
  · rw [exec_dcblk, dcBlock_eq_formula]
  · have hnan : dcBlockV (s32 s.opa) (unpack32 s.dcs) = .nan := by
      rcases unpack32_of_not_finite hdcs with h | ⟨neg, h⟩
      · rw [h, dcBlockV_nan]
      · rw [h, dcBlockV_inf (natAbs_s32_le _)]
    rw [exec_dcblk, dcBlock, hnan]; rfl
  · obtain ⟨hlo, hhi⟩ := hopa
    have hsame : dcBlock (s32 s.opa) s.dcs = s32 s.opa := by
      have hstate : unpack32 s.dcs = .fin false 0 := by rw [hdcs]; decide
      rw [dcBlock, hstate, dcBlockV_zero (by omega), ← unpack32_toFloat]
      exact toFixedF_toFloat ⟨hlo, hhi⟩
    rw [exec_dcblk, hsame, w32, s32, BitVec.ofInt_toInt]

end Sys2Proof.Machine
end

section
/-! The delay pool (41_delay_pool.md R77 to R82): its length and the index of a read are each the only number with one
property, and the pool's commands are its write port, its read port and its reset. -/

namespace Sys2Proof.Machine

/-- POOL_LEN is a power of two (R77). -/
theorem exists_poolLen_eq_two_pow (b : Build) : ∃ k, poolLen b = 2 ^ k := by
  unfold poolLen
  split
  · exact ⟨0, rfl⟩
  · exact ⟨_, rfl⟩

/-- POOL_LEN is the least power of two that reaches POOL_REQ (R77). -/
theorem poolLen_le_two_pow_iff (b : Build) (k : Nat) : poolLen b ≤ 2 ^ k ↔ b.poolReq ≤ 2 ^ k := by
  have hpos : 0 < 2 ^ k := Nat.two_pow_pos k
  unfold poolLen
  split
  · next hsmall => exact iff_of_true hpos (hsmall.trans hpos)
  · next hlarge =>
    have hlog : Nat.log2 (b.poolReq - 1) < k ↔ b.poolReq - 1 < 2 ^ k := Nat.log2_lt (by omega)
    rw [Nat.pow_le_pow_iff_right (by decide), Nat.succ_le_iff, hlog]
    omega

/-- Settles O31: the powers of two that reach POOL_LEN are those that reach POOL_REQ, and POOL_LEN is one itself. -/
theorem poolLengthIsSmallestPowerOfTwo : Obligations.PoolLengthIsSmallestPowerOfTwo := by
  intro b
  obtain ⟨n, hn⟩ := exists_poolLen_eq_two_pow b
  have hreq : b.poolReq ≤ poolLen b := hn ▸ (poolLen_le_two_pow_iff b n).1 hn.le
  exact ⟨⟨n, hn⟩, max_le (poolLen_pos b) hreq,
    fun k hk => (poolLen_le_two_pow_iff b k).2 ((le_max_right _ _).trans hk)⟩

/-- A 16-bit identifier in the ID field adds to the word (R55). -/
theorem append_id_eq_add (op : BitVec 8) {id : Nat} (h : id < 2 ^ 16) :
    op ++ (0#8 ++ BitVec.ofNat 16 id : BitVec 24) = op ++ 0#24 + BitVec.ofNat 32 id := by
  have hop := op.isLt
  refine BitVec.eq_of_toNat_eq ?_
  simp only [BitVec.toNat_add, toNat_append_eq_add, BitVec.toNat_ofNat]
  omega

/-- `0x10000000 | id` is PWRITE (R58). -/
theorem decode_pwrite {id : Nat} (h : id < 2 ^ 16) :
    decode (0x10000000#32 + BitVec.ofNat 32 id) = .command (.pwrite id) := by
  rw [show 0x10000000#32 = 0x10#8 ++ 0#24 by decide, ← append_id_eq_add _ h]
  exact decode_encode (i := .pwrite id) h

/-- `0x11000000 | id` is PREADC (R58). -/
theorem decode_preadc {id : Nat} (h : id < 2 ^ 16) :
    decode (0x11000000#32 + BitVec.ofNat 32 id) = .command (.preadc id) := by
  rw [show 0x11000000#32 = 0x11#8 ++ 0#24 by decide, ← append_id_eq_add _ h]
  exact decode_encode (i := .preadc id) h

/-- PWRITE is the pool's write port (R79). -/
theorem exec_pwrite (id : Nat) (s : State) :
    exec (.pwrite id) s = .next { s with pool := poolWrite s.build s.port.inj s.opa s.pool } := rfl

/-- PREADC is the pool's read port (R81). -/
theorem exec_preadc (id : Nat) (s : State) :
    exec (.preadc id) s = .next (setRead (poolRead s.build id (u32 s.opa) s.pool) s) := rfl

/-- PRESET is the pool's reset (R82). -/
theorem exec_preset (s : State) : exec .preset s = .next { s with pool := poolReset } := rfl

/-- Settles O32: the write port, read word by word. -/
theorem pwriteStoresThenMayFlip : Obligations.PwriteStoresThenMayFlip := by
  refine ⟨fun _ => decode_pwrite, fun s id hwf => ?_⟩
  extract_lets cur' stored
  refine ⟨⟨(poolWrite s.build s.port.inj s.opa s.pool).mem, exec_pwrite id s, fun i => ?_⟩, fun _ => rfl⟩
  calc readWord (poolWrite s.build s.port.inj s.opa s.pool).mem i
      = stored i ^^^ (if s.port.inj = true ∧ i = cur' then 1#32 else 0#32) := readWord_poolWrite _ _ _ hwf i
    _ = if s.port.inj = true ∧ i = cur' then stored i ^^^ 1#32 else stored i := by
      rw [apply_ite (stored i ^^^ ·), BitVec.xor_zero]

/-- The effective offset as a natural number: a contended read is one sample nearer, but no nearer than 1 (R81). -/
theorem effectiveOffset_eq (c : Bool) (off : Nat) :
    effectiveOffset c off = (if c then (if off ≤ 2 then 1 else off - 1) else off : Nat) := by
  unfold effectiveOffset
  split
  · split <;> omega
  · rfl

/-- The offset forward from the index of a read is the cursor, around the pool (R81). -/
theorem poolIndex_add_mod (b : Build) (p : Pool) (n : Nat) :
    (poolIndex b p n + n) % poolLen b = p.cur % poolLen b := by
  have hpos : (poolLen b : Int) ≠ 0 := by have := poolLen_pos b; omega
  zify
  rw [poolIndex, Int.toNat_of_nonneg (Int.emod_nonneg _ hpos), Int.emod_add_emod, Int.sub_add_cancel]

/-- Settles O33: the read port at the effective offset. -/
theorem preadcReadsBehindCursor : Obligations.PreadcReadsBehindCursor := by
  refine ⟨fun _ => decode_preadc, fun s id => ?_⟩
  extract_lets c off eff
  refine ⟨poolIndex s.build s.pool eff, poolIndex_lt .., poolIndex_add_mod .., ?_⟩
  rw [exec_preadc, poolRead_eq, effectiveOffset_eq]
  rfl

/-- One behind the next cursor is the cursor (R79, R81). -/
theorem poolIndex_one_of_cur {b : Build} {p q : Pool} (hp : p.cur < poolLen b) (hq : q.cur = nextCursor b p) :
    poolIndex b q 1 = p.cur := by
  have hnext : poolIndex b q 1 + 1 ≡ p.cur + 1 [MOD poolLen b] := by
    rw [Nat.ModEq, ← Nat.mod_mod (p.cur + 1), ← nextCursor, ← hq]
    exact poolIndex_add_mod b q 1
  exact (Nat.ModEq.add_right_cancel' 1 hnext).eq_of_lt_of_lt (poolIndex_lt b q 1) hp

/-- Contention leaves offset 1 alone (R81). -/
theorem effectiveOffset_one (c : Bool) : effectiveOffset c 1 = 1 := by cases c <;> rfl

/-- In a pool of more than one word the cursor moves on, so a flip misses the word just written (R79). -/
theorem cur_ne_nextCursor {b : Build} {p : Pool} (hp : p.cur < poolLen b) (hlen : 1 < poolLen b) :
    p.cur ≠ nextCursor b p := by
  intro h
  have hstep : p.cur + 0 ≡ p.cur + 1 [MOD poolLen b] := by
    rw [Nat.ModEq, ← nextCursor, ← h, Nat.add_zero, Nat.mod_eq_of_lt hp]
  exact absurd ((Nat.ModEq.add_left_cancel' _ hstep).eq_of_lt_of_lt (poolLen_pos b) hlen) (by decide)

/-- The word at the cursor of a pool of more than one word is the one written, whatever the draw (R79). -/
theorem readWord_poolWrite_cur {b : Build} {p : Pool} (h : PoolOk b p) (hlen : 1 < poolLen b) (inj : Bool) (v : Word) :
    readWord (poolWrite b inj v p).mem p.cur = v := by
  rw [readWord_poolWrite b inj v h.canonical, if_pos rfl,
    if_neg fun hflip => cur_ne_nextCursor h.cursor hlen hflip.2, BitVec.xor_zero]

/-- A read at offset 1 after a write gives the word written, to any consumer (R79, R81). -/
theorem poolRead_one_poolWrite {b : Build} {p : Pool} (h : PoolOk b p) (hlen : 1 < poolLen b) (inj : Bool) (v : Word)
    (id : Nat) : (poolRead b id 1 (poolWrite b inj v p)).1 = v := by
  rw [poolRead_eq, effectiveOffset_one, poolIndex_one_of_cur h.cursor (poolWrite_cur ..)]
  exact readWord_poolWrite_cur h hlen inj v

/-- Settles O34: the read port at offset 1 sees the write port's word. -/
theorem offsetOneReadsLastWrite : Obligations.OffsetOneReadsLastWrite := by
  intro s p c hs hlen
  obtain ⟨hpool, -, -, -⟩ := (inv_iff s).1 hs
  exact ⟨_, _, exec_pwrite p s, exec_preadc c _, poolRead_one_poolWrite hpool hlen _ _ c⟩

/-- Settles O35: the pool's reset lists no word. -/
theorem presetZeroesPool : Obligations.PresetZeroesPool :=
  ⟨decode_encode (i := .preset) trivial, fun s => ⟨_, exec_preset s, readWord_nil⟩⟩

end Sys2Proof.Machine
end

section
/-! The control commands of the ReverbEngine (42_reverb_control.md R86 to R89, R92): what a clear and a latch leave of a bank
of lines, and so what PREPARE and RRESET leave of the pipeline. -/

namespace Sys2Proof.Machine

/-- NOP has no effect (R87). -/
theorem exec_nop (s : State) : exec .nop s = .next s := rfl

/-- A PREPARE whose staged buffers fit latches, clears and sets STATE to 1 (R88). -/
theorem exec_prepare_of_fits {s : State} (h : lengthsFit s.build s.staged = true) :
    exec .prepare s =
      .next { clearPipeline { s with pipe := latchLengths s.staged s.pipe } with life := .prepared } := if_pos h

/-- A PREPARE with a staged buffer that does not fit raises AllocFail alone (R88). -/
theorem exec_prepare_of_not_fits {s : State} (h : ¬ lengthsFit s.build s.staged = true) :
    exec .prepare s = .next (raise .allocFail s) := if_neg h

/-- RRESET clears the pipeline and turns STATE 2 into 1 (R89). -/
theorem exec_rreset (s : State) :
    exec .rreset s = .next { clearPipeline s with life := lifeAfterRreset s.life } := rfl

/-- The only STATE that RRESET changes is 2 (R89). -/
theorem lifeAfterRreset_eq (l : Lifecycle) : lifeAfterRreset l = if l = .processing then .prepared else l := by
  cases l <;> rfl

/-- The buffer of a line fits when it is not needed or its L + 1 words fit (R29, R88). -/
theorem lineWords_le_iff (len : Word) (cap : Nat) : lineWords len ≤ cap ↔ (u32 len ≠ 0 → u32 len + 1 ≤ cap) := by
  unfold lineWords
  split
  · next hzero => simp [hzero]
  · next hne => simp [hne]

/-- A cleared bank keeps the active lengths of its lines and nothing else (R86). -/
theorem vecMap_clearLine {n : Nat} (lines : Vector Line n) :
    vecMap clearLine lines = Vector.ofFn fun k => ⟨lines[k].active, 0#32, []⟩ := by
  ext1 k hk
  rw [vecMap_get, Vector.getElem_ofFn]; rfl

/-- A bank that has latched its lengths and is then cleared holds those lengths and nothing else (R88). -/
theorem vecMap_clearLine_latch {n : Nat} (lens : Vector Word n) (lines : Vector Line n) :
    vecMap clearLine (vecZip latchLine lens lines) = Vector.ofFn fun k => ⟨lens[k], 0#32, []⟩ := by
  ext1 k hk
  rw [vecMap_get, vecZip_get, Vector.getElem_ofFn]; rfl

/-- A cleared pipeline keeps its active lengths and nothing else (R86). -/
theorem clearPipe_eq (p : Pipe) : clearPipe p =
    { pd := ⟨p.pd.active, 0#32, []⟩, er := Vector.ofFn fun k => ⟨p.er[k].active, 0#32, []⟩,
      comb := Vector.ofFn fun k => ⟨p.comb[k].active, 0#32, []⟩,
      ap := Vector.ofFn fun k => ⟨p.ap[k].active, 0#32, []⟩, rvDcs := 0#32, dmpL := 0#32, dmpR := 0#32 } := by
  simp only [clearPipe, vecMap_clearLine]; rfl

/-- A pipeline that has latched the lengths `n` and is then cleared holds those lengths and nothing else (R88). -/
theorem clearPipe_latchLengths (n : Lengths) (p : Pipe) : clearPipe (latchLengths n p) =
    { pd := ⟨n.pd, 0#32, []⟩, er := Vector.ofFn fun k => ⟨n.er[k], 0#32, []⟩,
      comb := Vector.ofFn fun k => ⟨n.comb[k], 0#32, []⟩, ap := Vector.ofFn fun k => ⟨n.ap[k], 0#32, []⟩,
      rvDcs := 0#32, dmpL := 0#32, dmpR := 0#32 } := by
  simp only [clearPipe, latchLengths, vecMap_clearLine_latch]; rfl

/-- Settles O36. -/
theorem nopChangesNothing : Obligations.NopChangesNothing :=
  ⟨decode_encode (i := .nop) trivial, exec_nop⟩

/-- Settles O37: the rule's `fits` is `lengthsFit`, which chooses between the two outcomes. -/
theorem prepareLatchesOrFails : Obligations.PrepareLatchesOrFails := by
  refine ⟨decode_encode (i := .prepare) trivial, fun s => ?_⟩
  extract_lets fits
  have hfits : fits ↔ lengthsFit s.build s.staged = true := by
    simp only [fits, lengthsFit_iff, lineWords_le_iff, Fin.forall_iff, Fin.getElem_fin]
  refine ⟨fun h => ?_, fun h => exec_prepare_of_not_fits (mt hfits.2 h)⟩
  rw [exec_prepare_of_fits (hfits.1 h), ← clearPipe_latchLengths s.staged s.pipe]; rfl

/-- Settles O38. -/
theorem rresetClearsPipeline : Obligations.RresetClearsPipeline := by
  refine ⟨decode_encode (i := .rreset) trivial, fun s => ?_⟩
  rw [exec_rreset, lifeAfterRreset_eq, ← clearPipe_eq s.pipe]; rfl

/-- Settles O40: the two cleared pipelines have equal active lengths, so they are equal, and PROC's outputs depend on the
pipeline and the coefficients alone. -/
theorem resetIsIdempotentWithPrepare : Obligations.ResetIsIdempotentWithPrepare := by
  intro s u hfits hcoef hpd her hcomb hap
  have hpipe : clearPipe s.pipe = clearPipe (latchLengths u.staged u.pipe) := by
    refine clearPipe_congr hpd (fun k hk => ?_) (fun k hk => ?_) fun k hk => ?_
    · rw [latchLengths_er]; exact her ⟨k, hk⟩
    · rw [latchLengths_comb]; exact hcomb ⟨k, hk⟩
    · rw [latchLengths_ap]; exact hap ⟨k, hk⟩
  exact ⟨_, _, exec_rreset s, exec_prepare_of_fits hfits, hpipe, rfl, rfl,
    outputsDependOnPipelineAlone _ _ hcoef hpipe⟩

end Sys2Proof.Machine
end

section
/-! UPDMOD on patterns (42_reverb_control.md R90): from a phase below KTWOPI the sum is finite and not negative, so comparing
its pattern with KTWOPI is comparing its value. -/

namespace Sys2Proof.Machine

/-- UPDMOD advances LFO_PHASE and changes nothing else (R90). -/
theorem exec_updmod (s : State) : exec .updmod s = .next { s with lfoPhase := lfoStep s.lfoPhase } := rfl

/-- On finite values that are not negative, the order of the values is the order of the patterns (R10). -/
theorem fgeV_unpack32_iff {a b : Word} {m n : Nat} (ha : unpack32 a = .fin false m) (hb : unpack32 b = .fin false n) :
    fgeV (unpack32 a) (unpack32 b) = true ↔ b.toNat ≤ a.toNat := by
  rw [ha, hb, fgeV_nonneg, eq_magOfBits_of_unpack32 ha, eq_magOfBits_of_unpack32 hb]
  exact magOfBits_strictMono.le_iff_le

/-- The sum of a phase below KTWOPI and K005 is finite and not negative: it is below 8 (R90). -/
theorem unpack32_fadd_k005 {w : Word} (h : w.toNat < kTwoPi.toNat) :
    ∃ q, unpack32 (fadd w k005) = .fin false q := by
  obtain ⟨m, hm, hw⟩ := (toNat_lt_kTwoPi_iff w).1 h
  have hsum : twoPiMag + magOfBits k005.toNat ≤ 2 ^ 152 := by decide
  have hmag : IsMag binary32 (2 ^ 152) := ⟨1, 152, (Nat.one_mul _).symm, by decide⟩
  have htop : 2 ^ 152 < 2 ^ binary32.topExp := Nat.pow_lt_pow_right (by decide) (by decide)
  obtain ⟨q, -, hadd⟩ := faddV_nonneg_le hmag htop (show m + magOfBits k005.toNat ≤ 2 ^ 152 by omega)
  exact ⟨q, by rw [unpack32_fadd, hw, unpack32_k005, hadd]⟩

/-- From a phase below KTWOPI an update is the rule on patterns (R90): add K005, then subtract KTWOPI once if the sum reaches
it. -/
theorem lfoStep_eq_patterns {w : Word} (h : w.toNat < kTwoPi.toNat) :
    lfoStep w =
      if kTwoPi.toNat ≤ (fadd w k005).toNat then fsub (fadd w k005) kTwoPi else fadd w k005 := by
  obtain ⟨q, hq⟩ := unpack32_fadd_k005 h
  have hstep : lfoStepV (unpack32 w) = if kTwoPi.toNat ≤ (fadd w k005).toNat
      then fsubV binary32 (unpack32 (fadd w k005)) (unpack32 kTwoPi) else unpack32 (fadd w k005) := by
    simp only [lfoStepV, ← unpack32_fadd, fgeV_unpack32_iff hq unpack32_kTwoPi]
  rw [lfoStep, hstep]
  split
  · refine pack32_nanWord_irrelevant ?_ _ _
    rw [hq, unpack32_kTwoPi]; exact faddV_fin_ne_nan binary32 false true q twoPiMag
  · exact pack32_unpack32 _ (by rw [hq]; exact nofun)

/-- Settles O39: the update on patterns, which stays below KTWOPI. -/
theorem updmodAdvancesPhaseAndWraps : Obligations.UpdmodAdvancesPhaseAndWraps := by
  refine ⟨decode_encode (i := .updmod) trivial, fun s => ⟨_, exec_updmod s⟩, fun s hphase => ?_⟩
  extract_lets p w
  have hw : lfoStep s.lfoPhase = w := lfoStep_eq_patterns hphase
  exact ⟨hw ▸ exec_updmod s, hw ▸ lfoStep_toNat_lt hphase⟩

end Sys2Proof.Machine
end

section
/-! Circular buffers (43_reverb_process.md R95, R99): a line and the pre-delay store a word at the write index and
advance the index modulo the buffer's length, so a word stays until the index has come around. -/

namespace Sys2Proof.Machine

/-- Store a sample at the write index of a buffer of `n` words and advance the index: the write that a line and the
pre-delay have in common. -/
def ringPut (n : Nat) (l : Line) (v : Int) : Line :=
  { l with buf := writeWord l.buf (u32 l.widx) (w32 v), widx := BitVec.ofNat 32 ((u32 l.widx + 1) % n) }

/-- Several samples stored one after the other. -/
def ringPutAll (n : Nat) : Line → List Int → Line := List.foldl (ringPut n)

/-- Stores keep the active length. -/
theorem ringPutAll_active (n : Nat) (l : Line) (vs : List Int) : (ringPutAll n l vs).active = l.active := by
  induction vs generalizing l with
  | nil => rfl
  | cons v vs ih => exact ih (ringPut n l v)

/-- One more sample is stored after the others. -/
theorem ringPutAll_concat (n : Nat) (l : Line) (vs : List Int) (x : Int) :
    ringPutAll n l (vs ++ [x]) = ringPut n (ringPutAll n l vs) x := List.foldl_concat ..

/-- Writing to a line stores in a buffer of L + 1 words (R95). -/
theorem writeAll_eq_ringPutAll (l : Line) (vs : List Int) : writeAll l vs = ringPutAll (u32 l.active + 1) l vs := by
  induction vs generalizing l with
  | nil => rfl
  | cons v vs ih => exact ih (lineWrite l v)

/-- An inactive pre-delay passes its input through (R99). -/
theorem preDelay_inactive {l : Line} (h : u32 l.active = 0) (offset : Word) (x : Int) : preDelay offset l x = (l, x) :=
  if_pos h

/-- An active pre-delay stores in a buffer of A_PD words and reads `off mod A_PD` words behind the index (R99). -/
theorem preDelay_active {l : Line} (h : u32 l.active ≠ 0) (offset : Word) (x : Int) :
    preDelay offset l x = (ringPut (u32 l.active) l x, s32 (readWord (ringPut (u32 l.active) l x).buf
      ((u32 l.widx + u32 l.active - u32 offset % u32 l.active) % u32 l.active))) :=
  if_neg h

/-- Pushing to an active pre-delay stores in a buffer of A_PD words (R99). -/
theorem pushAll_eq_ringPutAll {l : Line} (h : u32 l.active ≠ 0) (offset : Word) (vs : List Int) :
    pushAll offset l vs = ringPutAll (u32 l.active) l vs := by
  induction vs generalizing l with
  | nil => rfl
  | cons v vs ih =>
    calc pushAll offset l (v :: vs)
        = pushAll offset (ringPut (u32 l.active) l v) vs := by
          simp only [pushAll, List.foldl_cons, preDelay_active h]
      _ = ringPutAll (u32 l.active) l (v :: vs) := ih h

section
variable {n : Nat} {l : Line}

/-- The index after a store is the next one around the buffer. -/
theorem ringPut_widx (hn : u32 l.widx < n) (hmax : n ≤ 2 ^ 32) (v : Int) :
    u32 (ringPut n l v).widx = (u32 l.widx + 1) % n := by
  have hlt : (u32 l.widx + 1) % n < n := Nat.mod_lt _ (by omega)
  exact (BitVec.toNat_ofNat _ _).trans (Nat.mod_eq_of_lt (by omega))

/-- A store keeps the index in the buffer. -/
theorem ringPut_widx_lt (hn : u32 l.widx < n) (hmax : n ≤ 2 ^ 32) (v : Int) : u32 (ringPut n l v).widx < n := by
  rw [ringPut_widx hn hmax]; exact Nat.mod_lt _ (by omega)

/-- The index after several stores. -/
theorem ringPutAll_widx (hn : u32 l.widx < n) (hmax : n ≤ 2 ^ 32) (vs : List Int) :
    u32 (ringPutAll n l vs).widx = (u32 l.widx + vs.length) % n := by
  induction vs generalizing l with
  | nil => exact (Nat.mod_eq_of_lt hn).symm
  | cons v vs ih =>
    calc u32 (ringPutAll n (ringPut n l v) vs).widx
        = (u32 (ringPut n l v).widx + vs.length) % n := ih (ringPut_widx_lt hn hmax v)
      _ = (u32 l.widx + (v :: vs).length) % n := by
        rw [ringPut_widx hn hmax, Nat.mod_add_mod, List.length_cons, Nat.add_assoc, Nat.add_comm 1]

/-- A place `d` words ahead of the index is another place, when `d` is less than the buffer. -/
theorem ahead_ne_self {i d : Nat} (hi : i < n) (hd : d ≠ 0) (hdn : d < n) : (i + d) % n ≠ i := by
  rcases Nat.lt_or_ge (i + d) n with h | h
  · rw [Nat.mod_eq_of_lt h]; omega
  · rw [Nat.mod_eq_sub_mod h, Nat.mod_eq_of_lt (by omega)]; omega

/-- The word `d` places ahead of the index stays while at most `d` samples are stored. -/
theorem readWord_ringPutAll_ahead (hwf : Memory.wf l.buf) (hn : u32 l.widx < n) (hmax : n ≤ 2 ^ 32) {d : Nat}
    (hdn : d < n) {vs : List Int} (hvs : vs.length ≤ d) :
    readWord (ringPutAll n l vs).buf ((u32 l.widx + d) % n) = readWord l.buf ((u32 l.widx + d) % n) := by
  induction vs generalizing l d with
  | nil => rfl
  | cons v vs ih =>
    obtain ⟨k, rfl⟩ : ∃ k, d = k + 1 := Nat.exists_eq_succ_of_ne_zero (by simp at hvs; omega)
    have hplace : (u32 l.widx + (k + 1)) % n = (u32 (ringPut n l v).widx + k) % n := by
      rw [ringPut_widx hn hmax, Nat.mod_add_mod, Nat.add_assoc, Nat.add_comm 1]
    have hkept := ih (wf_writeWord hwf _ _) (ringPut_widx_lt hn hmax v) (Nat.lt_of_succ_lt hdn)
      (Nat.le_of_succ_le_succ hvs)
    rw [← hplace] at hkept
    exact hkept.trans (readWord_writeWord_other hwf _ (ahead_ne_self hn (Nat.succ_ne_zero k) hdn))

/-- A sample stored is still there when fewer samples than the buffer has words have followed it. -/
theorem readWord_ringPutAll_stored (hwf : Memory.wf l.buf) (hn : u32 l.widx < n) (hmax : n ≤ 2 ^ 32) {v : Int}
    (hv : -2 ^ 31 ≤ v ∧ v < 2 ^ 31) {vs : List Int} (hvs : vs.length < n) :
    s32 (readWord (ringPutAll n (ringPut n l v) vs).buf (u32 l.widx)) = v := by
  have hplace : (u32 (ringPut n l v).widx + (n - 1)) % n = u32 l.widx := by
    rw [ringPut_widx hn hmax, Nat.mod_add_mod, show u32 l.widx + 1 + (n - 1) = u32 l.widx + n by omega,
      Nat.add_mod_right, Nat.mod_eq_of_lt hn]
  have hkept := readWord_ringPutAll_ahead (wf_writeWord hwf (u32 l.widx) (w32 v)) (ringPut_widx_lt hn hmax v) hmax
    (d := n - 1) (by omega) (Nat.le_sub_one_of_lt hvs)
  rw [hplace] at hkept
  have hread : readWord (ringPut n l v).buf (u32 l.widx) = w32 v := readWord_writeWord_self hwf _ _
  rw [hkept, hread, s32_w32_of_lt hv]

end

/-- Settles O45: after L stores the index stands one word before the first sample's place. -/
theorem lineDelaysByItsLength : Obligations.LineDelaysByItsLength := by
  intro l v vs hwf hidx hlo hhi hlen
  have hn : u32 l.widx < u32 l.active + 1 := Nat.lt_succ_of_le hidx
  have hmax : u32 l.active + 1 ≤ 2 ^ 32 := l.active.isLt
  have hall : writeAll (lineWrite l v) vs = ringPutAll (u32 l.active + 1) l (v :: vs) := writeAll_eq_ringPutAll _ _
  have hplace : (u32 (ringPutAll (u32 l.active + 1) l (v :: vs)).widx + 1) % (u32 l.active + 1) = u32 l.widx := by
    rw [ringPutAll_widx hn hmax, Nat.mod_add_mod, List.length_cons, hlen, Nat.add_assoc, Nat.add_mod_right,
      Nat.mod_eq_of_lt hn]
  rw [lineRead, hall, ringPutAll_active, hplace]
  exact readWord_ringPutAll_stored hwf hn hmax ⟨hlo, hhi⟩ (by omega)

/-- `d` steps back from `d` steps ahead, around the buffer, is the place itself. -/
theorem back_of_ahead {n i d : Nat} (hi : i < n) (hd : d ≤ n) : ((i + d) % n + n - d) % n = i := by
  rw [Nat.add_sub_assoc hd, Nat.mod_add_mod, show i + d + (n - d) = i + n by omega, Nat.add_mod_right,
    Nat.mod_eq_of_lt hi]

/-- Settles O46: the sample pushed `off` ticks before lies `off` words behind the index. -/
theorem preDelayDelaysByOffset : Obligations.PreDelayDelaysByOffset := by
  intro l offset v vs x hwf hvlo hvhi hxlo hxhi
  have hmax : u32 l.active ≤ 2 ^ 32 := l.active.isLt.le
  refine ⟨fun h => preDelay_inactive h offset x, fun hn hoff => ?_, fun hn hoff => ?_⟩
  · rw [preDelay_active (Nat.ne_zero_of_lt hn), hoff, Nat.sub_zero, Nat.add_mod_right, Nat.mod_eq_of_lt hn]
    exact readWord_ringPutAll_stored (vs := []) hwf hn hmax ⟨hxlo, hxhi⟩ (Nat.zero_lt_of_lt hn)
  · have hactive : u32 l.active ≠ 0 := Nat.ne_zero_of_lt hn
    have hlt : vs.length + 1 < u32 l.active := hoff ▸ Nat.mod_lt _ (Nat.zero_lt_of_lt hn)
    have hpush : pushAll offset l (v :: vs) = ringPutAll (u32 l.active) l (v :: vs) := pushAll_eq_ringPutAll hactive ..
    have hkeep : (pushAll offset l (v :: vs)).active = l.active := by rw [hpush, ringPutAll_active]
    have hplace : (u32 (pushAll offset l (v :: vs)).widx + u32 l.active - (vs.length + 1)) % u32 l.active =
        u32 l.widx := by
      rw [hpush, ringPutAll_widx hn hmax, List.length_cons]
      exact back_of_ahead hn hlt.le
    rw [preDelay_active (by rwa [hkeep]), hkeep, ← hoff, hplace, hpush, ← ringPutAll_concat]
    exact readWord_ringPutAll_stored hwf hn hmax ⟨hvlo, hvhi⟩ (by simpa using hlt)

end Sys2Proof.Machine
end

section
/-! A bank of lines and one allpass stage (43_reverb_process.md R94 to R96, R102): an active line saturates one MAC, and
the average is over the outputs of the active lines. -/

namespace Sys2Proof.Machine

/-- The multiply-accumulate brings the floored product plus the addend into the domain (R73). -/
theorem macq_value_eq (a b c : Int) : (macq a b c).value = toDomain ((a * b).fdiv 4096 + c) := by
  rw [macq, sat_value, clamp20_eq_toDomain, sra12_eq_fdiv]

/-- The multiply-accumulate overflows when the floored product plus the addend lies outside the domain (R67, R73). -/
theorem macq_ov_eq (a b c : Int) : (macq a b c).ov = outsideDomain ((a * b).fdiv 4096 + c) := by
  rw [macq, sat_ov, out20_eq_outsideDomain, sra12_eq_fdiv]

/-- What the lines of a bank do, line by line. -/
theorem vecZip_toList {α β γ : Type} {n : Nat} (f : α → β → γ) (v : Vector α n) (w : Vector β n) :
    (vecZip f v w).toList = (List.finRange n).map fun k => f v[k] w[k] := by
  refine List.ext_getElem (by simp) fun i hi _ => ?_
  simp

section
variable {n : Nat} (lines : Vector Line n) (gains : Vector Word n) (x : Int)

/-- The lines of a bank that are active (R94). -/
def activeLines : List (Fin n) := (List.finRange n).filter fun k => decide (u32 lines[k].active ≠ 0)

/-- The MAC of an active line's delayed word, its gain and the bank's input (R96). -/
def lineMac (k : Fin n) : Sat := macq (lineRead lines[k]) (s32 gains[k]) x

/-- A bank's outputs are those of its active lines (R96). -/
theorem bank_value_eq :
    (bank lines gains x).value = average x ((activeLines lines).map fun k => (lineMac lines gains x k).value) := by
  have hout : ∀ k : Fin n, (tapStep x lines[k] (s32 gains[k])).out =
      (Option.guard (fun k : Fin n => decide (u32 lines[k].active ≠ 0)) k).map
        fun k => (lineMac lines gains x k).value := by
    intro k
    by_cases h : u32 lines[k].active = 0
    · rw [tapStep_inactive h, Option.guard, if_neg (by simpa using h)]; rfl
    · rw [tapStep_active h, Option.guard, if_pos (by simpa using h)]; rfl
  rw [bank, vecZip_toList, List.filterMap_map, activeLines, ← List.filterMap_eq_filter, List.map_filterMap]
  exact congrArg (fun f => average x ((List.finRange n).filterMap f)) (funext hout)

/-- A bank overflows exactly when some active line does (R96). -/
theorem bank_ov_iff :
    (bank lines gains x).ov = true ↔ ∃ k : Fin n, u32 lines[k].active ≠ 0 ∧ (lineMac lines gains x k).ov = true := by
  have hov : ∀ k : Fin n, (tapStep x lines[k] (s32 gains[k])).ov = true ↔
      u32 lines[k].active ≠ 0 ∧ (lineMac lines gains x k).ov = true := by
    intro k
    by_cases h : u32 lines[k].active = 0
    · rw [tapStep_inactive h]
      exact iff_of_false Bool.false_ne_true fun hon => hon.1 h
    · rw [tapStep_active h]
      exact (and_iff_right h).symm
  simp only [bank, vecZip_toList, List.any_map, List.any_eq_true, List.mem_finRange, true_and, Function.comp_apply, hov]

end

/-- Settles O43: each line is `tapStep`, and the MAC of an active one saturates the rule's sum. -/
theorem bankStepsEachLineAndAverages : Obligations.BankStepsEachLineAndAverages := by
  intro n lines gains x
  extract_lets on size sum active
  have hvalue : ∀ k, (lineMac lines gains x k).value = toDomain (sum k) := fun k => macq_value_eq ..
  have hov : ∀ k, (lineMac lines gains x k).ov = outsideDomain (sum k) := fun k => macq_ov_eq ..
  have hline : ∀ k : Fin n, (bank lines gains x).lines[k] = (tapStep x lines[k] (s32 gains[k])).line :=
    fun k => bank_lines_get lines gains x k k.isLt
  have hbank : (bank lines gains x).value = average x (active.map fun k => toDomain (sum k)) := by
    rw [bank_value_eq, funext hvalue]; rfl
  refine ⟨fun k hoff => ?_, fun k hon => ?_, fun hnone => ?_, fun hsome => ?_, ?_⟩
  · rw [hline, tapStep_inactive (not_not.1 hoff)]
  · rw [hline, tapStep_active hon, ← hvalue]; rfl
  · rw [hbank, hnone]; rfl
  · rw [hbank, average, if_neg (by simpa using hsome), List.length_map]
  · simp only [bank_ov_iff, hov]; rfl

/-- An inactive stage passes its input through (R102). -/
theorem allpassStage_inactive {l : Line} (h : u32 l.active = 0) (c run : Int) :
    allpassStage c l run = { line := l, run := run, ov := false } := if_pos h

/-- An active stage puts out one MAC of its input and the delayed word, and feeds back another (R102). -/
theorem allpassStage_active {l : Line} (h : u32 l.active ≠ 0) (c run : Int) :
    allpassStage c l run = { line := lineWrite l (macq (lineRead l) c run).value,
                             run := (macq run (-c) (lineRead l)).value,
                             ov := (macq run (-c) (lineRead l)).ov || (macq (lineRead l) c run).ov } := if_neg h

/-- Settles O44: both MACs saturate the rule's sums. -/
theorem allpassStageFeedsForwardAndBack : Obligations.AllpassStageFeedsForwardAndBack := by
  intro l c run
  refine ⟨fun h => allpassStage_inactive h .., fun h => ?_⟩
  rw [allpassStage_active h]
  simp only [macq_value_eq, macq_ov_eq]
  rfl

end Sys2Proof.Machine
end

section
/-! PROC (43_reverb_process.md R97 to R110): the steps on patterns, the range and the dry mix of its outputs, and the
tick whose lines are all inactive. -/

namespace Sys2Proof.Machine

/-- The tick that a PROC runs: on the core's own coefficients and pipeline, with OPA and OPB as the inputs (R57). -/
def procTick (s : State) : TickOut := tick s.coef s.pipe (opaFloat s) (opbFloat s)

/-- A tick is made up of its five items. -/
theorem procTick_eta (s : State) : procTick s =
    ⟨(procTick s).pipe, (procTick s).outL, (procTick s).outR, (procTick s).ap, (procTick s).ov⟩ := rfl

/-- PROC keeps STATE 0 and turns 1 and 2 into 2 (R20, R108). -/
theorem lifeAfterProc_eq (l : Lifecycle) :
    lifeAfterProc l = if l = .uninitialized then .uninitialized else .processing := by
  cases l <;> rfl

section
variable {s : State} {pipe : Pipe} {outL outR ap : Int} {ov : Bool}

/-- PROC writes what its tick computes and the tail level's next value, and nothing else (R108). -/
theorem exec_proc (h : procTick s = ⟨pipe, outL, outR, ap, ov⟩) :
    exec .proc s = .next { s with
      pipe, res0 := toFloat outL, res1 := toFloat outR, tailLevel := tailStep s.tailLevel ap, povf := ov,
      life := if s.life = .uninitialized then .uninitialized else .processing } := by
  rw [← lifeAfterProc_eq, exec, execProc, ← procTick, h]

/-- PROC completes, and these are the items it writes from its tick (R108). -/
theorem exists_exec_proc (h : procTick s = ⟨pipe, outL, outR, ap, ov⟩) :
    ∃ t, exec .proc s = .next t ∧ t.pipe = pipe ∧ t.res0 = toFloat outL ∧ t.res1 = toFloat outR ∧
      t.tailLevel = tailStep s.tailLevel ap ∧ t.povf = ov := by
  refine ⟨_, exec_proc h, ?_⟩
  simp only [and_self]

end

/-- A tick is the steps 1 to 9 in order, its overflow output the OR of theirs (R97 to R105, R108). The values of
steps 1 and 2 are named by equations, so that each may be given in another form. -/
theorem tick_eq_steps {c : Coeffs} {p : Pipe} {inL inR : FVal} {lq rq mono dc : Int} (hlq : toFixed inL = lq)
    (hrq : toFixed inR = rq) (hmono : monoMean lq rq = mono) (hdc : dcBlock mono p.rvDcs = dc) :
    let pd := preDelay c.pdOffset p.pd dc
    let er := bank p.er c.erGain pd.2
    let cb := bank p.comb #v[c.combFb, c.combFb, c.combFb, c.combFb] er.value
    let a0 := allpassStage (s32 c.apCoef) p.ap[0] cb.value
    let a1 := allpassStage (s32 c.apCoef) p.ap[1] a0.run
    let dl := macq a1.run (s32 c.dampB) (mulq (s32 p.dmpL) (s32 c.dampA)).value
    let dr := macq a1.run (s32 c.dampB) (mulq (s32 p.dmpR) (s32 c.dampA)).value
    let wr := mulq dr.value 3686
    let ul := mulq dl.value (s32 c.mixWet)
    let ur := mulq wr.value (s32 c.mixWet)
    let outL := macq lq (s32 c.mixDry) ul.value
    let outR := macq rq (s32 c.mixDry) ur.value
    tick c p inL inR =
      { pipe := { pd := pd.1, er := er.lines, comb := cb.lines, ap := #v[a0.line, a1.line], rvDcs := toFloat mono,
                  dmpL := w32 dl.value, dmpR := w32 dr.value },
        outL := outL.value, outR := outR.value, ap := a1.run,
        ov := er.ov || cb.ov || a0.ov || a1.ov || (mulq (s32 p.dmpL) (s32 c.dampA)).ov || dl.ov ||
          (mulq (s32 p.dmpR) (s32 c.dampA)).ov || dr.ov || wr.ov || ul.ov || outL.ov || ur.ov || outR.ov } := by
  subst hlq hrq hmono hdc
  have hgains : Vector.replicate 4 c.combFb = #v[c.combFb, c.combFb, c.combFb, c.combFb] := rfl
  have hatten : s32 rAtten = 3686 := rfl
  simp only [tick, allpass, damp, mix, hgains, hatten, Bool.or_assoc]

/-- Settles O41: the DC block on patterns is the rule's formula. -/
theorem procRunsTheTenSteps : Obligations.ProcRunsTheTenSteps :=
  ⟨decode_encode (i := .proc) trivial, fun _ => exec_proc (tick_eq_steps rfl rfl rfl (dcBlock_eq_formula _ _))⟩

/-- Settles O47: equal accumulators are stepped alike. -/
theorem dampingAccumulatorsStayEqual : Obligations.DampingAccumulatorsStayEqual := by
  intro s heq
  obtain ⟨t, ht, hpipe, -⟩ := exists_exec_proc (procTick_eta s)
  refine ⟨t, ht, ?_⟩
  rw [hpipe]
  simp only [procTick, tick, heq]

/-- The mix is a sample (R64, R105). -/
theorem mix_range (wetGain dryGain dry wet : Int) :
    -524288 ≤ (mix wetGain dryGain dry wet).value ∧ (mix wetGain dryGain dry wet).value ≤ 524287 :=
  macq_range _ _ _

/-- Each output of PROC's tick is the mix of its channel's input and a wet sample (R105). -/
theorem procTick_outputs (s : State) : ∃ wetL wetR,
    (procTick s).outL = (mix (s32 s.coef.mixWet) (s32 s.coef.mixDry) (toFixedF s.opa) wetL).value ∧
    (procTick s).outR = (mix (s32 s.coef.mixWet) (s32 s.coef.mixDry) (toFixedF s.opb) wetR).value :=
  ⟨_, _, rfl, rfl⟩

/-- The float of a sample is finite and in the Q12 range (R76). -/
theorem toFloat_units_range {n : Int} (h : -524288 ≤ n ∧ n ≤ 524287) :
    ∃ z, HasUnits (toFloat n) z ∧ -524288 * 2 ^ 137 ≤ z ∧ z ≤ 524287 * 2 ^ 137 := by
  have hsmall : n.natAbs < 2 ^ 24 := by omega
  exact ⟨_, hasUnits_toFloat hsmall, by omega, by omega⟩

/-- Settles O49: both outputs are floats of samples. -/
theorem procOutputsAreFiniteAndBounded : Obligations.ProcOutputsAreFiniteAndBounded := by
  intro s
  obtain ⟨wetL, wetR, hL, hR⟩ := procTick_outputs s
  obtain ⟨t, ht, -, hres0, hres1, -⟩ := exists_exec_proc (procTick_eta s)
  refine ⟨t, ht, ?_, ?_⟩
  · rw [hres0, hL]; exact toFloat_units_range (mix_range _ _ _ _)
  · rw [hres1, hR]; exact toFloat_units_range (mix_range _ _ _ _)

/-- A multiply by 0 gives 0 and does not overflow. -/
theorem mulq_zero (a : Int) : mulq a 0 = ⟨0, false⟩ := by
  rw [mulq, Int.mul_zero]; rfl

/-- A multiply-accumulate of 0 onto 0 gives 0 and does not overflow. -/
theorem macq_zero (a : Int) : macq a 0 0 = ⟨0, false⟩ := by
  rw [macq, Int.mul_zero]; rfl

/-- With no wet gain and the dry gain 4096, the mix is the dry sample (R109). -/
theorem mix_dry {dry : Int} (h : -524288 ≤ dry ∧ dry ≤ 524287) (wet : Int) : (mix 0 4096 dry wet).value = dry := by
  rw [mix, mulq_zero, macq, sat_value, sra12, Int.mul_ediv_cancel _ (by decide), Int.add_zero, clamp20_of_range h]

/-- Truncation toward zero takes less than one step off a value (R70). -/
theorem truncation_near (neg : Bool) (m : Nat) :
    (signed neg (m / 2 ^ 137) * 2 ^ 137 - signed neg m).natAbs < 2 ^ 137 := by
  cases neg with
  | false => simp only [signed, Bool.false_eq_true, if_false]; omega
  | true => simp only [signed, if_true]; omega

/-- A value below 128 in magnitude is truncated to a sample (R76). -/
theorem truncation_range {neg : Bool} {m : Nat} (h : (signed neg m).natAbs < 128 * 2 ^ 149) :
    -524288 ≤ signed neg (m / 2 ^ 137) ∧ signed neg (m / 2 ^ 137) ≤ 524287 := by
  cases neg with
  | false => simp only [signed, Bool.false_eq_true, if_false] at *; omega
  | true => simp only [signed, if_true] at *; omega

/-- An input below 128 in magnitude is less than one step from the float of its fixed-point value (R76, R109). -/
theorem toFloat_toFixedF_near {f : Word} {z : Int} (hf : HasUnits f z) (hz : z.natAbs < 128 * 2 ^ 149) :
    ∃ y, HasUnits (toFloat (toFixedF f)) y ∧ (y - z).natAbs < 2 ^ 137 := by
  obtain ⟨neg, m, hfin, rfl⟩ := hf
  have hrange := truncation_range hz
  have hfixed : toFixedF f = signed neg (m / 2 ^ 137) := by
    rw [toFixedF, hfin]; exact clamp20_of_range hrange
  have hsmall : (signed neg (m / 2 ^ 137)).natAbs < 2 ^ 24 := by omega
  rw [hfixed]
  exact ⟨_, hasUnits_toFloat hsmall, truncation_near neg m⟩

/-- Settles O48: with these gains the mix is the dry sample of each channel. -/
theorem dryMixReproducesInput : Obligations.DryMixReproducesInput := by
  intro s hwet hdry
  have hmix : ∀ (f : Word) (wet : Int),
      (mix (s32 s.coef.mixWet) (s32 s.coef.mixDry) (toFixedF f) wet).value = toFixedF f := by
    intro f wet
    rw [hwet, hdry]
    exact mix_dry (toFixed_range _) wet
  obtain ⟨wetL, wetR, hL, hR⟩ := procTick_outputs s
  obtain ⟨t, ht, -, hres0, hres1, -⟩ := exists_exec_proc (procTick_eta s)
  rw [hL, hmix] at hres0
  rw [hR, hmix] at hres1
  refine ⟨t, ht, hres0, hres1, fun z hz hlt => ?_, fun z hz hlt => ?_⟩
  · rw [hres0]; exact toFloat_toFixedF_near hz hlt
  · rw [hres1]; exact toFloat_toFixedF_near hz hlt

/-- With both factors 0 a damping accumulator becomes 0 (R103). -/
theorem damp_zero (dmp ap : Int) : damp 0 0 dmp ap = ⟨0, false⟩ := by
  simp only [damp, mulq_zero, macq_zero, Bool.or_self]

/-- With both gains 0 the mix is silent (R105). -/
theorem mix_zero (dry wet : Int) : mix 0 0 dry wet = ⟨0, false⟩ := by
  simp only [mix, mulq_zero, macq_zero, Bool.or_self]

/-- The attenuated right channel of a silent accumulator is silent (R104). -/
theorem mulq_rAtten_zero : mulq 0 (s32 rAtten) = ⟨0, false⟩ := by decide

/-- Two inactive stages pass the comb average through and change no line (R102). -/
theorem allpass_inactive {ap : Vector Line 2} (h : ∀ k : Fin 2, u32 ap[k].active = 0) (c cb : Int) :
    allpass c ap cb = { lines := ap, value := cb, ov := false } := by
  have hlines : #v[ap[0], ap[1]] = ap := by
    ext1 k hk
    match k, hk with
    | 0, _ => rfl
    | 1, _ => rfl
  have h0 : u32 ap[0].active = 0 := h 0
  have h1 : u32 ap[1].active = 0 := h 1
  rw [allpass, allpassStage_inactive h0, allpassStage_inactive h1]
  simp only [hlines, Bool.or_self]

/-- A tick with every line inactive and every coefficient 0 is silent, leaves the lines alone and hands the DC block's
output to the tail level (R108, R147). -/
theorem tick_silent {p : Pipe} (hpd : u32 p.pd.active = 0) (her : ∀ k : Fin 8, u32 p.er[k].active = 0)
    (hcomb : ∀ k : Fin 4, u32 p.comb[k].active = 0) (hap : ∀ k : Fin 2, u32 p.ap[k].active = 0) (inL inR : FVal) :
    tick Coeffs.reset p inL inR =
      { pipe := { p with rvDcs := toFloat (monoMean (toFixed inL) (toFixed inR)), dmpL := 0#32, dmpR := 0#32 },
        outL := 0, outR := 0, ap := dcBlock (monoMean (toFixed inL) (toFixed inR)) p.rvDcs, ov := false } := by
  obtain ⟨herLines, herValue, herOv⟩ := bank_all_inactive Coeffs.reset.erGain
    (dcBlock (monoMean (toFixed inL) (toFixed inR)) p.rvDcs) fun k hk => her ⟨k, hk⟩
  obtain ⟨hcbLines, hcbValue, hcbOv⟩ := bank_all_inactive (Vector.replicate 4 Coeffs.reset.combFb)
    (dcBlock (monoMean (toFixed inL) (toFixed inR)) p.rvDcs) fun k hk => hcomb ⟨k, hk⟩
  have hA : s32 Coeffs.reset.dampA = 0 := rfl
  have hB : s32 Coeffs.reset.dampB = 0 := rfl
  have hW : s32 Coeffs.reset.mixWet = 0 := rfl
  have hD : s32 Coeffs.reset.mixDry = 0 := rfl
  have hw : w32 0 = 0#32 := rfl
  simp only [tick, preDelay_inactive hpd, herLines, herValue, herOv, hcbLines, hcbValue, hcbOv, allpass_inactive hap,
    hA, hB, hW, hD, hw, damp_zero, mulq_rAtten_zero, mix_zero, Bool.or_self]

/-- Settles O50. -/
theorem procBeforePrepareIsSilent : Obligations.ProcBeforePrepareIsSilent := by
  intro s hcoef hpd her hcomb hap mono
  have htick := tick_silent hpd her hcomb hap (opaFloat s) (opbFloat s)
  rw [← hcoef, ← procTick] at htick
  obtain ⟨t, ht, hpipe, hres0, hres1, htail, hpovf⟩ := exists_exec_proc htick
  exact ⟨t, ht, hres0.trans toFloat_zero, hres1.trans toFloat_zero, hpovf, hpipe, htail⟩

end Sys2Proof.Machine
end

section
/-! The tail level (43_reverb_process.md R106): the formula on patterns, and the bound that its two products and their
sum keep. -/

namespace Sys2Proof.Machine

/-- Clearing bit 31 of a finite pattern takes the magnitude of its value (R10). -/
theorem unpack32_fabs {w : Word} {neg : Bool} {m : Nat} (h : unpack32 w = .fin neg m) :
    unpack32 (fabs w) = .fin false m := by
  have hsign : (fabs w).getMsbD 0 = false := by simp [fabs]
  have he : (fabs w).extractLsb' 23 8 = w.extractLsb' 23 8 := by
    rw [fabs, BitVec.extractLsb'_and]; exact BitVec.and_allOnes
  have hf : (fabs w).extractLsb' 0 23 = w.extractLsb' 0 23 := by
    rw [fabs, BitVec.extractLsb'_and]; exact BitVec.and_allOnes
  simp only [unpack32, hsign, he, hf] at h ⊢
  split at h
  · split at h <;> cases h
  · next hfin =>
    rw [if_neg hfin]
    split at h <;> cases h
    · next hsub => rw [if_pos hsub]
    · next hnormal => rw [if_neg hnormal]

/-- The magnitude of a sample's float, as a pattern and as a value (R106). -/
theorem unpack32_fabs_toFloat {ap : Int} (h : ap.natAbs < 2 ^ 24) :
    unpack32 (fabs (toFloat ap)) = fabsV (toFloatV ap) := by
  have hv := toFloatV_of_lt h
  rw [unpack32_fabs ((unpack32_toFloat ap).trans hv), hv, fabsV]

/-- Rounding `m / 2^j` does not pass a magnitude of the format. -/
theorem roundMag_le_of_isMag_scaled {f : FFmt} (hf : 0 < f.prec) {m j x : Nat} (hx : IsMag f x) (h : m ≤ x * 2 ^ j) :
    roundMag f m j ≤ x := by
  by_contra hlt
  obtain ⟨-, hnear⟩ := roundMag_nearestEven hf m j
  have hgt : x * 2 ^ j < roundMag f m j * 2 ^ j := Nat.mul_lt_mul_of_pos_right (Nat.not_le.1 hlt) (Nat.two_pow_pos j)
  have := hnear x hx (by omega)
  rw [natCast_mul_two_pow, natCast_mul_two_pow] at this
  omega

/-- A product of two values that are not negative stays below a magnitude of binary32 that bounds the exact product. -/
theorem fmulV_nonneg_le {m n x : Nat} (hx : IsMag binary32 x) (htop : x < 2 ^ binary32.topExp)
    (h : m * n ≤ x * 2 ^ 149) :
    ∃ r ≤ x, fmulV binary32 (.fin false m) (.fin false n) = .fin false r := by
  have hr : roundMag binary32 (m * n) binary32.unitExp ≤ x := roundMag_le_of_isMag_scaled (by decide) hx h
  refine ⟨_, hr, ?_⟩
  rw [fmulV, froundMag]
  exact if_neg (by omega)

/-- K001 is a positive number (R11). -/
theorem unpack32_k001 : unpack32 k001 = .fin false (magOfBits k001.toNat) := unpack32_of_lt_inf (by decide)

/-- What a tick adds to the level, K001 times at most 128.0, is at most 526 steps of 1/4096. -/
theorem tail_rise_le {ap : Int} (h : -524288 ≤ ap ∧ ap ≤ 524287) :
    ∃ r ≤ 526 * 2 ^ 137, fmulV binary32 (fabsV (toFloatV ap)) (unpack32 k001) = .fin false r := by
  have hk : 524288 * 2 ^ 137 * magOfBits k001.toNat ≤ 526 * 2 ^ 137 * 2 ^ 149 := by decide
  have hap : ap.natAbs ≤ 524288 := by omega
  have hprod : ap.natAbs * 2 ^ 137 * magOfBits k001.toNat ≤ 526 * 2 ^ 137 * 2 ^ 149 :=
    (Nat.mul_le_mul_right _ (Nat.mul_le_mul_right _ hap)).trans hk
  rw [toFloatV_of_lt (by omega), fabsV, unpack32_k001]
  exact fmulV_nonneg_le (isMag_steps (by decide)) (lt_overflow_of_le (by omega)) hprod

/-- 129.0 in units of 2^-149 is 129 * 4096 steps. -/
theorem magOfBits_129 : magOfBits 0x43010000 = 528384 * 2 ^ 137 := by decide

/-- What a tick leaves of a level of at most 129.0, K999 times it, is at most 527858 steps of 1/4096. -/
theorem tail_fall_le {m : Nat} (h : m ≤ 528384 * 2 ^ 137) :
    ∃ r ≤ 527858 * 2 ^ 137, fmulV binary32 (.fin false m) (unpack32 k999) = .fin false r := by
  have hk : 528384 * 2 ^ 137 * magOfBits k999.toNat ≤ 527858 * 2 ^ 137 * 2 ^ 149 := by decide
  rw [unpack32_k999]
  exact fmulV_nonneg_le (isMag_steps (by decide)) (lt_overflow_of_le (by omega)) ((Nat.mul_le_mul_right _ h).trans hk)

/-- The two bounds add up to 129.0, which the rounded sum does not pass. -/
theorem tailStepV_le {m : Nat} (h : m ≤ 528384 * 2 ^ 137) {ap : Int} (hap : -524288 ≤ ap ∧ ap ≤ 524287) :
    ∃ r ≤ 528384 * 2 ^ 137, tailStepV (.fin false m) ap = .fin false r := by
  obtain ⟨fall, hfall, hfallV⟩ := tail_fall_le h
  obtain ⟨rise, hrise, hriseV⟩ := tail_rise_le hap
  rw [tailStepV, hfallV, hriseV]
  exact faddV_nonneg_le (isMag_steps (by decide)) (lt_overflow_of_le (by omega)) (by omega)

/-- The tail level's pattern has the value of its step: a sum. -/
theorem unpack32_tailStep (level : Word) (ap : Int) : unpack32 (tailStep level ap) = tailStepV (unpack32 level) ap :=
  unpack32_pack32 (unpack32_nanWordOf _ _) (holds32_faddV _ _)

/-- The tail level stays at most 129.0 as a pattern (R106, assumption 3). -/
theorem tailStep_toNat_le {level : Word} (h : level.toNat ≤ 0x43010000) {ap : Int} (hap : -524288 ≤ ap ∧ ap ≤ 524287) :
    (tailStep level ap).toNat ≤ 0x43010000 := by
  have hm : magOfBits level.toNat ≤ 528384 * 2 ^ 137 := magOfBits_129 ▸ magOfBits_strictMono.monotone h
  obtain ⟨r, hr, hstep⟩ := tailStepV_le hm hap
  have hv : unpack32 (tailStep level ap) = .fin false r := by
    rw [unpack32_tailStep, unpack32_of_lt_inf (by omega), hstep]
  rw [eq_magOfBits_of_unpack32 hv, ← magOfBits_129] at hr
  exact magOfBits_strictMono.le_iff_le.1 hr

/-- A product with K999 is no NaN when the other factor is none. -/
theorem fmulV_k999_ne_nan {v : FVal} (h : v ≠ .nan) : fmulV binary32 v (unpack32 k999) ≠ .nan := by
  have hpos : magOfBits k999.toNat ≠ 0 := by decide
  rw [unpack32_k999]
  cases v with
  | nan => exact absurd rfl h
  | inf s => rw [fmulV, if_neg hpos]; exact nofun
  | fin s m => rw [fmulV, froundMag]; split <;> exact nofun

/-- A sum with a finite value is no NaN when the other operand is none. -/
theorem faddV_fin_right_ne_nan {v : FVal} (h : v ≠ .nan) (t : Bool) (n : Nat) : faddV binary32 v (.fin t n) ≠ .nan := by
  cases v with
  | nan => exact absurd rfl h
  | inf s => exact nofun
  | fin s m => exact faddV_fin_ne_nan _ _ _ _ _

/-- Settles O42: the step's value is the formula's, and it is no NaN, so the free NaN pattern does not matter. -/
theorem tailLevelFollowsFormula : Obligations.TailLevelFollowsFormula := by
  intro level ap hlevel hlo hhi
  obtain ⟨rise, -, hrise⟩ := tail_rise_le ⟨hlo, hhi⟩
  have hvalue : unpack32 (fadd (fmul level k999) (fmul (fabs (toFloat ap)) k001)) = tailStepV (unpack32 level) ap := by
    rw [unpack32_fadd, unpack32_fmul, unpack32_fmul, unpack32_fabs_toFloat (by omega), tailStepV]
  have hfinite : tailStepV (unpack32 level) ap ≠ .nan := by
    rw [tailStepV, hrise]
    exact faddV_fin_right_ne_nan (fmulV_k999_ne_nan hlevel) _ _
  rw [tailStep, ← hvalue]
  exact pack32_unpack32 _ (hvalue ▸ hfinite)

/-- A word of a memory is blank or listed. -/
theorem readWord_blank_or_listed (m : Memory) (a : Nat) : readWord m a = blankWord ∨ ∃ c ∈ m, c.2 = readWord m a := by
  induction m with
  | nil => exact .inl rfl
  | cons c m ih =>
    rw [readWord]
    split
    · exact .inr ⟨c, List.mem_cons_self, rfl⟩
    · exact ih.imp_right fun ⟨d, hd, hread⟩ => ⟨d, List.mem_cons_of_mem c hd, hread⟩

/-- Every word of a line in form is a sample, the unlisted ones included (R29). -/
theorem clamped_readWord {n : Nat} {l : Line} (h : LineOk n l) (i : Nat) : Clamped (readWord l.buf i) := by
  rcases readWord_blank_or_listed l.buf i with hblank | ⟨c, hc, hread⟩
  · rw [hblank]; decide
  · rw [← hread]; exact (h.inBuffer c hc).2

/-- The pre-delay puts out a sample (R99). -/
theorem preDelay_range {l : Line} (h : LineOk (u32 l.active) l) (offset : Word) {dc : Int}
    (hdc : -524288 ≤ dc ∧ dc ≤ 524287) :
    -524288 ≤ (preDelay offset l dc).2 ∧ (preDelay offset l dc).2 ≤ 524287 := by
  by_cases hactive : u32 l.active = 0
  · rw [preDelay_inactive hactive]; exact hdc
  · obtain ⟨hline, -⟩ := preDelay_ok ⟨h, le_rfl⟩ offset hdc
    rw [preDelay_active hactive] at hline ⊢
    exact clamped_readWord hline _

/-- An allpass stage puts out a sample when it is given one (R102). -/
theorem allpassStage_range (c : Int) (l : Line) {run : Int} (h : -524288 ≤ run ∧ run ≤ 524287) :
    -524288 ≤ (allpassStage c l run).run ∧ (allpassStage c l run).run ≤ 524287 := by
  by_cases hactive : u32 l.active = 0
  · rw [allpassStage_inactive hactive]; exact h
  · rw [allpassStage_active hactive]; exact macq_range _ _ _

/-- The allpass output of a tick is a sample (R64, R102). -/
theorem tick_ap_range {b : Build} {p : Pipe} (h : PipeOk b p) (c : Coeffs) (inL inR : FVal) :
    -524288 ≤ (tick c p inL inR).ap ∧ (tick c p inL inR).ap ≤ 524287 := by
  obtain ⟨hpd, -⟩ := h.pd
  exact allpassStage_range _ _ (allpassStage_range _ _ (bank_value_range _ _ (bank_value_range _ _
    (preDelay_range hpd _ (toFixed_range _)))))

/-- Settles O51: the invariant makes the allpass output a sample. -/
theorem tailLevelStaysFinite : Obligations.TailLevelStaysFinite := by
  intro s hs hlevel
  obtain ⟨-, hpipe, -, -⟩ := (inv_iff s).1 hs
  obtain ⟨t, ht, -, -, -, htail, -⟩ := exists_exec_proc (procTick_eta s)
  exact ⟨t, ht, htail ▸ tailStep_toNat_le hlevel (tick_ap_range hpipe _ _ _)⟩

end Sys2Proof.Machine
end

section
/-! The PARAM registers (44_parameter_mapping.md R111, R113): `pclamp` by the number of the pattern, and a preset loaded
and captured is a run of SETs followed by a run of GETs. -/

namespace Sys2Proof.Machine

theorem unpack32_zero : unpack32 0x00000000#32 = .fin false 0 := by decide

theorem unpack32_one : unpack32 0x3F800000#32 = .fin false (magOfBits 0x3F800000) := unpack32_of_lt_inf (by decide)

/-- One strict comparison of values that are not negative. -/
theorem fltV_nonneg (m n : Nat) : fltV (.fin false m) (.fin false n) = decide (m < n) := by
  simp [fltV, signed]

/-- A finite word that is not negative is clamped from above only: the larger pattern is the larger value (R111). -/
theorem pclamp_of_nonneg {v : Word} (h : v.toNat < 0x7F800000) :
    pclamp v = if 0x3F800000 < v.toNat then 0x3F800000#32 else v := by
  simp only [pclamp, unpack32_of_lt_inf h, unpack32_zero, unpack32_one, fltV_nonneg, magOfBits_strictMono.lt_iff_lt,
    reduceCtorEq, Nat.not_lt_zero, decide_false, Bool.false_eq_true, if_false, decide_eq_true_eq]

/-- A negative finite value other than -0.0 is below 0. -/
theorem fltV_negative_zero {m : Nat} (h : 0 < m) : fltV (.fin true m) (.fin false 0) = true := by
  simpa [fltV, signed] using h

/-- A word above -0.0 up to -infinity has a value below 0 (R10). -/
theorem fltV_zero_of_negative {v : Word} (hlo : 0x80000000 < v.toNat) (hhi : v.toNat ≤ 0xFF800000) :
    fltV (unpack32 v) (.fin false 0) = true := by
  obtain ⟨neg, e, frac, he, hf, hv⟩ := exists_fields v
  obtain rfl : neg = true := by
    by_contra hneg
    rw [if_neg hneg] at hv; omega
  rw [unpack32_of_fields he hf hv]
  rw [if_pos rfl] at hv
  split
  · rw [if_pos (show frac = 0 by omega)]; rfl
  · split
    · exact fltV_negative_zero (by omega)
    · exact fltV_negative_zero (by positivity)

/-- A word below 0 gives +0.0 (R111). -/
theorem pclamp_of_negative {v : Word} (hlo : 0x80000000 < v.toNat) (hhi : v.toNat ≤ 0xFF800000) :
    pclamp v = 0x00000000#32 := by
  simp only [pclamp, unpack32_zero, fltV_zero_of_negative hlo hhi, if_true, ite_self]

/-- A NaN gives +0.0 (R111). -/
theorem pclamp_of_nan {v : Word} (h : 0x7F800000 < v.toNat % 2 ^ 31) : pclamp v = 0x00000000#32 :=
  if_pos ((unpack32_eq_nan_iff v).2 h)

/-- `pclamp` on patterns (R111): kept from +0.0 to 1.0 and at -0.0, 1.0 above that up to infinity, +0.0 otherwise. -/
theorem pclamp_eq (v : Word) : pclamp v =
    if v.toNat ≤ 0x3F800000 ∨ v = 0x80000000#32 then v
    else if 0x3F800000 < v.toNat ∧ v.toNat ≤ 0x7F800000 then 0x3F800000#32 else 0x00000000#32 := by
  have hlt := v.isLt
  split
  · next hkept =>
    rcases hkept with hle | rfl
    · rw [pclamp_of_nonneg (by omega), if_neg (by omega)]
    · decide
  · next hnot =>
    obtain ⟨hgt, hne⟩ := not_or.1 hnot
    have hne : v.toNat ≠ 0x80000000 := fun h => hne (BitVec.eq_of_toNat_eq h)
    split
    · next habove =>
      rcases Nat.eq_or_lt_of_le habove.2 with hinf | hfin
      · obtain rfl : v = 0x7F800000#32 := BitVec.eq_of_toNat_eq hinf
        decide
      · rw [pclamp_of_nonneg hfin, if_pos habove.1]
    · by_cases hnan : 0x7F800000 < v.toNat % 2 ^ 31
      · exact pclamp_of_nan hnan
      · exact pclamp_of_negative (by omega) (by omega)

/-- Settles O15: PARAM stores `pclamp` of the word, which is the clamp on patterns. -/
theorem paramWriteClampsToUnitInterval : Obligations.ParamWriteClampsToUnitInterval := by
  intro s i v
  extract_lets kept above w
  have hw : pclamp v = w := pclamp_eq v
  refine ⟨?_, Vector.getElem_set_self ..⟩
  rw [← hw]
  exact busWrite_regOffset (.param i) v s

/-- A run that starts with a SET of a PARAM register goes on with the clamped word in it (R62, R111). -/
theorem stepMany_of_setParam {s : State} {i : Fin 7} {w : Word} {rest : List PortEvent} (n : Nat)
    (hr : s.port.rst = false) (hq : s.port.queue = setReg (.param i) w false :: rest) :
    ∃ t, stepMany (n + 1) s = stepMany n t ∧ t.port.rst = false ∧ t.port.queue = rest ∧
      t.port.replies = s.port.replies ∧ t.param = s.param.set i (pclamp w) :=
  ⟨_, stepMany_of_setReg n hr hq rfl, hr, rfl, rfl, rfl⟩

/-- What SETs of PARAM registers leave at each register (R111): the clamped word at a register that was set, the old word at
every other. -/
theorem stepMany_of_setParams (v : Vector Word 7) (n : Nat) (rest : List PortEvent) (is : List (Fin 7)) (s : State)
    (hr : s.port.rst = false)
    (hq : s.port.queue = is.map (fun i => setReg (.param i) v[i] false) ++ rest) :
    ∃ t, stepMany (is.length + n) s = stepMany n t ∧ t.port.rst = false ∧ t.port.queue = rest ∧
      t.port.replies = s.port.replies ∧ ∀ k : Fin 7, t.param[k] = if k ∈ is then pclamp v[k] else s.param[k] := by
  induction is generalizing s with
  | nil => exact ⟨s, by rw [List.length_nil, Nat.zero_add], hr, hq, rfl, fun k => (if_neg List.not_mem_nil).symm⟩
  | cons i is ih =>
    obtain ⟨u, hfirst, hru, hqu, hrepliesu, hparamu⟩ := stepMany_of_setParam (is.length + n) hr hq
    obtain ⟨t, hrun, hrst, hqueue, hreplies, hparam⟩ := ih u hru hqu
    refine ⟨t, ?_, hrst, hqueue, hreplies.trans hrepliesu, fun k => ?_⟩
    · rw [List.length_cons, Nat.add_right_comm, hfirst, hrun]
    · rw [hparam, hparamu]
      by_cases hk : k = i
      · subst hk; simp
      · rw [getElem_set_of_ne _ _ hk]; simp [hk]

/-- A run of GETs appends the registers to the replies and takes its events (R40, R62). -/
theorem stepMany_of_getRegs (regs : List Reg) (rest : List PortEvent) (s : State) (hr : s.port.rst = false)
    (hq : s.port.queue = regs.map getReg ++ rest) :
    ∃ t, stepMany regs.length s = .next t ∧ t.port.queue = rest ∧
      t.port.replies = s.port.replies ++ regs.map (readReg s) := by
  induction regs generalizing s with
  | nil => exact ⟨s, rfl, hq, by simp⟩
  | cons r regs ih =>
    obtain ⟨t, hrun, hqueue, hreplies⟩ := ih (answered s (regs.map getReg ++ rest) (readReg s r)) hr rfl
    refine ⟨t, ?_, hqueue, ?_⟩
    · exact (stepMany_succ _ (step_of_mapped_read hr hq (toNat_ofNat_regOffset r))).trans hrun
    · have hsame : readReg (answered s (regs.map getReg ++ rest) (readReg s r)) = readReg s :=
        funext (readReg_answered _ _ _)
      rw [hreplies, hsame]
      simp [answered, reply, withQueue]

/-- The accesses of a preset load and capture: the seven SETs, then the seven GETs (R62, R113). -/
theorem expandAll_preset (v : Vector Word 7) : expandAll (setParams v ++ getParams) =
    (List.finRange 7).map (fun i => setReg (.param i) v[i] false) ++ ((List.finRange 7).map Reg.param).map getReg := rfl

/-- Settles O18: the SETs leave the clamped words in the registers, and the GETs read them. -/
theorem presetReadsBackClamped : Obligations.PresetReadsBackClamped := by
  intro s v rest hr hq
  rw [expandAll_preset, List.append_assoc] at hq
  obtain ⟨t, hload, hrst, hqueue, hkept, hparam⟩ := stepMany_of_setParams v 7 _ _ s hr hq
  obtain ⟨u, hcapture, hrest, hreplies⟩ := stepMany_of_getRegs _ rest t hrst hqueue
  refine ⟨u, hload.trans hcapture, hrest, ?_⟩
  have hread : ∀ i : Fin 7, readReg t (.param i) = pclamp v[i] := fun i => by
    rw [readReg, hparam, if_pos (List.mem_finRange i)]
  have hv : v.toList = (List.finRange 7).map fun i => v[i] := by
    refine List.ext_getElem (by simp) fun n h1 h2 => ?_
    simp
  rw [hreplies, hkept, hv, List.map_map, List.map_map]
  exact congrArg _ (List.map_congr_left fun i _ => hread i)

end Sys2Proof.Machine
end

section
/-! The floors of the host's derivation (44_parameter_mapping.md R115, R123, R124): each length and the offset pass
through `max`, and a number that is written as a u32 is read back. -/

namespace Sys2Proof.Machine

/-- An integer written as a u32 is read back (R7). -/
theorem u32_of_asU32 {n : Int} {w : Word} (h : asU32 n = some w) : (u32 w : Int) = n := by
  unfold asU32 at h
  split at h
  · next hrange =>
    cases h
    simp only [u32, w32, BitVec.toNat_ofInt]
    omega
  · cases h

/-- What passes through `max(lo, ·)` is at least `lo`. -/
theorem le_of_atLeast {lo : Nat} {n : Option Int} {w : Word} (h : atLeast lo n = some w) : lo ≤ u32 w := by
  obtain ⟨k, -, hk⟩ := Option.bind_eq_some_iff.1 h
  have := u32_of_asU32 hk
  omega

/-- A row that exists holds what each of its entries gives. -/
theorem getElem_of_vecAll {α : Type} {n : Nat} {f : α → Option Word} {v : Vector α n} {row : Vector Word n}
    (h : vecAll (vecMap f v) = some row) (k : Fin n) : f v[k] = some row[k] := by
  unfold vecAll at h
  split at h
  · next hall =>
    cases h
    have hmem : f v[k] ∈ (vecMap f v).toList := by
      simpa [vecMap] using ⟨v[k], Vector.getElem_mem _, rfl⟩
    have hsome : (f v[k]).isSome := List.all_eq_true.1 hall _ hmem
    obtain ⟨w, hw⟩ := Option.isSome_iff_exists.1 hsome
    have hw' : f v[k.val] = some w := hw
    simp [hw']
  · cases h

/-- The parts of derived lengths: the pre-delay's, and each line's from the base tuning of R123 (R124). -/
theorem deriveLengths_parts {sr : F64} {param : Vector Word 7} {n : Lengths} (h : deriveLengths sr param = some n) :
    let len := deriveLen (widen (unpack32 param[5])) sr
    derivePdLen sr = some n.pd ∧ (∀ k : Fin 8, ∃ base, len base = some n.er[k]) ∧
      (∀ k : Fin 4, ∃ base, len base = some n.comb[k]) ∧ (∀ k : Fin 2, ∃ base, len base = some n.ap[k]) := by
  obtain ⟨pd, hpd, h⟩ := Option.bind_eq_some_iff.1 h
  obtain ⟨er, her, h⟩ := Option.bind_eq_some_iff.1 h
  obtain ⟨comb, hcomb, h⟩ := Option.bind_eq_some_iff.1 h
  obtain ⟨ap, hap, rfl⟩ := Option.map_eq_some_iff.1 h
  exact ⟨hpd, fun k => ⟨_, getElem_of_vecAll her k⟩, fun k => ⟨_, getElem_of_vecAll hcomb k⟩,
    fun k => ⟨_, getElem_of_vecAll hap k⟩⟩

/-- A derived line length is at least 10 (R123). -/
theorem ten_le_of_deriveLen {p5 sr : F64} {len : Word} (h : ∃ base, deriveLen p5 sr base = some len) : 10 ≤ u32 len :=
  let ⟨_, hlen⟩ := h
  le_of_atLeast hlen

/-- Settles O59: every length and the offset pass through `max`. -/
theorem derivedLengthsAreAtLeastTen : Obligations.DerivedLengthsAreAtLeastTen := by
  constructor
  · intro sr param n h
    obtain ⟨hpd, her, hcomb, hap⟩ := deriveLengths_parts h
    exact ⟨le_of_atLeast hpd, fun k => ten_le_of_deriveLen (her k), fun k => ten_le_of_deriveLen (hcomb k),
      fun k => ten_le_of_deriveLen (hap k)⟩
  · intro pow10 sr param c h
    obtain ⟨off, hoff, rfl⟩ := Option.map_eq_some_iff.1 h
    exact le_of_atLeast hoff

end Sys2Proof.Machine
end

section
/-! COMB_FB (44_parameter_mapping.md R118): `clamp` brings every value between 0 and 0.95, and the quantization of such a
value is from 0 to 3891. -/

namespace Sys2Proof.Machine

/-- Rounding does not pass a magnitude of the format, whatever the position of the unit. -/
theorem roundMag_le_of_le_isMag {f : FFmt} (hf : 0 < f.prec) {m j x : Nat} (hx : IsMag f x) (h : m ≤ x * 2 ^ j) :
    roundMag f m j ≤ x := by
  by_contra hlt
  obtain ⟨-, hnear⟩ := roundMag_nearestEven hf m j
  have hmul : x * 2 ^ j < roundMag f m j * 2 ^ j := Nat.mul_lt_mul_of_pos_right (by omega) (Nat.two_pow_pos j)
  have := hnear x hx (by omega)
  simp only [natCast_mul_two_pow] at this
  omega

/-- The magnitude of the binary64 value nearest 0.95. -/
def mag095 : Nat := roundMag binary64 (2 * (95 * 2 ^ 1076 / 100) + 1) 3

theorem dec64_zero : dec64 0 1 = .fin false 0 := by decide +kernel

theorem dec64_095 : dec64 95 100 = .fin false mag095 := by decide +kernel

/-- 0.95 is below 3891.5 / 4096; a unit of binary32 is 2^925 units of binary64. -/
theorem mag095_le : mag095 ≤ 7783 * 2 ^ 136 * 2 ^ 925 := by decide +kernel

/-- `clamp` between +0 and a value that is not negative (R114): a NaN and -0 stay as they are. -/
theorem clamp64_cases (v : F64) (b : Nat) :
    clamp64 v (.fin false 0) (.fin false b) = .nan ∨ clamp64 v (.fin false 0) (.fin false b) = .fin true 0 ∨
      ∃ m ≤ b, clamp64 v (.fin false 0) (.fin false b) = .fin false m := by
  have hzero : min64 (.fin false 0) (.fin false b) = .fin false 0 := by simp [min64, fltV_nonneg]
  cases v with
  | nan => exact .inl rfl
  | inf neg =>
    cases neg with
    | true => exact .inr (.inr ⟨0, Nat.zero_le b, hzero⟩)
    | false => exact .inr (.inr ⟨b, le_rfl, rfl⟩)
  | fin neg m =>
    cases neg with
    | true =>
      by_cases hm : m = 0
      · subst hm
        exact .inr (.inl (by simp [clamp64, max64, min64, fltV, signed]))
      · refine .inr (.inr ⟨0, Nat.zero_le b, ?_⟩)
        have hmax : max64 (.fin true m) (.fin false 0) = .fin false 0 :=
          if_pos (fltV_negative_zero (Nat.pos_of_ne_zero hm))
        rw [clamp64, hmax, hzero]
    | false =>
      have hmax : max64 (.fin false m) (.fin false 0) = .fin false m := by simp [max64, fltV_nonneg]
      rw [clamp64, hmax]
      by_cases hb : b < m
      · exact .inr (.inr ⟨b, le_rfl, by simp [min64, fltV_nonneg, hb]⟩)
      · exact .inr (.inr ⟨m, Nat.le_of_not_lt hb, by simp [min64, fltV_nonneg, hb]⟩)

/-- A value from 0 to 0.95 quantizes to a number from 0 to 3891 (R118). -/
theorem toFixed_narrow_of_le {m : Nat} (h : m ≤ mag095) :
    0 ≤ toFixed (narrow (.fin false m)) ∧ toFixed (narrow (.fin false m)) ≤ 3891 := by
  have hr : roundMag binary32 m 925 ≤ 7783 * 2 ^ 136 :=
    roundMag_le_of_le_isMag (by decide) ⟨7783, 136, rfl, by decide⟩ (h.trans mag095_le)
  have hfin : narrow (.fin false m) = .fin false (roundMag binary32 m 925) := by
    rw [narrow, froundMag]
    exact if_neg (Nat.not_le.2 (lt_overflow_of_le (hr.trans (by decide))))
  rw [hfin, toFixed, signed, clamp20]
  simp only [Bool.false_eq_true, if_false]
  omega

/-- COMB_FB is from 0 to 3891, whatever the host's 10^y (R118). -/
theorem deriveCombFb_range (pow10 : F64 → F64) (p1 p5 sr : F64) :
    0 ≤ s32 (deriveCombFb pow10 p1 p5 sr) ∧ s32 (deriveCombFb pow10 p1 p5 sr) ≤ 3891 := by
  rw [deriveCombFb, dec64_zero, dec64_095]
  rcases clamp64_cases (pow10 (div64 (mul64 (fneg (dec64 3 1)) (deriveRt60 pow10 p1)) (deriveAvgCombDelay p5 sr))) mag095
    with h | h | ⟨m, hm, h⟩ <;> rw [h]
  · decide
  · decide +kernel
  · obtain ⟨hlo, hhi⟩ := toFixed_narrow_of_le hm
    rw [quantize, s32_w32 ⟨by omega, by omega⟩]
    exact ⟨hlo, hhi⟩

end Sys2Proof.Machine
end

section
/-! The reference 10^y is correctly rounded (44_parameter_mapping.md R114): the floor of four times a real magnitude and a
sticky bit are enough to round it, and the two cut-offs at 330 and -330 lie beyond the range of binary64. -/

namespace Sys2Proof.Machine

/-- A magnitude of `2^k` units is one of every format. -/
theorem isMag_two_pow {f : FFmt} (hf : 0 < f.prec) (k : Nat) : IsMag f (2 ^ k) :=
  ⟨1, k, (Nat.one_mul _).symm, Nat.one_lt_two_pow hf.ne'⟩

/-- A real magnitude is rounded from the floor of its quarter units and a sticky bit that says whether they are whole. -/
theorem nearestEvenReal_of_floor {f : FFmt} (hf : 0 < f.prec) {v : ℝ} {q sticky : Nat} (hlo : (q : ℝ) ≤ 4 * v)
    (hhi : 4 * v < q + 1) (hs : sticky = if (q : ℝ) = 4 * v then 0 else 1) :
    NearestEvenReal f v (roundMag f (2 * q + sticky) 3) := by
  have hround := nearestEvenReal_of_nearestEven (roundMag_nearestEven hf (2 * q + sticky) 3)
  by_cases hwhole : (q : ℝ) = 4 * v
  · obtain rfl : sticky = 0 := hs.trans (if_pos hwhole)
    have hv : ((2 * q + 0 : Nat) : ℝ) / 2 ^ 3 = v := by push_cast; linarith
    rwa [hv] at hround
  · obtain rfl : sticky = 1 := hs.trans (if_neg hwhole)
    exact nearestEvenReal_of_sticky (lt_of_le_of_ne hlo hwhole) hhi hround

/-- Every real magnitude has a nearest one of the format. -/
theorem exists_nearestEvenReal {f : FFmt} (hf : 0 < f.prec) {v : ℝ} (hv : 0 ≤ v) : ∃ r, NearestEvenReal f v r :=
  ⟨_, nearestEvenReal_of_floor hf (Nat.floor_le (by linarith)) (Nat.lt_floor_add_one (4 * v)) rfl⟩

/-- Rounding does not bring a real magnitude below a magnitude of the format. -/
theorem le_of_nearestEvenReal {f : FFmt} {v : ℝ} {r x : Nat} (h : NearestEvenReal f v r) (hx : IsMag f x)
    (hv : (x : ℝ) ≤ v) : x ≤ r := by
  by_contra hlt
  have hrx : (r : ℝ) < x := by exact_mod_cast Nat.lt_of_not_le hlt
  obtain ⟨-, hnear⟩ := h
  have hr : |(r : ℝ) - v| = v - r := by rw [abs_of_nonpos (by linarith)]; ring
  have hxv : |(x : ℝ) - v| = v - x := by rw [abs_of_nonpos (by linarith)]; ring
  rcases hnear x hx (by omega) with hd | ⟨hd, -⟩ <;> rw [hr, hxv] at hd <;> linarith

/-- A real magnitude below half a unit rounds to 0. -/
theorem nearestEvenReal_zero {f : FFmt} {v : ℝ} (h0 : 0 ≤ v) (h : v < 1 / 2) : NearestEvenReal f v 0 := by
  refine ⟨⟨0, 0, rfl, Nat.two_pow_pos _⟩, fun x _ hx => .inl ?_⟩
  have hx1 : (1 : ℝ) ≤ x := by exact_mod_cast Nat.one_le_iff_ne_zero.2 hx
  rw [Nat.cast_zero, zero_sub, abs_neg, abs_of_nonneg h0, abs_of_nonneg (by linarith)]
  linarith

/-- 10^y in units of binary64, for y of `t` units. -/
noncomputable def tenUnits (t : Int) : ℝ := (10 : ℝ) ^ ((t : ℝ) / 2 ^ 1074) * 2 ^ 1074

theorem tenUnits_pos (t : Int) : 0 < tenUnits t := by unfold tenUnits; positivity

theorem four_mul_tenUnits (t : Int) : 4 * tenUnits t = 2 ^ 1076 * 10 ^ ((t : ℝ) / 2 ^ 1074) := by
  have hfour : (2 : ℝ) ^ 1076 = 2 ^ 2 * 2 ^ 1074 := pow_add 2 2 1074
  rw [tenUnits, hfour]
  generalize (10 : ℝ) ^ ((t : ℝ) / 2 ^ 1074) = x
  generalize (2 : ℝ) ^ 1074 = y
  ring

/-- 10^330 is beyond the range of binary64, from 2^-1074 to 2^1024, on both sides. -/
theorem two_pow_lt_ten_pow_330 : 2 ^ 1075 < 10 ^ 330 := by decide +kernel

/-- From y = 330 on, 10^y is beyond the largest binary64 (R114). -/
theorem le_tenUnits {t : Int} (h : 330 * 2 ^ 1074 ≤ t) : ((2 ^ 2098 : Nat) : ℝ) ≤ tenUnits t := by
  have hy : (330 : ℝ) ≤ (t : ℝ) / 2 ^ 1074 := by
    rw [le_div_iff₀ (by positivity)]; simpa using Int.cast_le (R := ℝ).2 h
  have hten : (2 : ℝ) ^ 1024 ≤ 10 ^ 330 := by
    exact_mod_cast (Nat.pow_le_pow_right (by decide) (by decide)).trans two_pow_lt_ten_pow_330.le
  calc ((2 ^ 2098 : Nat) : ℝ) = 2 ^ 1024 * 2 ^ 1074 := by push_cast; rw [← pow_add]
    _ ≤ 10 ^ (330 : ℕ) * 2 ^ 1074 := by gcongr
    _ = 10 ^ (330 : ℝ) * 2 ^ 1074 := by rw [← Real.rpow_natCast]; norm_num
    _ ≤ tenUnits t := by unfold tenUnits; gcongr; norm_num

/-- Up to y = -330, 10^y is below half the smallest binary64 (R114). -/
theorem tenUnits_lt_half {t : Int} (h : t ≤ -330 * 2 ^ 1074) : tenUnits t < 1 / 2 := by
  have hy : (t : ℝ) / 2 ^ 1074 ≤ -330 := by
    rw [div_le_iff₀ (by positivity)]; simpa using Int.cast_le (R := ℝ).2 h
  have hten : (2 : ℝ) ^ 1075 < 10 ^ 330 := by exact_mod_cast two_pow_lt_ten_pow_330
  calc tenUnits t ≤ 10 ^ (-330 : ℝ) * 2 ^ 1074 := by unfold tenUnits; gcongr; norm_num
    _ = (10 ^ (330 : ℕ))⁻¹ * 2 ^ 1074 := by rw [Real.rpow_neg (by norm_num), ← Real.rpow_natCast]; norm_num
    _ < 1 / 2 := by
      rw [inv_mul_lt_iff₀ (by positivity)]
      calc (2 : ℝ) ^ 1074 = 2 ^ 1075 * (1 / 2) := by rw [pow_succ (2 : ℝ) 1074]; ring
        _ < 10 ^ (330 : ℕ) * (1 / 2) := by gcongr

/-- Between the cut-offs the floor and its sticky bit round 10^y (R114). -/
theorem nearestEvenReal_tenFloor (t : Int) : NearestEvenReal binary64 (tenUnits t)
    (roundMag binary64 (2 * tenFloor 2304 1076 1074 t + (if 0 ≤ t ∧ t % 2 ^ 1074 = 0 then 0 else 1)) 3) := by
  obtain ⟨hlo, hhi⟩ := tenFloor_spec 2304 1076 1074 t
  rw [← four_mul_tenUnits] at hlo hhi
  refine nearestEvenReal_of_floor (by decide) hlo hhi (if_congr ?_ rfl rfl)
  rw [four_mul_tenUnits]
  exact ⟨fun hwhole => tenFloor_whole _ _ _ hwhole.1 hwhole.2, tenPower_whole⟩

/-- `pow10Ref` of a finite value, by its two cut-offs (R114). -/
theorem pow10Ref_fin (s : Bool) (m : Nat) : pow10Ref (.fin s m) =
    if 330 * 2 ^ 1074 ≤ signed s m then .inf false
    else if signed s m ≤ -330 * 2 ^ 1074 then .fin false 0
    else froundMag binary64 false
      (2 * tenFloor 2304 1076 1074 (signed s m) + (if 0 ≤ signed s m ∧ signed s m % 2 ^ 1074 = 0 then 0 else 1)) 3 := rfl

/-- `pow10Ref` is 10^y correctly rounded (R114, 93 I10). -/
theorem isReferencePow10_pow10Ref : IsReferencePow10 pow10Ref := by
  intro s m
  change ∃ r, NearestEvenReal binary64 (tenUnits (signed s m)) r ∧ _
  rw [pow10Ref_fin]
  generalize signed s m = t
  split
  · next hbig =>
    obtain ⟨r, hr⟩ := exists_nearestEvenReal (f := binary64) (by decide) (tenUnits_pos t).le
    exact ⟨r, hr, (if_pos (le_of_nearestEvenReal hr (isMag_two_pow (by decide) 2098) (le_tenUnits hbig))).symm⟩
  · split
    · next hsmall =>
      refine ⟨0, nearestEvenReal_zero (tenUnits_pos t).le (tenUnits_lt_half hsmall), ?_⟩
      rw [if_neg (Nat.not_le.2 (Nat.two_pow_pos 2098))]
    · exact ⟨_, nearestEvenReal_tenFloor t, rfl⟩

/-- Settles O60: the bound of COMB_FB, the correct rounding of the reference, and each row of R126 evaluated. -/
theorem derivedCombFeedbackIsBounded : Obligations.DerivedCombFeedbackIsBounded := by
  refine ⟨?_, deriveCombFb_range, isReferencePow10_pow10Ref, ?_, ?_, ?_, ?_, ?_⟩
  all_goals decide +kernel

end Sys2Proof.Machine
end

section
/-! Errors (60_exceptions.md R127 to R135): which words are illegal, that no event ends in a fault or a refusal, and that
what raises an error changes ERR alone. -/

namespace Sys2Proof.Machine

/-- OP is the word divided by 2^24 (R55). -/
theorem opField_toNat (w : Word) : (opField w).toNat = w.toNat / 2 ^ 24 := by
  rw [opField, BitVec.extractLsb'_toNat, Nat.shiftRight_eq_div_pow]
  omega

/-- RSV is byte 2 of the word (R55). -/
theorem rsvField_toNat (w : Word) : (rsvField w).toNat = w.toNat / 2 ^ 16 % 2 ^ 8 := by
  rw [rsvField, BitVec.extractLsb'_toNat, Nat.shiftRight_eq_div_pow]

/-- ID is the low half of the word (R55). -/
theorem idField_toNat (w : Word) : (idField w).toNat = w.toNat % 2 ^ 16 := by
  rw [idField, BitVec.extractLsb'_toNat, Nat.shiftRight_eq_div_pow, Nat.pow_zero, Nat.div_one]

/-- PWRITE and PREADC are the OP values that take an ID (R55, R59). -/
theorem takesId_eq_false_iff (op : BitVec 8) : takesId op = false ↔ op.toNat ≠ 0x10 ∧ op.toNat ≠ 0x11 := by
  simp only [takesId, Bool.or_eq_false_iff, beq_eq_false_iff_ne, ne_eq, ← BitVec.toNat_inj, BitVec.toNat_ofNat]

/-- The OP of a command is an assigned one (R58). -/
theorem op_toNat_assigned (i : Instr) : i.op.toNat ≤ 0x06 ∨ (0x10 ≤ i.op.toNat ∧ i.op.toNat ≤ 0x12) ∨
    (0x20 ≤ i.op.toNat ∧ i.op.toNat ≤ 0x23) := by
  cases i with
  | nop | tofix | toflt | mul | mac | add | dcblk => exact .inl (by decide)
  | pwrite id => exact .inr (.inl (show 0x10 ≤ 0x10 ∧ 0x10 ≤ 0x12 by decide))
  | preadc id => exact .inr (.inl (show 0x10 ≤ 0x11 ∧ 0x11 ≤ 0x12 by decide))
  | preset => exact .inr (.inl (by decide))
  | prepare | rreset | proc | updmod => exact .inr (.inr (by decide))

/-- The three fields of a word that decodes: the command's OP, RSV 0, and ID 0 unless the command takes it (R59). -/
theorem fields_of_decode {w : Word} {i : Instr} (h : decode w = .command i) : w.toNat / 2 ^ 24 = i.op.toNat ∧
    w.toNat / 2 ^ 16 % 2 ^ 8 = 0 ∧ (takesId i.op = false → w.toNat % 2 ^ 16 = 0) := by
  obtain ⟨hcmd, hrsv, hid⟩ := (decode_eq_command_iff w i).1 h
  rw [← opField_toNat, ← rsvField_toNat, ← idField_toNat, hrsv, op_of_commandOf hcmd]
  exact ⟨rfl, rfl, fun htakes => congrArg BitVec.toNat (hid htakes)⟩

/-- A word that encodes no command raises IllegalCommand and changes nothing else (R59, R130). -/
theorem execute_of_not_command {w : Word} (h : ∀ i, decode w ≠ .command i) (s : State) :
    execute w s = .next (raise .illegalCommand s) := by
  unfold execute
  split
  · next i hdec => exact absurd hdec (h i)
  · rfl

/-- Settles O3: a word that decodes has an assigned OP, RSV 0 and the ID its OP admits, so the words named decode to no
command, and a step that takes the write of one to CMD executes it. -/
theorem illegalWordRaisesOnlyErr : Obligations.IllegalWordRaisesOnlyErr := by
  intro w s op rsv id hbad
  have hnot : ∀ i, decode w ≠ .command i := by
    intro i hdec
    obtain ⟨hop, hrsv, hid⟩ := fields_of_decode hdec
    rcases hbad with hunassigned | hreserved | ⟨hpwrite, hpreadc, hidBad⟩
    · have hassigned := op_toNat_assigned i
      rw [← hop] at hassigned
      exact hunassigned hassigned
    · exact hreserved hrsv
    · exact hidBad (hid ((takesId_eq_false_iff i.op).2 (hop ▸ ⟨hpwrite, hpreadc⟩)))
  refine ⟨execute_of_not_command hnot s, fun j rest hr hq => ?_⟩
  have hw : busWrite 0x00#8 4 w (popped s rest j) = .command w := busWrite_regOffset .cmd w _
  rw [step_of_write hr hq, hw]
  exact execute_of_not_command hnot _

/-- Every word, executed, answers a next state (R127). -/
theorem execute_answers_next (w : Word) (s : State) : ∃ t, execute w s = .next t := by
  cases hdec : decode w with
  | command i => simpa only [execute, hdec] using exec_answers_next i s
  | illegal e => exact ⟨_, execute_of_not_command (by simp [hdec]) s⟩

/-- Either edge of `rst` answers a next state (R145). -/
theorem perform_rst_answers_next (level : Bool) (s : State) : ∃ t, perform (.rst level) s = .next t := by
  cases level with
  | true => exact ⟨_, rfl⟩
  | false =>
    cases hr : s.port.rst with
    | true => exact ⟨_, perform_deassert hr⟩
    | false => exact ⟨_, perform_deassert_low hr⟩

/-- A write with `rst` low answers a next state, whether it is a command or not (R127, R135). -/
theorem step_answers_next_of_write {s : State} {off : BitVec 8} {size : Nat} {v : Word} {j : Bool}
    {rest : List PortEvent} (hr : s.port.rst = false) (hq : s.port.queue = .write off size v j :: rest) :
    ∃ t, step s = .next t := by
  rw [step_of_write hr hq]
  cases busWrite off size v (popped s rest j) with
  | done t => exact ⟨t, rfl⟩
  | command w => exact execute_answers_next w _

/-- Settles O7: by the port's first event and the level of `rst`. -/
theorem everyStepAnswersNext : Obligations.EveryStepAnswersNext := by
  intro s
  cases hq : s.port.queue with
  | nil => exact ⟨s, step_of_idle hq⟩
  | cons e rest =>
    cases e with
    | rst level => rw [step_of_event hq]; exact perform_rst_answers_next level _
    | read off size =>
      cases hr : s.port.rst with
      | true => exact ⟨_, step_in_reset hr hq nofun⟩
      | false => exact ⟨_, step_of_read hr hq⟩
    | write off size v j =>
      cases hr : s.port.rst with
      | true => exact ⟨_, step_in_reset hr hq nofun⟩
      | false => exact step_answers_next_of_write hr hq

/-- A write to a register leaves ERR as it is, clears it, or raises BusError alone (R16, R39, R41). -/
theorem writeReg_err {r : Reg} {v : Word} {s t : State} (h : writeReg v s r = .done t) :
    t.err = s.err ∨ t.err = .none ∨ t = raise .busError s := by
  cases r with
  | cmd => cases h
  | status => cases h; exact .inr (.inl rfl)
  | res0 | res1 | poolCursor | lfoPhase | tailLevel | rAtten => cases h; exact .inr (.inr rfl)
  | opa | opb | opc | dcs | combFb | apCoef | dampA | dampB | mixWet | mixDry | pdOffset | pdLen =>
    cases h; exact .inl rfl
  | param i | erGain i | erLen i | combLen i | apLen i => cases h; exact .inl rfl

/-- A command leaves ERR as it is, or is a PREPARE that raises AllocFail alone (R57, R88). -/
theorem exec_err {i : Instr} {s t : State} (h : exec i s = .next t) : t.err = s.err ∨ t = raise .allocFail s := by
  by_cases hi : i = .prepare
  · subst hi
    by_cases hfit : lengthsFit s.build s.staged = true
    · rw [exec_prepare_of_fits hfit] at h; cases h; exact .inl rfl
    · rw [exec_prepare_of_not_fits hfit] at h; cases h; exact .inr rfl
  · obtain ⟨-, -, -, -, -, -, -, -, -, -, herr⟩ := commandsWriteOnlyTheirRegisters i s t h
    exact .inl (herr hi)

/-- Settles O56: each case of a step keeps ERR, ends with ERR 0, or raises a code on the state with the event taken. -/
theorem errorsArePrecise : Obligations.ErrorsArePrecise := by
  intro s t hstep hchanged hcode
  cases step_cases hstep with
  | idle | ignored | asserted | stillLow | readAnswered => exact absurd rfl hchanged
  | deasserted => exact absurd rfl hcode
  | readFailed | writeFailed | illegal => rfl
  | written _ _ _ hw =>
    obtain hsame | hclear | rfl := writeReg_err hw
    · exact absurd hsame hchanged
    · exact absurd hclear hcode
    · rfl
  | ran _ _ _ hexec =>
    obtain hsame | rfl := exec_err hexec
    · exact absurd hsame hchanged
    · rfl

end Sys2Proof.Machine
end
